-- ==== Sys2Proof/Word.lean ====
section
/-! DEFINITION. The word types of the Frame Codec: bytes, host addresses and the multi-byte registers' widths
(spec/00_scope.md R8, R10; spec/20_memory.md R61). -/

namespace Sys2Proof

/-- One byte, `DATA_W = 8` bits (R8, R10). -/
abbrev Byte := BitVec 8

/-- A host address, `ADDR_W = 10` bits (R8, R61). -/
abbrev HostAddr := BitVec 10

/-- A 16-bit register: PLEN, TXCNT, RXCNT, FLEN and the counter POS (R8, R22, R25, R27, R29). -/
abbrev Half := BitVec 16

/-- A 32-bit register: TIMEOUT, CLEN and the counter ELAPSED (R8, R21, R30, R32). -/
abbrev Word := BitVec 32

end Sys2Proof
end

