-- ==== Sys2Proof/Config.lean ====
section
/-! DEFINITION. What an implementation fixes, and the values the spec leaves free: the parameters of
spec/00_scope.md R8, the open parameter `CODEC_BASE` (R72) and the contents of PBUF after a Reset (R31, R210). -/

namespace Sys2Proof.Config

/-- The label this spec gives the block (R2, D1); it appears in no register. -/
def identity : String := "FRAMECODEC-RCS660S-v7"

/-- `MAX_PAYLOAD`: the largest payload the encoder accepts and the decoder admits (R8, R9). -/
def maxPayload : Nat := 282

/-- `PBUF_SIZE = MAX_PAYLOAD` (R8). -/
def pbufSize : Nat := maxPayload

/-- `MAX_FRAME = MAX_PAYLOAD + 8` (R8, R94). -/
def maxFrame : Nat := maxPayload + 8

/-- `TIMEOUT_RESET`: 1000 ms (R8, R21). -/
def timeoutReset : Word := 1000

/-- The host address of PBUF[0] (R16). -/
def pbufBase : Nat := 0x100

/-- The default of the parameter `HAS_CCID` (R3, R8). The parameter itself is a field of State, so that every
statement over all states holds for both of its values (log 9). -/
def hasCcidDefault : Bool := true

/-- `CODEC_BASE`: where the block sits in the host's own address space; left to the platform (R72, D2, U13). OPEN. -/
opaque codecBase : Nat

/-- The byte that the draw number `k` left in PBUF[i]: unspecified contents, drawn once at each Reset (R31, R210, U7).
A FREE VALUE: nothing is known of it (log 5). -/
opaque pbufAtReset (k i : Nat) : BitVec 8

end Sys2Proof.Config
end

