-- ==== Sys2Proof/Syntax.lean ====
section
/-! DEFINITION. The syntax of the Frame Codec: its commands (one constructor per row of spec/opcode_table.json), the
events of the model (spec/10_state.md R24), the host's accesses and the notation of test programs
(spec/30_encoding.md R108-R110). -/

namespace Sys2Proof

/-- The commands of R104. No command has an operand: every operand is implicit in the block's registers (R15, R90, R91). -/
inductive Instr where
  /-- NOP, 0x00 (R126). -/
  | nop
  /-- CKSUM, 0x01 (R141). -/
  | cksum
  /-- ENCODE, 0x02 (R150). -/
  | encode
  /-- DECODE, 0x03 (R160). -/
  | decode
  /-- CCIDPARSE, 0x04 (R184); exists only when `HAS_CCID`. -/
  | ccidparse
  /-- CCIDCHK, 0x05 (R185); exists only when `HAS_CCID`. -/
  | ccidchk
  deriving DecidableEq, Repr

/-- An access of the host: one byte at one address (R67). -/
inductive HostAccess where
  | write (a : HostAddr) (v : Byte)
  | read (a : HostAddr)
  deriving DecidableEq, Repr

/-- The events of the model: each is one atomic step (R13, R24). -/
inductive Event where
  /-- `HostWrite(a, v)` (R70). -/
  | hostWrite (a : HostAddr) (v : Byte)
  /-- `HostRead(a)` (R71). -/
  | hostRead (a : HostAddr)
  /-- `RxArrive(b)`: the transport has received `b` and queues it (R28). -/
  | rxArrive (b : Byte)
  /-- `RxPull`: the engine takes the head of RXQ (R167, R171). -/
  | rxPull
  /-- `TxAccept`: the transport accepts the byte the engine offers (R157). -/
  | txAccept
  /-- `Tick`: one millisecond passes (R166). -/
  | tick
  /-- `Finish`: the engine completes an internal computation (R124). -/
  | finish
  /-- `Reset` (R210). -/
  | reset
  deriving DecidableEq, Repr

/-- The event a host access is (R24). -/
def HostAccess.event : HostAccess → Event
  | .write a v => .hostWrite a v
  | .read a => .hostRead a

/-- The core statements of the test-program notation (R108); `reset` is the event the vectors of 95_test_vectors.md name. -/
inductive CoreStmt where
  /-- `wr A, V`. -/
  | wr (a : HostAddr) (v : Byte)
  /-- `rd A`, or `rd A => V` when the test expects `V`. -/
  | rd (a : HostAddr) (expect : Option Byte)
  /-- `rx B0 B1 ...`. -/
  | rx (bytes : List Byte)
  /-- `txacc N`. -/
  | txacc (n : Nat)
  /-- `txacc *`. -/
  | txaccAll
  /-- `tick N`. -/
  | tick (n : Nat)
  /-- `wait`: `rd 0x001` until DONE (R110). -/
  | wait
  /-- `Reset`. -/
  | reset
  deriving DecidableEq, Repr

/-- The statements of the notation, pseudo-instructions among them (R108, R110). -/
inductive Stmt where
  | core (c : CoreStmt)
  /-- `cmd OP`. -/
  | cmd (op : Byte)
  /-- `wr16 A, V`. -/
  | wr16 (a : HostAddr) (v : Half)
  /-- `wr32 A, V`. -/
  | wr32 (a : HostAddr) (v : Word)
  /-- `rd16 A`. -/
  | rd16 (a : HostAddr)
  /-- `wrbuf K, B0 B1 ... Bm`. -/
  | wrbuf (k : Nat) (bytes : List Byte)
  deriving DecidableEq, Repr

end Sys2Proof
end

