-- ==== Sys2Proof/WellFormed.lean ====
section
/-! DEFINITION. Which terms of the syntax are well formed. A command has no operand (spec/30_encoding.md R90), so every
command is; the checks are on transaction words (R109) and on the pseudo-instructions' addresses (R110). -/

namespace Sys2Proof

/-- A command byte has no register, immediate, mode or length field (R90): nothing of it can be ill formed. -/
def Instr.wellFormed : Instr → Bool
  | .nop => true
  | .cksum => true
  | .encode => true
  | .decode => true
  | .ccidparse => true
  | .ccidchk => true

/-- A 19-bit transaction word is well formed when it is a write, or a read whose DATA is 0 (R109). -/
def wordWellFormed (w : BitVec 19) : Bool :=
  w.getLsbD 18 || w.setWidth 8 == 0

/-- The host addresses from `a` on, `n` of them, are all addresses of the host register space (R61). -/
def addressesFit (a n : Nat) : Bool :=
  decide (a + n ≤ 1024)

/-- A pseudo-instruction is well formed when every address of its expansion (R110) fits `ADDR_W = 10` bits. -/
def Stmt.wellFormed : Stmt → Bool
  | .core _ => true
  | .cmd _ => true
  | .wr16 a _ => addressesFit a.toNat 2
  | .wr32 a _ => addressesFit a.toNat 4
  | .rd16 a => addressesFit a.toNat 2
  | .wrbuf k bytes => addressesFit (Config.pbufBase + k) bytes.length

end Sys2Proof
end

