-- ==== Sys2Proof/Decode.lean ====
section
/-! DEFINITION. Decoding and encoding: the command byte (spec/30_encoding.md R90, R104-R106) and the transaction word of
test programs (R109). -/

namespace Sys2Proof

/-- Why a byte sequence or a word is no instruction or access. -/
inductive DecodeReject where
  /-- There is no byte to decode. -/
  | noByte
  /-- No row of the opcode map matches (R104, R105): the command exists and completes with ILLEGAL_COMMAND. -/
  | illegalOpcode (v : Byte)
  /-- A read's DATA field is 0 (R109); this word's is not. -/
  | readWithData (w : BitVec 19)
  deriving DecidableEq, Repr

/-- One row of the opcode map: mask and match of the whole byte (R104). -/
structure OpcodeRow where
  mask : Byte
  pattern : Byte
  instr : Instr
  deriving DecidableEq, Repr

/-- The opcode map (R104): for each defined command, mask 0xFF and match the opcode. -/
def opcodeMap : List OpcodeRow :=
  [⟨0xFF, 0x00, .nop⟩, ⟨0xFF, 0x01, .cksum⟩, ⟨0xFF, 0x02, .encode⟩, ⟨0xFF, 0x03, .decode⟩,
   ⟨0xFF, 0x04, .ccidparse⟩, ⟨0xFF, 0x05, .ccidchk⟩]

/-- The command a byte selects: the row whose masked bits match (R104). -/
def decodeByte (v : Byte) : Except DecodeReject Instr :=
  match opcodeMap.find? (fun r => v &&& r.mask == r.pattern) with
  | some r => .ok r.instr
  | none => .error (.illegalOpcode v)

/-- Decoding of any bytes: every command is exactly one byte (R90); the rest follows it. -/
def decode : List Byte → Except DecodeReject (Instr × List Byte)
  | [] => .error .noByte
  | v :: rest =>
    match decodeByte v with
    | .ok i => .ok (i, rest)
    | .error e => .error e

/-- The opcode of a command (R104). -/
def opcode : Instr → Byte
  | .nop => 0x00
  | .cksum => 0x01
  | .encode => 0x02
  | .decode => 0x03
  | .ccidparse => 0x04
  | .ccidchk => 0x05

/-- The bytes of a command: its opcode alone (R90). -/
def encode (i : Instr) : List Byte := [opcode i]

/-- The byte an opcode-table word stands for: its bits 7..0, every bit above `nbits` being 0. -/
def tableByte (nbits w : Nat) : Byte := BitVec.ofNat 8 (w % 2 ^ nbits)

/-- The instruction the decoder reads from a word numbered as spec/opcode_table.json numbers it. -/
def decodeTableWord (nbits w : Nat) : Option Instr :=
  match decode [tableByte nbits w] with
  | .ok (i, _) => some i
  | .error _ => none

/-- A host access as a 19-bit transaction word: WE, ADDR, DATA (R108, R109). -/
def accessWord : HostAccess → BitVec 19
  | .write a v => 1#1 ++ a ++ v
  | .read a => 0#1 ++ a ++ 0#8

/-- The host access a transaction word stands for (R109). -/
def decodeAccessWord (w : BitVec 19) : Except DecodeReject HostAccess :=
  let a : HostAddr := w.extractLsb' 8 10
  let v : Byte := w.extractLsb' 0 8
  if w.getLsbD 18 then .ok (.write a v)
  else if v = 0 then .ok (.read a)
  else .error (.readWithData w)

end Sys2Proof
end

