-- ==== Sys2Proof/Machine/Checksum.lean ====
section
/-! DEFINITION. The checksum unit (spec/41_checksum.md R140, spec/00_scope.md R10, R12): exact sums, narrowed at the end. -/

namespace Sys2Proof.Machine

/-- `sum8(s) = (Σ s[i]) mod 256` (R10). -/
def sum8 (l : List Byte) : Nat :=
  (l.map BitVec.toNat).sum % 256

/-- `neg8(x) = (256 - x) mod 256`, for `x` below 256 (R10). -/
def neg8 (x : Nat) : Nat :=
  (256 - x) % 256

/-- `cks(s) = neg8(sum8(s))` (R12, R140). -/
def cks (l : List Byte) : Byte :=
  BitVec.ofNat 8 (neg8 (sum8 l))

/-- The length checksum of a length field's two bytes (R93). -/
def lcs (hi lo : Byte) : Byte :=
  BitVec.ofNat 8 (neg8 ((hi.toNat + lo.toNat) % 256))

/-- The frame that carries payload `p` (R92). -/
def frame (p : List Byte) : List Byte :=
  let hi : Byte := BitVec.ofNat 8 (p.length / 256)
  let lo : Byte := BitVec.ofNat 8 p.length
  [0x00, 0x00, 0xFF, hi, lo, lcs hi lo] ++ p ++ [cks p, 0x00]

end Sys2Proof.Machine
end

