-- ==== Sys2Proof/Machine/State.lean ====
section
/-! DEFINITION. The state of the Frame Codec: every piece spec/10_state.md and spec/70_reset_and_hazards.md R210 name,
the environment's queues that the rules need (R28, R34), the parameter `HAS_CCID` (R3) and the model's own fields
(the schedule, the host's readings, the counter of draws); and the state after reset. -/

namespace Sys2Proof.Machine

/-- The error codes of R190, by name; `ErrorCode.code` (Machine/Flags.lean) gives the numbers. The values 0x09..0xFF are
never written (R19), and no constructor stands for one. -/
inductive ErrorCode where
  /-- NONE, 0x00: success. -/
  | none
  /-- TRANSPORT_TIMEOUT, 0x01. -/
  | transportTimeout
  /-- FRAME_HEADER_INVALID, 0x02. -/
  | frameHeaderInvalid
  /-- FRAME_CHECKSUM_INVALID, 0x03. -/
  | frameChecksumInvalid
  /-- FRAME_PAYLOAD_TOO_LONG, 0x04. -/
  | framePayloadTooLong
  /-- FRAME_DATA_CHECKSUM_INVALID, 0x05. -/
  | frameDataChecksumInvalid
  /-- CCID_HEADER_INVALID, 0x06. -/
  | ccidHeaderInvalid
  /-- PLEN_RANGE, 0x07. -/
  | plenRange
  /-- ILLEGAL_COMMAND, 0x08. -/
  | illegalCommand
  deriving DecidableEq, Repr

/-- The engine's phases (R22). -/
inductive Phase where
  /-- IDLE: no command runs. -/
  | idle
  /-- COMPUTE: a command waits for its Finish. -/
  | compute
  /-- ENC: ENCODE offers frame bytes. -/
  | enc
  /-- DEC_HDR: DECODE reads the six header bytes. -/
  | decHdr
  /-- DEC_BODY: DECODE reads payload, DCS and postamble. -/
  | decBody
  deriving DecidableEq, Repr

/-- The stored bits of STATUS (R18). BUSY is not among them: it is `PHASE != IDLE` (R22; `State.busy`). -/
structure Status where
  done : Bool
  errf : Bool
  dcsOk : Bool
  postOk : Bool
  wign : Bool
  hdrOk : Bool
  deriving DecidableEq, Repr

/-- The capture registers of DECODE (R29). -/
structure Capture where
  hdr : Vector Byte 6
  rxDcs : Byte
  rxPost : Byte
  flen : Half
  deriving DecidableEq, Repr

/-- The registers of the CCID parser (R32, R33). -/
structure CcidRegs where
  mtype : Byte
  clen : Word
  slot : Byte
  seq : Byte
  msg7 : Byte
  msg8 : Byte
  msg9 : Byte
  cstat : Byte
  deriving DecidableEq, Repr

/-- The memory of the host register space: the bytes of PBUF by host address, addresses strictly rising, every address of
PBUF listed and no other (R16, R31; log 6). An unlisted address holds no memory byte. -/
abbrev Memory := List Host.Cell

/-- PBUF as the draw number `k` leaves it: free values (R31, R210; log 5). -/
def Memory.drawn (k : Nat) : Memory :=
  (List.range Config.pbufSize).map (fun i => (Config.pbufBase + i, Config.pbufAtReset k i))

/-- Why the machine stops. The spec gives the block no trap (R192): each of these is raised only in a state that no run
from reset reaches (R22, R61), and each is SAFE: the model stops where the rules name no byte (log 11). -/
inductive Fault where
  /-- The engine would access PBUF at an index of 282 or more. Raised by the meanings of CKSUM, ENCODE, DECODE, CCIDPARSE
  and CCIDCHK; R61 says the range checks rule it out. Safe. -/
  | pbufIndex
  /-- A header byte would be stored beyond HDR5. Raised by the meaning of DECODE; R22 bounds POS by 5 there. Safe. -/
  | headerIndex
  /-- The frame byte function has no value at POS: POS lies beyond PLEN + 7, or the payload beyond PBUF. Raised by the
  meaning of ENCODE; R22 and R122 rule it out. Safe. -/
  | frameIndex
  deriving DecidableEq, Repr

/-- Why a step has no meaning. -/
inductive Refusal where
  /-- An instruction of the opcode table without a meaning yet, by its mnemonic. Raised by exec; safe. -/
  | notModelled (mnemonic : String)
  /-- The schedule names an event that R24 does not enable in this state: it is no event of the machine there.
  Raised by step; safe (log 2). -/
  | notEnabled (e : Event)
  deriving DecidableEq, Repr

/-- The state of the machine. Plain data. -/
structure State where
  /-- The parameter `HAS_CCID` (R3); no event changes it (log 9). -/
  hasCcid : Bool
  /-- STATUS without BUSY (R18). -/
  status : Status
  /-- ERR (R19). -/
  err : ErrorCode
  /-- CFG.DCS_EN, the one stored bit of CFG (R20). -/
  dcsEn : Bool
  /-- TIMEOUT (R21). -/
  timeout : Word
  /-- PLEN (R25). -/
  plen : Half
  /-- CKSUM (R26). -/
  cksum : Byte
  /-- TXCNT (R27). -/
  txcnt : Half
  /-- RXCNT (R27). -/
  rxcnt : Half
  /-- HDR0..HDR5, RX_DCS, RX_POST, FLEN (R29). -/
  cap : Capture
  /-- MTYPE, CLEN, SLOT, SEQ, MSG7..MSG9, CSTAT (R32, R33). -/
  ccid : CcidRegs
  /-- PBUF (R31). -/
  pbuf : Memory
  /-- PHASE (R22). -/
  phase : Phase
  /-- POS (R22). -/
  pos : Half
  /-- OP (R22). -/
  op : Byte
  /-- PERR (R22). -/
  perr : ErrorCode
  /-- ELAPSED (R30). -/
  elapsed : Word
  /-- RXQ, the transport's receive queue, oldest first (R28). -/
  rxq : List Byte
  /-- TXLOG, the bytes the transport has accepted, oldest first (R34). -/
  txlog : List Byte
  /-- The model's own: the bytes the host has read and their addresses, oldest first (R71; log 12). -/
  hostReads : List (HostAddr × Byte)
  /-- The model's own: the events to come, next first (R13, R24; log 1). -/
  sched : List Event
  /-- The model's own: how often PBUF has been drawn (log 5). -/
  draws : Nat
  deriving DecidableEq, Repr

/-- The machine right after reset (R210), with PBUF drawn once, the default parameter (R3) and, for the environment, empty
queues (log 16). -/
def State.reset : State where
  hasCcid := Config.hasCcidDefault
  status := { done := false, errf := false, dcsOk := false, postOk := false, wign := false, hdrOk := false }
  err := .none
  dcsEn := false
  timeout := Config.timeoutReset
  plen := 0
  cksum := 0
  txcnt := 0
  rxcnt := 0
  cap := { hdr := Vector.replicate 6 0, rxDcs := 0, rxPost := 0, flen := 0 }
  ccid := { mtype := 0, clen := 0, slot := 0, seq := 0, msg7 := 0, msg8 := 0, msg9 := 0, cstat := 0 }
  pbuf := Memory.drawn 0
  phase := .idle
  pos := 0
  op := 0
  perr := .none
  elapsed := 0
  rxq := []
  txlog := []
  hostReads := []
  sched := []
  draws := 1

end Sys2Proof.Machine
end

