-- ==== Sys2Proof/Machine/Ops.lean ====
section
/-! DEFINITION. The named operations the meanings share: bytes of multi-byte registers, the memory PBUF, and the shared
procedures of spec/40_command.md: acceptance, completion (the block's only way to report an error, R192), the ignored
write, the Finish of a command, and the entry of an RX phase. -/

namespace Sys2Proof.Machine

/-! ### Bytes of multi-byte registers (R64(c), R67) -/

/-- Byte `k` of a register, byte 0 holding bits 7:0 (R64(c)). -/
def byteOf {w : Nat} (v : BitVec w) (k : Nat) : Byte :=
  (v >>> (8 * k)).setWidth 8

/-- A register with byte `k` replaced; no other bit changes (R67). -/
def putByte {w : Nat} (v : BitVec w) (k : Nat) (b : Byte) : BitVec w :=
  (v &&& ~~~((BitVec.setWidth w (0xFF : Byte)) <<< (8 * k))) ||| (b.setWidth w <<< (8 * k))

/-! ### The memory PBUF (R31, R61) -/

/-- What an address the memory does not list reads as: no byte (log 6). -/
def Memory.unlisted : Option Byte := none

/-- One byte of memory, by host address. -/
def Memory.read (m : Memory) (a : Nat) : Option Byte :=
  match m.find? (fun c => c.1 == a) with
  | some c => some c.2
  | none => Memory.unlisted

/-- Memory with the byte at address `a` replaced; an address that is not listed holds nothing to replace. -/
def Memory.write (m : Memory) (a : Nat) (v : Byte) : Memory :=
  m.map (fun c => if c.1 = a then (a, v) else c)

/-- The canonical form: exactly the addresses of PBUF, strictly rising (R16; log 6). -/
def Memory.wf (m : Memory) : Bool :=
  m.map Prod.fst == List.range' Config.pbufBase Config.pbufSize

/-- PBUF[i], when there is such a byte (R61). -/
def pbufRead (m : Memory) (i : Nat) : Option Byte :=
  m.read (Config.pbufBase + i)

/-- `PBUF[i] <- v`, when there is such a byte (R61). -/
def pbufWrite (m : Memory) (i : Nat) (v : Byte) : Option Memory :=
  match pbufRead m i with
  | some _ => some (m.write (Config.pbufBase + i) v)
  | none => none

/-- PBUF[i], PBUF[i+1], ..., `n` bytes, when PBUF has them all. -/
def pbufSlice (m : Memory) (i : Nat) : Nat → Option (List Byte)
  | 0 => some []
  | n + 1 =>
    match pbufRead m i, pbufSlice m (i + 1) n with
    | some b, some bs => some (b :: bs)
    | _, _ => none

/-- `PBUF[0..n-1]`, the payload of length `n`, when `n <= 282` (R31). -/
def payload (m : Memory) (n : Nat) : Option (List Byte) :=
  pbufSlice m 0 n

/-! ### The engine -/

/-- STATUS.BUSY: `PHASE != IDLE` (R18, R22). -/
def State.busy (s : State) : Bool :=
  decide (s.phase ≠ .idle)

/-- PHASE is one of the two RX phases (R14, R22). -/
def State.inRx (s : State) : Bool :=
  match s.phase with
  | .decHdr => true
  | .decBody => true
  | .idle => false
  | .compute => false
  | .enc => false

/-- What acceptance does for every command: `OP <- v`, and ERR, DONE, ERRF and WIGN are cleared (R120).
BUSY follows the phase that the command's own acceptance sets. -/
def acceptBegin (v : Byte) (s : State) : State :=
  { s with
    op := v
    err := .none
    status := { s.status with done := false, errf := false, wign := false } }

/-- `PERR <- e ; PHASE <- COMPUTE` (R120). -/
def toCompute (e : ErrorCode) (s : State) : State :=
  { s with perr := e, phase := .compute }

/-- The payload-length range check at acceptance (R122). -/
def plenCheck (s : State) : ErrorCode :=
  if s.plen.toNat > Config.maxPayload then .plenRange else .none

/-- `complete(e)`: ends the running command with error code `e` (R123). With `e != NONE` it is how the block reports an
error, `raise` of R11: nothing is saved, no mode changes, nothing is fetched (R192). It changes no other register. -/
def complete (e : ErrorCode) (s : State) : State :=
  { s with
    phase := .idle
    pos := 0
    perr := .none
    err := e
    status := { s.status with errf := decide (e ≠ .none), done := true } }

/-- A host write that is ignored because BUSY is 1: it stores nothing, starts nothing and sets WIGN (R121). -/
def ignoreWrite (s : State) : State :=
  { s with status := { s.status with wign := true } }

/-- `Finish`: a pending error completes the command; otherwise the command's own body runs (R124). -/
def finishWith (body : State → Host.Outcome State Fault Refusal) (s : State) : Host.Outcome State Fault Refusal :=
  if s.perr = .none then body s else .next (complete s.perr s)

/-- The move of the command of opcode `v` in the phases every command shares: in IDLE its acceptance (R120), in COMPUTE
its Finish if it is the command that runs (R124). Given while another command runs, it is turned away (R121; log 4). -/
def runCommand (v : Byte) (accept : State → State) (body : State → Host.Outcome State Fault Refusal) (s : State) :
    Host.Outcome State Fault Refusal :=
  match s.phase with
  | .idle => .next (accept (acceptBegin v s))
  | .compute => if s.op = v then finishWith body s else .next (ignoreWrite s)
  | .enc => .next (ignoreWrite s)
  | .decHdr => .next (ignoreWrite s)
  | .decBody => .next (ignoreWrite s)

/-- Entering an RX phase: the timeout is checked at once, so `TIMEOUT = 0` fails here (R164). -/
def enterRx (ph : Phase) (s : State) : State :=
  let s1 : State := { s with phase := ph, pos := 0, elapsed := 0 }
  if s1.elapsed.toNat ≥ s1.timeout.toNat then complete .transportTimeout s1 else s1

/-- Reset: every piece of block state at its reset value, PBUF drawn anew; the environment's state, the parameter and the
model's own records stay (R210, R211). -/
def resetBlock (s : State) : State :=
  { State.reset with
    hasCcid := s.hasCcid
    pbuf := Memory.drawn s.draws
    rxq := s.rxq
    txlog := s.txlog
    hostReads := s.hostReads
    sched := s.sched
    draws := s.draws + 1 }

/-! ### The block's place in the platform's address space (R72) -/

/-- The platform address of host address `a`: `CODEC_BASE + a` (R72). -/
def platformAddress (a : HostAddr) : Nat :=
  Config.codecBase + a.toNat

/-- The host address a platform address reaches, when it lies in the block's 1024 locations (R61, R72). -/
def hostAddressOf (p : Nat) : Option HostAddr :=
  if Config.codecBase ≤ p ∧ p < Config.codecBase + 1024 then some (BitVec.ofNat 10 (p - Config.codecBase)) else none

end Sys2Proof.Machine
end

