-- ==== Sys2Proof/Machine/Operands.lean ====
section
/-! DEFINITION. How the commands assemble their operands (spec/30_encoding.md R91, R95, R100): the frame byte function of
the encoder (R156), the length field of the decoder, and the fields of the CCID header. -/

namespace Sys2Proof.Machine

/-- `pd_len = LEN_HI * 256 + LEN_LO` (R64(a), R95). -/
def lengthField (hi lo : Byte) : Half :=
  BitVec.ofNat 16 (hi.toNat * 256 + lo.toNat)

/-- The frame byte function `F(k)` for the payload length and PBUF of a state (R156); it has no value beyond the postamble,
`k = 7 + n`, nor where PBUF lacks the payload. -/
def frameByte (m : Memory) (plen : Half) (k : Nat) : Option Byte :=
  let n := plen.toNat
  if k = 0 then some 0x00
  else if k = 1 then some 0x00
  else if k = 2 then some 0xFF
  else if k = 3 then some (byteOf plen 1)
  else if k = 4 then some (byteOf plen 0)
  else if k = 5 then some (lcs (byteOf plen 1) (byteOf plen 0))
  else if k ≤ 5 + n then pbufRead m (k - 6)
  else if k = 6 + n then (payload m n).map cks
  else if k = 7 + n then some 0x00
  else none

/-- `CLEN = b1 + b2*2^8 + b3*2^16 + b4*2^24` (R64(b), R100, R180). -/
def ccidLength (b1 b2 b3 b4 : Byte) : Word :=
  BitVec.ofNat 32 (b1.toNat + b2.toNat * 2 ^ 8 + b3.toNat * 2 ^ 16 + b4.toNat * 2 ^ 24)

end Sys2Proof.Machine
end

