-- ==== Sys2Proof/Machine/Flags.lean ====
section
/-! DEFINITION. Every flag computation: the STATUS byte (spec/10_state.md R18), the error codes' numbers
(spec/60_exceptions.md R190), the checks of the decoder (spec/43_decode.md R168, R173, R174) and the CSTAT flags
(spec/44_ccid.md R182). -/

namespace Sys2Proof.Machine

/-- The numeric value of an error code (R190). -/
def ErrorCode.code : ErrorCode → Byte
  | .none => 0x00
  | .transportTimeout => 0x01
  | .frameHeaderInvalid => 0x02
  | .frameChecksumInvalid => 0x03
  | .framePayloadTooLong => 0x04
  | .frameDataChecksumInvalid => 0x05
  | .ccidHeaderInvalid => 0x06
  | .plenRange => 0x07
  | .illegalCommand => 0x08

/-- A flag at bit `k` of a byte. -/
def flagBit (f : Bool) (k : Nat) : Byte :=
  (if f then 1#8 else 0#8) <<< k

/-- STATUS as the host reads it: bits BUSY, DONE, ERRF, DCS_OK, POST_OK, WIGN, HDR_OK from bit 0 up; bit 7 reads 0 (R18). -/
def statusByte (s : State) : Byte :=
  flagBit s.busy 0 ||| flagBit s.status.done 1 ||| flagBit s.status.errf 2 ||| flagBit s.status.dcsOk 3 |||
    flagBit s.status.postOk 4 ||| flagBit s.status.wign 5 ||| flagBit s.status.hdrOk 6

/-- CFG as the host reads it: DCS_EN at bit 0, bits 7:1 read 0 (R20, R71). -/
def cfgByte (s : State) : Byte :=
  flagBit s.dcsEn 0

/-- The preamble check: `HDR0 == 0x00 and HDR1 == 0x00 and HDR2 == 0xFF` (R168). -/
def preambleOk (hdr : Vector Byte 6) : Bool :=
  hdr[0] == 0x00 && hdr[1] == 0x00 && hdr[2] == 0xFF

/-- The length-checksum check: `(HDR3 + HDR4 + HDR5) mod 256 == 0` (R168). -/
def lcsOk (hdr : Vector Byte 6) : Bool :=
  (hdr[3].toNat + hdr[4].toNat + hdr[5].toNat) % 256 == 0

/-- The DCS validator: `(sum8(q) + RX_DCS) mod 256 == 0` (R173). -/
def dcsGood (q : List Byte) (rxDcs : Byte) : Bool :=
  (sum8 q + rxDcs.toNat) % 256 == 0

/-- `ccid_flags()`: PARSED, SLOT0, LENMATCH, RESP_OK, TYPE_ESC, TYPE_ABORT, TYPE_RESP from bit 0 up (R182).
It is used only with `PLEN >= 10`. -/
def ccidFlags (c : CcidRegs) (plen : Half) : Byte :=
  0x01 |||
    (if c.slot = 0x00 then 0x02 else 0x00) |||
    (if c.clen.toNat = plen.toNat - 10 then 0x04 else 0x00) |||
    (if c.mtype = 0x83 ∧ c.msg7 = 0x02 then 0x08 else 0x00) |||
    (if c.mtype = 0x6B then 0x10 else 0x00) |||
    (if c.mtype = 0x72 then 0x20 else 0x00) |||
    (if c.mtype = 0x83 then 0x40 else 0x00)

/-- CSTAT.RESP_OK, bit 3 (R33). -/
def respOk (cstat : Byte) : Bool :=
  cstat.getLsbD 3

end Sys2Proof.Machine
end

