-- ==== Sys2Proof/Machine/Ccid.lean ====
section
/-! DEFINITION. The CCID message header parser, CCIDPARSE and CCIDCHK (spec/44_ccid.md), optional under `HAS_CCID`. -/

namespace Sys2Proof.Machine

/-- Acceptance of the parser's commands: illegal when the block has no parser (R118, R183), else the range check (R120, R122). -/
def ccidAccept (s : State) : State :=
  if s.hasCcid then toCompute (plenCheck s) s else toCompute .illegalCommand s

/-- `ccid_clear()` (R181). -/
def ccidClear (s : State) : State :=
  { s with ccid := { mtype := 0, clen := 0, slot := 0, seq := 0, msg7 := 0, msg8 := 0, msg9 := 0, cstat := 0 } }

/-- The header fields of ten bytes, CSTAT left as it is (R100, R180). -/
def ccidFields (h : Vector Byte 10) (cstat : Byte) : CcidRegs :=
  { mtype := h[0]
    clen := ccidLength h[1] h[2] h[3] h[4]
    slot := h[5]
    seq := h[6]
    msg7 := h[7]
    msg8 := h[8]
    msg9 := h[9]
    cstat := cstat }

/-- The registers after a parse of a header: its fields, then CSTAT computed from them (R180, R182). -/
def ccidParsed (h : Vector Byte 10) (plen : Half) (cstat : Byte) : CcidRegs :=
  let c := ccidFields h cstat
  { c with cstat := ccidFlags c plen }

/-- PBUF[0..9], when PBUF has them. -/
def ccidHeader (m : Memory) : Option (Vector Byte 10) :=
  match pbufSlice m 0 10 with
  | some [b0, b1, b2, b3, b4, b5, b6, b7, b8, b9] => some #v[b0, b1, b2, b3, b4, b5, b6, b7, b8, b9]
  | some _ => none
  | none => none

/-- `ccid_extract()`, then completion: a payload shorter than 10 bytes has no header, clears the registers and completes with
CCID_HEADER_INVALID; a header's registers decide the code (R180, R181, R184, R185). -/
def ccidExtract (verdict : CcidRegs → ErrorCode) (s : State) : Host.Outcome State Fault Refusal :=
  if s.plen.toNat < 10 then .next (complete .ccidHeaderInvalid (ccidClear s))
  else
    match ccidHeader s.pbuf with
    | some h =>
      let c := ccidParsed h s.plen s.ccid.cstat
      .next (complete (verdict c) { s with ccid := c })
    | none => .fault .pbufIndex

/-- CCIDPARSE accepts every header (R184). -/
def ccidparseBody (s : State) : Host.Outcome State Fault Refusal :=
  ccidExtract (fun _ => .none) s

/-- CCIDCHK requires `CSTAT.RESP_OK` (R185). -/
def ccidchkBody (s : State) : Host.Outcome State Fault Refusal :=
  ccidExtract (fun c => if respOk c.cstat then .none else .ccidHeaderInvalid) s

/-- CCIDPARSE (R184). -/
def execCcidparse (s : State) : Host.Outcome State Fault Refusal :=
  runCommand 0x04 ccidAccept ccidparseBody s

/-- CCIDCHK (R185). -/
def execCcidchk (s : State) : Host.Outcome State Fault Refusal :=
  runCommand 0x05 ccidAccept ccidchkBody s

end Sys2Proof.Machine
end

