-- ==== Sys2Proof/Machine/Command.lean ====
section
/-! DEFINITION. NOP and the CKSUM command (spec/40_command.md R126, spec/41_checksum.md R141). -/

namespace Sys2Proof.Machine

/-- NOP: accepted with no pending error; its Finish completes with NONE (R126). -/
def execNop (s : State) : Host.Outcome State Fault Refusal :=
  runCommand 0x00 (toCompute .none) (fun t => .next (complete .none t)) s

/-- `cksum_body()`: `CKSUM <- cks(PBUF[0..PLEN-1])`, then completion with NONE (R141). -/
def cksumBody (s : State) : Host.Outcome State Fault Refusal :=
  match payload s.pbuf s.plen.toNat with
  | some p => .next (complete .none { s with cksum := cks p })
  | none => .fault .pbufIndex

/-- CKSUM: the range check at acceptance (R122), the checksum at Finish (R141). -/
def execCksum (s : State) : Host.Outcome State Fault Refusal :=
  runCommand 0x01 (fun t => toCompute (plenCheck t) t) cksumBody s

end Sys2Proof.Machine
end

