-- ==== Sys2Proof/Machine/Decoder.lean ====
section
/-! DEFINITION. The frame decoder and the DCS validator, DECODE (spec/43_decode.md). -/

namespace Sys2Proof.Machine

/-- `decode_accept()`: PLEN, RXCNT, the capture registers and the DECODE flags are cleared, and the header phase is
entered (R163). -/
def decodeAccept (s : State) : State :=
  enterRx .decHdr
    { s with
      plen := 0
      rxcnt := 0
      cap := { hdr := Vector.replicate 6 0, rxDcs := 0, rxPost := 0, flen := 0 }
      status := { s.status with hdrOk := false, dcsOk := false, postOk := false } }

/-- `Tick` in an RX phase (R166). -/
def rxTick (s : State) : State :=
  let s1 : State := { s with elapsed := s.elapsed + 1 }
  if s1.elapsed.toNat ≥ s1.timeout.toNat then complete .transportTimeout s1 else s1

/-- `header_done()`: FLEN is written; then preamble, length checksum and length are checked, in this order (R168). -/
def headerDone (s : State) : State :=
  let s1 : State := { s with cap := { s.cap with flen := lengthField s.cap.hdr[3] s.cap.hdr[4] } }
  if preambleOk s1.cap.hdr = false then complete .frameHeaderInvalid s1
  else if lcsOk s1.cap.hdr = false then complete .frameChecksumInvalid s1
  else if s1.cap.flen.toNat > Config.maxPayload then complete .framePayloadTooLong s1
  else enterRx .decBody { s1 with status := { s1.status with hdrOk := true } }

/-- `RxPull` in DEC_HDR of byte `b`, `s` having it already removed from RXQ (R167). -/
def pullHeader (b : Byte) (s : State) : Host.Outcome State Fault Refusal :=
  if h : s.pos.toNat < 6 then
    let s1 : State :=
      { s with cap := { s.cap with hdr := s.cap.hdr.set s.pos.toNat b h }, pos := s.pos + 1, rxcnt := s.rxcnt + 1 }
    if s1.pos.toNat = 6 then .next (headerDone s1) else .next s1
  else .fault .headerIndex

/-- `body_done()` for the received payload `q`: CKSUM, DCS_OK and POST_OK report the checks; a bad DCS is an error only
under CFG.DCS_EN; otherwise PLEN is the payload's length (R174). -/
def bodyDone (q : List Byte) (s : State) : State :=
  let good := dcsGood q s.cap.rxDcs
  let s1 : State :=
    { s with
      cksum := cks q
      status := { s.status with dcsOk := good, postOk := s.cap.rxPost == 0x00 } }
  if s1.dcsEn = true ∧ good = false then complete .frameDataChecksumInvalid s1
  else complete .none { s1 with plen := s1.cap.flen }

/-- Where a body byte goes, by POS: payload byte, DCS or postamble (R171, R172). -/
def storeBody (b : Byte) (s : State) : Option State :=
  if s.pos.toNat < s.cap.flen.toNat then
    match pbufWrite s.pbuf s.pos.toNat b with
    | some m => some { s with pbuf := m }
    | none => none
  else if s.pos.toNat = s.cap.flen.toNat then some { s with cap := { s.cap with rxDcs := b } }
  else some { s with cap := { s.cap with rxPost := b } }

/-- `RxPull` in DEC_BODY of byte `b`, `s` having it already removed from RXQ (R171). -/
def pullBody (b : Byte) (s : State) : Host.Outcome State Fault Refusal :=
  match storeBody b s with
  | none => .fault .pbufIndex
  | some s1 =>
    let s2 : State := { s1 with pos := s1.pos + 1, rxcnt := s1.rxcnt + 1 }
    if s2.pos.toNat = s2.cap.flen.toNat + 2 then
      match payload s2.pbuf s2.cap.flen.toNat with
      | some q => .next (bodyDone q s2)
      | none => .fault .pbufIndex
    else .next s2

/-- DECODE: in an RX phase its move is the RxPull of the head of RXQ, or, when RXQ is empty, the Tick: R24 enables exactly
one of the two. No branch of Finish gives a DECODE without a pending error an effect (R160, R124; log 14). -/
def execDecode (s : State) : Host.Outcome State Fault Refusal :=
  match s.phase with
  | .decHdr =>
    match s.rxq with
    | [] => .next (rxTick s)
    | b :: q => pullHeader b { s with rxq := q }
  | .decBody =>
    match s.rxq with
    | [] => .next (rxTick s)
    | b :: q => pullBody b { s with rxq := q }
  | .idle => runCommand 0x03 decodeAccept (fun t => .next t) s
  | .compute => runCommand 0x03 decodeAccept (fun t => .next t) s
  | .enc => runCommand 0x03 decodeAccept (fun t => .next t) s

end Sys2Proof.Machine
end

