-- ==== Sys2Proof/Machine/Encoder.lean ====
section
/-! DEFINITION. The frame encoder, ENCODE (spec/42_encode.md). -/

namespace Sys2Proof.Machine

/-- ENCODE's part of acceptance: TXCNT is cleared; a payload over 282 bytes goes to COMPUTE with PLEN_RANGE, any other
starts the frame (R120, R150). -/
def encodeAccept (s : State) : State :=
  let s1 : State := { s with txcnt := 0 }
  if s1.plen.toNat > Config.maxPayload then toCompute .plenRange s1 else { s1 with phase := .enc, pos := 0 }

/-- `TxAccept` in ENC: the transport takes `F(POS)`; the last frame byte completes the command and leaves its DCS in CKSUM
(R150, R157). -/
def txAccept (s : State) : Host.Outcome State Fault Refusal :=
  match frameByte s.pbuf s.plen s.pos.toNat with
  | none => .fault .frameIndex
  | some b =>
    let s1 : State := { s with txlog := s.txlog ++ [b], txcnt := s.txcnt + 1, pos := s.pos + 1 }
    if s1.pos.toNat = s1.plen.toNat + 8 then
      match payload s1.pbuf s1.plen.toNat with
      | some p => .next (complete .none { s1 with cksum := cks p })
      | none => .fault .pbufIndex
    else .next s1

/-- ENCODE: in ENC its move is the TxAccept; a refused length completes at Finish (R150). No branch of Finish gives an
ENCODE without a pending error an effect (R124; log 14). -/
def execEncode (s : State) : Host.Outcome State Fault Refusal :=
  match s.phase with
  | .enc => txAccept s
  | .idle => runCommand 0x02 encodeAccept (fun t => .next t) s
  | .compute => runCommand 0x02 encodeAccept (fun t => .next t) s
  | .decHdr => runCommand 0x02 encodeAccept (fun t => .next t) s
  | .decBody => runCommand 0x02 encodeAccept (fun t => .next t) s

end Sys2Proof.Machine
end

