-- ==== Sys2Proof/Machine/Dispatch.lean ====
section
/-! DEFINITION. One move of a command: one arm per constructor of Instr. -/

namespace Sys2Proof.Machine

-- The move is the one PHASE and RXQ fix: acceptance, Finish, TxAccept, RxPull or Tick (log 4).
def exec (i : Instr) (s : State) : Host.Outcome State Fault Refusal :=
  match i with
  | .nop => Sys2Proof.Machine.execNop s
  | .cksum => Sys2Proof.Machine.execCksum s
  | .encode => Sys2Proof.Machine.execEncode s
  | .decode => Sys2Proof.Machine.execDecode s
  | .ccidparse => Sys2Proof.Machine.execCcidparse s
  | .ccidchk => Sys2Proof.Machine.execCcidchk s

end Sys2Proof.Machine
end

