-- ==== Sys2Proof/Machine/Illegal.lean ====
section
/-! DEFINITION. Illegal commands (spec/40_command.md R127): opcodes no row of the table has. They are accepted and complete
with ILLEGAL_COMMAND. -/

namespace Sys2Proof.Machine

/-- Acceptance of an illegal opcode (R120, R127). -/
def acceptIllegal (v : Byte) (s : State) : State :=
  toCompute .illegalCommand (acceptBegin v s)

/-- Finish of an illegal command: the pending error completes it (R124, R127). No branch of Finish gives it an effect
without one (log 14). -/
def finishIllegal (s : State) : Host.Outcome State Fault Refusal :=
  finishWith (fun t => .next t) s

end Sys2Proof.Machine
end

