-- ==== Sys2Proof/Machine/HostPort.lean ====
section
/-! DEFINITION. The host register interface: HostRead (spec/20_memory.md R71) and HostWrite (R70), with acceptance of the
command byte (spec/40_command.md R120, R121). -/

namespace Sys2Proof.Machine

/-- The value of a CCID register: 0x00 when the block has no parser (R71, R183). -/
def ccidReading (s : State) (v : Byte) : Byte :=
  if s.hasCcid then v else 0x00

/-- The byte a `HostRead(a)` returns: the table of R71, line by line. -/
def hostReadByte (s : State) (a : HostAddr) : Byte :=
  let n := a.toNat
  if n = 0x000 then 0x00
  else if n = 0x001 then statusByte s
  else if n = 0x002 then s.err.code
  else if n = 0x003 then cfgByte s
  else if n ≤ 0x007 then byteOf s.timeout (n - 0x004)
  else if n ≤ 0x009 then byteOf s.plen (n - 0x008)
  else if n = 0x00A then s.cksum
  else if n = 0x00B then 0x00
  else if n ≤ 0x00D then byteOf s.txcnt (n - 0x00C)
  else if n ≤ 0x00F then byteOf s.rxcnt (n - 0x00E)
  else if h : 0x010 ≤ n ∧ n ≤ 0x015 then s.cap.hdr[n - 0x010]
  else if n = 0x016 then s.cap.rxDcs
  else if n = 0x017 then s.cap.rxPost
  else if n ≤ 0x019 then byteOf s.cap.flen (n - 0x018)
  else if n ≤ 0x01F then 0x00
  else if n = 0x020 then ccidReading s s.ccid.mtype
  else if n ≤ 0x024 then ccidReading s (byteOf s.ccid.clen (n - 0x021))
  else if n = 0x025 then ccidReading s s.ccid.slot
  else if n = 0x026 then ccidReading s s.ccid.seq
  else if n = 0x027 then ccidReading s s.ccid.msg7
  else if n = 0x028 then ccidReading s s.ccid.msg8
  else if n = 0x029 then ccidReading s s.ccid.msg9
  else if n = 0x02A then ccidReading s s.ccid.cstat
  else (s.pbuf.read n).getD 0x00

/-- The addresses a host write can store to: CFG, TIMEOUT, PLEN and PBUF (R16, R70). -/
def storable (a : HostAddr) : Bool :=
  let n := a.toNat
  (decide (0x003 ≤ n) && decide (n ≤ 0x009)) || (decide (0x100 ≤ n) && decide (n ≤ 0x219))

/-- The store of a host write to a storable address while the engine is idle (R67, R70). CFG keeps bit 0 alone (R20). -/
def hostStore (a : HostAddr) (v : Byte) (s : State) : State :=
  let n := a.toNat
  if n = 0x003 then { s with dcsEn := v.getLsbD 0 }
  else if n ≤ 0x007 then { s with timeout := putByte s.timeout (n - 0x004) v }
  else if n ≤ 0x009 then { s with plen := putByte s.plen (n - 0x008) v }
  else { s with pbuf := s.pbuf.write n v }

/-- `accept(v)` (R120): a command of the table makes its first move; any other byte is an illegal command (R127). -/
def accept (v : Byte) (s : State) : Host.Outcome State Fault Refusal :=
  match decodeByte v with
  | .ok i => exec i s
  | .error _ => .next (acceptIllegal v s)

/-- `HostWrite(a, v)` (R70). -/
def hostWrite (a : HostAddr) (v : Byte) (s : State) : Host.Outcome State Fault Refusal :=
  if a.toNat = 0x000 then
    if s.busy then .next (ignoreWrite s) else accept v s
  else if storable a then
    if s.busy then .next (ignoreWrite s) else .next (hostStore a v s)
  else .next s

/-- `HostRead(a)`: the host gets the byte; nothing of the block changes (R71; log 12). -/
def hostRead (a : HostAddr) (s : State) : State :=
  { s with hostReads := s.hostReads ++ [(a, hostReadByte s a)] }

end Sys2Proof.Machine
end

