-- ==== Sys2Proof/Machine/Events.lean ====
section
/-! DEFINITION. The events of the model: when each is enabled and what it does (spec/10_state.md R24). -/

namespace Sys2Proof.Machine

/-- The enabling conditions of R24. -/
def enabled (e : Event) (s : State) : Bool :=
  match e with
  | .hostWrite _ _ => true
  | .hostRead _ => true
  | .rxArrive _ => true
  | .rxPull => s.inRx && !s.rxq.isEmpty
  | .txAccept => decide (s.phase = .enc)
  | .tick => !s.inRx || s.rxq.isEmpty
  | .finish => decide (s.phase = .compute)
  | .reset => true

/-- `Finish`: the command that OP names moves (R124). -/
def finish (s : State) : Host.Outcome State Fault Refusal :=
  match decodeByte s.op with
  | .ok i => exec i s
  | .error _ => finishIllegal s

/-- The effect of an enabled event (R24). -/
def effect (e : Event) (s : State) : Host.Outcome State Fault Refusal :=
  match e with
  | .hostWrite a v => hostWrite a v s
  | .hostRead a => .next (hostRead a s)
  | .rxArrive b => .next { s with rxq := s.rxq ++ [b] }
  | .rxPull => exec .decode s
  | .txAccept => exec .encode s
  | .tick => if s.inRx then exec .decode s else .next s
  | .finish => finish s
  | .reset => .next (resetBlock s)

/-- One event at a state: an event that is not enabled is no event of the machine there (R24; log 2). -/
def applyEvent (e : Event) (s : State) : Host.Outcome State Fault Refusal :=
  if enabled e s then effect e s else .refused (.notEnabled e)

/-- Events in order, stopping at the first that does not give a next state. -/
def applyEvents : List Event → State → Host.Outcome State Fault Refusal
  | [], s => .next s
  | e :: es, s =>
    match applyEvent e s with
    | .next t => applyEvents es t
    | .fault r => .fault r
    | .refused r => .refused r

/-- The engine's own event that is enabled, if any: RxPull in an RX phase, Finish in COMPUTE. TxAccept is the transport's
(R24, R226). -/
def engineEvent (s : State) : Option Event :=
  if enabled .rxPull s then some .rxPull
  else if enabled .finish s then some .finish
  else none

/-- A state whose schedule begins with the write of a command byte to CMD while the engine is idle, as that write needs
(R17, R120): the next step accepts the command. -/
def withCommand (s : State) (v : Byte) : State :=
  { s with phase := .idle, sched := .hostWrite 0x000 v :: s.sched }

end Sys2Proof.Machine
end

