-- ==== Sys2Proof/Machine/Step.lean ====
section
/-! DEFINITION. The step: the next event of the schedule (spec/00_scope.md R13, spec/10_state.md R24), or the engine's own
when nothing more is scheduled (spec/70_reset_and_hazards.md R226). -/

namespace Sys2Proof.Machine

/-- One step: the event at the head of the schedule. With none left, the engine makes the progress that is its own: it takes
the Finish or the RxPull that is enabled (R226), so that a command in COMPUTE finishes however late (weak fairness, R124,
D16, U8; log 15); where no engine event is enabled the block holds its state (R203; log 3). -/
def step (s : State) : Host.Outcome State Fault Refusal :=
  match s.sched with
  | [] =>
    match engineEvent s with
    | some e => applyEvent e s
    | none => .next s
  | e :: rest => applyEvent e { s with sched := rest }

/-- `n` steps in order, stopping at the first that does not give a next state. -/
def steps : Nat → State → Host.Outcome State Fault Refusal
  | 0, s => .next s
  | n + 1, s =>
    match step s with
    | .next t => steps n t
    | .fault r => .fault r
    | .refused r => .refused r

/-- The state in which the next step accepts the command of an opcode-table word (log 13). -/
def State.withFetchWord (s : State) (nbits w : Nat) : State :=
  withCommand s (tableByte nbits w)

end Sys2Proof.Machine
end

