-- ==== Sys2Proof/Machine/Ports.lean ====
section
/-! DEFINITION. The block's ports as views of the state, and the order of the events of one clock cycle
(spec/20_memory.md R65; spec/92_eei_decisions.md D32). No rule depends on clock cycles (R13); nothing of step uses this file. -/

namespace Sys2Proof.Machine

/-- `rx_ready`: 1 exactly in an RX phase (R65). -/
def rxReady (s : State) : Bool := s.inRx

/-- What `rx_valid` can be: the transport has a head of RXQ to offer (R65). DESIGN CHOICE (log 19): R65 leaves open whether the
transport asserts `rx_valid` in every cycle in which RXQ holds a byte; the view says that it can, and the cycle's own
`rx_valid` is the input `Cycle.rxOffer`, which may withhold it. So `rxValid` and `rxReady` both 1 is no pull by itself. -/
def rxValid (s : State) : Bool := !s.rxq.isEmpty

/-- `rx_data`: the head of RXQ (R65). -/
def rxData (s : State) : Option Byte := s.rxq.head?

/-- `tx_valid`: 1 exactly when `PHASE = ENC` (R65). -/
def txValid (s : State) : Bool := decide (s.phase = .enc)

/-- `tx_data`: frame byte `POS` (R65, R156). -/
def txData (s : State) : Option Byte := frameByte s.pbuf s.plen s.pos.toNat

/-- `h_rdata`: the byte the last host read returned, valid in the cycle after `h_re` (R65, R71). DESIGN CHOICE (log 19): R65
leaves the port's value open in every other cycle; the view keeps the last byte read there, across a Reset too, and has no
value before the first read. -/
def hRdata (s : State) : Option Byte := s.hostReads.getLast?.map Prod.snd

/-- What one clock cycle brings: `rst`; `rxOffer`, the `rx_valid` the transport asserts in this cycle, which the model lets it
withhold while RXQ holds a byte (DESIGN CHOICE, log 19); `tx_ready`; `finish`, whether the engine finishes its computation in
this cycle, which is no port (R24, R65; log 19); `tick_1ms`; and the host's access, a write or a read and never both (R65). -/
structure Cycle where
  rst : Bool
  rxOffer : Bool
  txReady : Bool
  finish : Bool
  tick : Bool
  host : Option HostAccess
  deriving DecidableEq, Repr

/-- The events of one cycle in their order: Reset alone, or RxPull or TxAccept, then Finish, then Tick, then the host
access (R65, D32). A Tick waits while RXQ holds a byte in an RX phase (R24): a schedule that names it there is refused, and
`F_CLK >= 290 kHz` is what rules it out (R65; log 17). -/
def Cycle.events (c : Cycle) (s : State) : List Event :=
  if c.rst then [.reset]
  else
    (if c.rxOffer && enabled .rxPull s then [.rxPull] else []) ++
    (if c.txReady && enabled .txAccept s then [.txAccept] else []) ++
    (if c.finish && enabled .finish s then [.finish] else []) ++
    (if c.tick then [.tick] else []) ++
    (match c.host with
     | some a => [a.event]
     | none => [])

end Sys2Proof.Machine
end

