-- ==== Sys2Proof/Machine/Program.lean ====
section
/-! DEFINITION. The notation of test programs (spec/30_encoding.md R108, R110) and its eager schedule. It is not part of the
hardware (D25); nothing of step uses this file. -/

namespace Sys2Proof.Machine

/-- A state that an outcome goes on with. -/
def nextState? : Host.Outcome State Fault Refusal → Option State
  | .next s => some s
  | .fault _ => none
  | .refused _ => none

/-- The engine takes its enabled events, `fuel` of them at most. -/
def drainFor : Nat → State → Option State
  | 0, s => some s
  | fuel + 1, s =>
    match engineEvent s with
    | none => some s
    | some e =>
      match applyEvent e s with
      | .next t => drainFor fuel t
      | .fault _ => none
      | .refused _ => none

/-- The engine takes every enabled event, until none is enabled: each RxPull removes a byte of RXQ and a Finish ends the
command, so one more than the bytes of RXQ is enough (R108). -/
def drain (s : State) : Option State :=
  drainFor (s.rxq.length + 1) s

/-- `n` times the same event, each when it is enabled (R108: "each when enabled"), the engine draining after each. -/
def repeatEvent (e : Event) : Nat → State → Option State
  | 0, s => some s
  | n + 1, s =>
    if enabled e s then
      match (nextState? (applyEvent e s)).bind drain with
      | some t => repeatEvent e n t
      | none => none
    else some s

/-- A core statement under the eager schedule (R108). `wait` polls STATUS (R110): no engine event is enabled at it, so one
reading decides, and a command that is still running then never ends by itself (log 18). -/
def CoreStmt.run (c : CoreStmt) (s : State) : Option State :=
  match c with
  | .wr a v => (nextState? (applyEvent (.hostWrite a v) s)).bind drain
  | .rd a _ => (nextState? (applyEvent (.hostRead a) s)).bind drain
  | .rx bytes => (nextState? (applyEvents (bytes.map .rxArrive) s)).bind drain
  | .txacc n => repeatEvent .txAccept n s
  | .txaccAll => repeatEvent .txAccept Config.maxFrame s
  | .tick n => repeatEvent .tick n s
  | .wait => if s.status.done then nextState? (applyEvent (.hostRead 0x001) s) else none
  | .reset => nextState? (applyEvent .reset s)

/-- The writes of consecutive bytes from host address `a` on (R110). -/
def writesFrom (a : Nat) : List Byte → List CoreStmt
  | [] => []
  | b :: bs => .wr (BitVec.ofNat 10 a) b :: writesFrom (a + 1) bs

/-- The expansion of a statement into core statements (R110). -/
def expand : Stmt → List CoreStmt
  | .core c => [c]
  | .cmd op => [.wr 0x000 op]
  | .wr16 a v => writesFrom a.toNat [byteOf v 0, byteOf v 1]
  | .wr32 a v => writesFrom a.toNat [byteOf v 0, byteOf v 1, byteOf v 2, byteOf v 3]
  | .rd16 a => [.rd a none, .rd (a + 1) none]
  | .wrbuf k bytes => writesFrom (Config.pbufBase + k) bytes

/-- Core statements in order. -/
def runCore : List CoreStmt → State → Option State
  | [], s => some s
  | c :: cs, s =>
    match CoreStmt.run c s with
    | some t => runCore cs t
    | none => none

/-- A test program: statements in order (R108). -/
def runProgram (p : List Stmt) (s : State) : Option State :=
  runCore (p.flatMap expand) s

end Sys2Proof.Machine
end

