-- ==== Sys2Proof/Safety.lean ====
section
/-! DEFINITION. What counts as a safe run: the invariant of the reachable states, fair runs, in the terms the rules use
(spec/10_state.md R18, R19, R22, R27, R29, R30; spec/40_command.md R120-R123), and outcomes that are no fault. -/

namespace Sys2Proof.Machine

/-- What COMPUTE waits with (R120, R122, R127): a legal command with no pending error and, where it reads PLEN, a length in
range; a length out of range; or an illegal opcode. -/
def State.computeOk (s : State) : Prop :=
  let parser := s.hasCcid = true ∧ (s.op = 0x04 ∨ s.op = 0x05)
  (s.perr = .none ∧ (s.op = 0x00 ∨ ((s.op = 0x01 ∨ parser) ∧ s.plen.toNat ≤ 282))) ∨
  (s.perr = .plenRange ∧ 282 < s.plen.toNat ∧ (s.op = 0x01 ∨ s.op = 0x02 ∨ parser)) ∨
  (s.perr = .illegalCommand ∧ (6 ≤ s.op.toNat ∨ (s.hasCcid = false ∧ (s.op = 0x04 ∨ s.op = 0x05))))

/-- What holds in each phase (R22): the command that runs, the bounds of POS, the counters and the timer. -/
def State.phaseOk (s : State) : Prop :=
  match s.phase with
  | .idle => s.pos = 0 ∧ s.perr = .none
  | .compute => s.pos = 0 ∧ s.computeOk
  | .enc =>
    s.op = 0x02 ∧ s.perr = .none ∧ s.plen.toNat ≤ 282 ∧ s.pos.toNat ≤ s.plen.toNat + 7 ∧ s.txcnt = s.pos
  | .decHdr =>
    s.op = 0x03 ∧ s.perr = .none ∧ s.plen = 0 ∧ s.pos.toNat ≤ 5 ∧ s.rxcnt = s.pos ∧
      s.elapsed.toNat < s.timeout.toNat ∧ s.status.hdrOk = false ∧ s.cap.flen = 0
  | .decBody =>
    s.op = 0x03 ∧ s.perr = .none ∧ s.plen = 0 ∧ s.cap.flen.toNat ≤ 282 ∧ s.pos.toNat ≤ s.cap.flen.toNat + 1 ∧
      s.rxcnt.toNat = 6 + s.pos.toNat ∧ s.elapsed.toNat < s.timeout.toNat ∧ s.status.hdrOk = true ∧
      s.status.dcsOk = false ∧ s.status.postOk = false

/-- The invariant of the reachable states. -/
structure State.Inv (s : State) : Prop where
  /-- PBUF keeps its canonical form (R31). -/
  memory : s.pbuf.wf = true
  /-- ERRF says that ERR is not NONE (R18). -/
  errFlag : s.status.errf = decide (s.err ≠ .none)
  /-- While a command runs, ERR is NONE and DONE is 0 (R18, R19). -/
  running : s.phase ≠ .idle → s.err = .none ∧ s.status.done = false
  /-- Neither counter exceeds 290 (R27). -/
  txBound : s.txcnt.toNat ≤ 290
  rxBound : s.rxcnt.toNat ≤ 290
  /-- DCS_OK and POST_OK belong to a DECODE whose header passed (R18). -/
  checks : s.status.dcsOk = true ∨ s.status.postOk = true → s.status.hdrOk = true
  /-- CSTAT bit 7 reads 0 (R33). -/
  cstatTop : s.ccid.cstat.getLsbD 7 = false
  /-- Without a parser the CCID registers keep their reset value (R183). -/
  noParser : s.hasCcid = false → s.ccid = State.reset.ccid
  phase : s.phaseOk

/-- The reserved host addresses (R66), those of the absent parser among them (R183). -/
def reservedAddress (hasCcid : Bool) (a : HostAddr) : Prop :=
  let n := a.toNat
  n = 0x00B ∨ (0x01A ≤ n ∧ n ≤ 0x01F) ∨ (0x02B ≤ n ∧ n ≤ 0x0FF) ∨ (0x21A ≤ n ∧ n ≤ 0x3FF) ∨
    (hasCcid = false ∧ 0x020 ≤ n ∧ n ≤ 0x02A)

/-- The events that neither write nor reset anything: what may come while a DECODE runs and after it has ended (R219). -/
def passiveEvent (e : Event) : Prop :=
  e = .rxPull ∨ e = .tick ∨ (∃ b, e = .rxArrive b) ∨ (∃ a, e = .hostRead a)

/-- The events may come in this order around a DECODE: no Reset, and, once the engine is idle, only passive ones. While a
command runs every host access is admitted: its writes are ignored (R121). -/
def undisturbed : List Event → State → Prop
  | [], _ => True
  | e :: es, s =>
    e ≠ .reset ∧ (s.phase = .idle → passiveEvent e) ∧ ∀ t, applyEvent e s = .next t → undisturbed es t

/-- An unending run of the event model: `events n` leads from `states n` to `states (n + 1)` (R24, R74). -/
def EventRun (states : Nat → State) (events : Nat → Event) : Prop :=
  ∀ n, applyEvent (events n) (states n) = .next (states (n + 1))

/-- Weak fairness for Finish: where it stays enabled from some moment on, it happens (R124, R226, D16, U8; log 15). -/
def WeaklyFair (states : Nat → State) (events : Nat → Event) : Prop :=
  ∀ n, (∀ m, n ≤ m → enabled .finish (states m) = true) → ∃ m, n ≤ m ∧ events m = .finish

/-- An unending run of step, whatever schedule it began with. -/
def StepRun (states : Nat → State) : Prop :=
  ∀ n, step (states n) = .next (states (n + 1))

/-- The byte an event brings to RXQ, if it is an arrival (R28). -/
def arrivedByte : Event → Option Byte
  | .rxArrive b => some b
  | .hostWrite _ _ => none
  | .hostRead _ => none
  | .rxPull => none
  | .txAccept => none
  | .tick => none
  | .finish => none
  | .reset => none

/-- The bytes that arrive during a sequence of events, oldest first. -/
def arrived (es : List Event) : List Byte :=
  es.filterMap arrivedByte

/-- The outcome is no fault. -/
def NoFault (o : Host.Outcome State Fault Refusal) : Prop :=
  ∀ r, o ≠ .fault r

end Sys2Proof.Machine
end

