-- ==== Sys2Proof/Certificates/Slice0/Obligations.lean ====
section
/-! DEFINITION. The statements for the provers. Each docstring names the rules of spec/ that the statement formalises. -/

open Sys2Proof Sys2Proof.Machine

/-! ### Encoding -/

/-- R104, R105: the command bytes, written out from the opcode map, decode to the commands they stand for. -/
def Obligations.CommandBytesDecode : Prop :=
  decode [0x00] = .ok (.nop, []) ∧ decode [0x01] = .ok (.cksum, []) ∧ decode [0x02] = .ok (.encode, []) ∧
  decode [0x03] = .ok (.decode, []) ∧ decode [0x04] = .ok (.ccidparse, []) ∧ decode [0x05] = .ok (.ccidchk, []) ∧
  decode [0x06] = .error (.illegalOpcode 0x06) ∧ decode [0xFF] = .error (.illegalOpcode 0xFF)

/-- R90, R104, R105: decoding undoes encoding whatever follows, each command has one byte, and 0x06..0xFF have none. That 0x04
and 0x05 decode to the parser's commands, and that exactly 0x06..0xFF are rejected, whatever HAS_CCID is, is the model's
reading (DEDUCED, log 9): by R106 and R118 the spec's decoding depends on HAS_CCID; here acceptance applies R118. -/
def Obligations.OpcodeMapIsOneToOne : Prop :=
  (∀ (i : Instr) (rest : List Byte), decode (encode i ++ rest) = .ok (i, rest)) ∧
  (∀ (v : Byte) (i : Instr), decodeByte v = .ok i ↔ v = opcode i) ∧
  (∀ v : Byte, 6 ≤ v.toNat ↔ decodeByte v = .error (.illegalOpcode v))

/-- R109: the 19-bit transaction word, its fields and its examples; decoding undoes encoding and rejects exactly the
ill-formed words. -/
def Obligations.TransactionWordsRoundTrip : Prop :=
  (∀ (a : HostAddr) (v : Byte), (accessWord (.write a v)).toNat = 2 ^ 18 + a.toNat * 2 ^ 8 + v.toNat) ∧
  (∀ a : HostAddr, (accessWord (.read a)).toNat = a.toNat * 2 ^ 8) ∧
  (∀ x : HostAccess, decodeAccessWord (accessWord x) = .ok x) ∧
  (∀ w : BitVec 19, wordWellFormed w = true ↔ ∃ x, decodeAccessWord w = .ok x ∧ accessWord x = w) ∧
  accessWord (.write 0x000 0x03) = 0x40003 ∧ accessWord (.read 0x001) = 0x00100

/-! ### The step -/

/-- R13, R24, R203, R226: a step is the next event of the schedule at the state without it (log 1); with none left it is the
engine's own event, Finish in COMPUTE and RxPull in an RX phase with a byte in RXQ, and otherwise the state holds (log 3). -/
def Obligations.StepTakesTheNextEvent : Prop :=
  ∀ s : State,
    (∀ e rest, s.sched = e :: rest → step s = applyEvent e { s with sched := rest }) ∧
    (s.sched = [] →
      (s.phase = .compute → step s = applyEvent .finish s) ∧
      ((s.phase = .decHdr ∨ s.phase = .decBody) ∧ s.rxq ≠ [] → step s = applyEvent .rxPull s) ∧
      (s.phase = .idle ∨ s.phase = .enc ∨ ((s.phase = .decHdr ∨ s.phase = .decBody) ∧ s.rxq = []) → step s = .next s))

/-- R17, R120, R127: when the next event writes a byte to CMD while the engine is idle, the step is exec of the command
the byte decodes to, at the state without that event; a byte that decodes to none is accepted as an illegal command. -/
def Obligations.CommandWriteRunsTheDecodedInstruction : Prop :=
  ∀ (s : State) (v : Byte) (rest : List Event), s.sched = .hostWrite 0x000 v :: rest → s.phase = .idle →
    (∀ i : Instr, decode [v] = .ok (i, []) → step s = exec i { s with sched := rest }) ∧
    (decode [v] = .error (.illegalOpcode v) → step s = .next (acceptIllegal v { s with sched := rest }))

/-- R24, R124, R157, R166, R167, R171: the later events of a command are exec of the command that runs: Finish of the one
OP names, TxAccept of ENCODE, RxPull and the Tick of an RX phase of DECODE. -/
def Obligations.RunningCommandMovesByExec : Prop :=
  ∀ (s : State) (rest : List Event),
    (∀ i : Instr, s.sched = .finish :: rest → s.phase = .compute → decode [s.op] = .ok (i, []) →
      step s = exec i { s with sched := rest }) ∧
    (s.sched = .txAccept :: rest → s.phase = .enc → step s = exec .encode { s with sched := rest }) ∧
    (s.sched = .rxPull :: rest → s.phase = .decHdr ∨ s.phase = .decBody → s.rxq ≠ [] →
      step s = exec .decode { s with sched := rest }) ∧
    (s.sched = .tick :: rest → s.phase = .decHdr ∨ s.phase = .decBody → s.rxq = [] →
      step s = exec .decode { s with sched := rest })

/-- The model's fetch (log 13): after withFetchWord of an opcode-table word the very next step runs its instruction. -/
def Obligations.FetchWordRunsTheTableInstruction : Prop :=
  ∀ (s : State) (w : Nat) (i : Instr), decodeTableWord 8 w = some i →
    step (s.withFetchWord 8 w) = exec i { s with phase := .idle }

/-- R24: an event is refused exactly where its enabling condition does not hold, and nothing else is ever refused. -/
def Obligations.EventsAreEnabledExactlyAsListed : Prop :=
  ∀ (s : State) (e : Event) (r : Refusal),
    applyEvent e s = .refused r ↔
      r = .notEnabled e ∧
        ((e = .rxPull ∧ ¬ ((s.phase = .decHdr ∨ s.phase = .decBody) ∧ s.rxq ≠ [])) ∨
         (e = .txAccept ∧ s.phase ≠ .enc) ∨
         (e = .tick ∧ (s.phase = .decHdr ∨ s.phase = .decBody) ∧ s.rxq ≠ []) ∨
         (e = .finish ∧ s.phase ≠ .compute))

/-! ### Acceptance and completion -/

/-- R120: acceptance of every command byte, whole: the cleared flags, then what the command's own line says. -/
def Obligations.CommandAcceptance : Prop :=
  ∀ (s : State) (v : Byte), s.phase = .idle →
    let b : State :=
      { s with op := v, err := .none, status := { s.status with done := false, errf := false, wign := false } }
    let parser : Prop := v = 0x04 ∨ v = 0x05
    let run := applyEvent (.hostWrite 0x000 v) s
    (6 ≤ v.toNat ∨ (s.hasCcid = false ∧ parser) → run = .next { b with perr := .illegalCommand, phase := .compute }) ∧
    (v = 0x00 → run = .next { b with perr := .none, phase := .compute }) ∧
    (v = 0x01 ∨ (s.hasCcid = true ∧ parser) →
      run = .next { b with perr := if 282 < s.plen.toNat then .plenRange else .none, phase := .compute }) ∧
    (v = 0x02 →
      run = .next (if 282 < s.plen.toNat then { b with txcnt := 0, perr := .plenRange, phase := .compute }
                   else { b with txcnt := 0, phase := .enc, pos := 0 })) ∧
    (v = 0x03 →
      let d : State :=
        { b with
          plen := 0, rxcnt := 0, cap := { hdr := #v[0, 0, 0, 0, 0, 0], rxDcs := 0, rxPost := 0, flen := 0 }
          status := { b.status with hdrOk := false, dcsOk := false, postOk := false }
          phase := .decHdr, pos := 0, elapsed := 0 }
      run = .next (if s.timeout = 0 then complete .transportTimeout d else d))

/-- R121: while a command runs, a host write to CMD, CFG, TIMEOUT, PLEN or PBUF only sets WIGN, and one to any other
address does nothing; only Reset stops the command without its completion. -/
def Obligations.BusyWritesAreIgnored : Prop :=
  ∀ (s : State) (a : HostAddr) (v : Byte), s.phase ≠ .idle →
    (a = 0x000 ∨ (0x003 ≤ a.toNat ∧ a.toNat ≤ 0x009) ∨ (0x100 ≤ a.toNat ∧ a.toNat ≤ 0x219) →
      applyEvent (.hostWrite a v) s = .next { s with status := { s.status with wign := true } }) ∧
    (¬ (a = 0x000 ∨ (0x003 ≤ a.toNat ∧ a.toNat ≤ 0x009) ∨ (0x100 ≤ a.toNat ∧ a.toNat ≤ 0x219)) →
      applyEvent (.hostWrite a v) s = .next s) ∧
    (∀ (e : Event) (t : State), applyEvent e s = .next t → t.phase = .idle → t.status.done = false → e = .reset)

/-- Log 4, the model's choice, after R121: exec of a command that is not the one that runs turns it away as its CMD write
would be. -/
def Obligations.OtherCommandIsTurnedAway : Prop :=
  ∀ (s : State) (i : Instr), s.Inv → s.phase ≠ .idle → decodeByte s.op ≠ .ok i →
    exec i s = .next { s with status := { s.status with wign := true } }

/-- R123: completion sets PHASE, POS, PERR, ERR, ERRF and DONE and changes no other register; BUSY is then 0. -/
def Obligations.CompletionReportsTheCode : Prop :=
  ∀ (e : ErrorCode) (s : State),
    complete e s =
      { s with
        phase := .idle, pos := 0, perr := .none, err := e
        status := { s.status with errf := decide (e ≠ .none), done := true } } ∧
    (complete e s).busy = false

/-- R123, R211: a running command ends only by its own Finish, TxAccept, RxPull or Tick, which sets DONE and reports the code
in ERRF, or by Reset, which leaves DONE = 0 and ERR = NONE. -/
def Obligations.CommandsEndOnlyByTheirOwnEvents : Prop :=
  ∀ (s t : State) (e : Event), s.phase ≠ .idle → applyEvent e s = .next t → t.phase = .idle →
    (e = .reset ∧ t.status.done = false ∧ t.err = .none) ∨
    (((e = .finish ∧ s.phase = .compute) ∨ (e = .txAccept ∧ s.phase = .enc) ∨
        ((e = .rxPull ∨ e = .tick) ∧ (s.phase = .decHdr ∨ s.phase = .decBody))) ∧
      t.status.done = true ∧ t.status.errf = decide (t.err ≠ .none) ∧ t.pos = 0 ∧ t.perr = .none)

/-- R123, R191: a DECODE that ends with an error leaves PLEN = 0, whether it ends at its acceptance or later. -/
def Obligations.FailedDecodeLeavesLengthZero : Prop :=
  ∀ (s t : State) (e : Event), s.Inv →
    (s.phase = .idle ∧ e = .hostWrite 0x000 0x03) ∨ s.phase = .decHdr ∨ s.phase = .decBody →
    applyEvent e s = .next t → t.phase = .idle → t.err ≠ .none → t.plen = 0

/-! ### The host port -/

/-- R67, R70: a host write while the engine is idle stores its byte at CFG (bit 0 alone), TIMEOUT, PLEN or PBUF, no other
location reads differently and nothing else changes; a write to a read-only or reserved address does nothing. -/
def Obligations.IdleWritesStoreOneByte : Prop :=
  ∀ (s : State) (a : HostAddr) (v : Byte), s.pbuf.wf = true → s.phase = .idle → a ≠ 0x000 →
    ((0x003 ≤ a.toNat ∧ a.toNat ≤ 0x009) ∨ (0x100 ≤ a.toNat ∧ a.toNat ≤ 0x219) →
      ∃ t, applyEvent (.hostWrite a v) s = .next t ∧
        hostReadByte t a = (if a = 0x003 then v &&& 0x01 else v) ∧
        (∀ b, b ≠ a → hostReadByte t b = hostReadByte s b) ∧
        t = { s with dcsEn := t.dcsEn, timeout := t.timeout, plen := t.plen, pbuf := t.pbuf } ∧
        t.pbuf.wf = true) ∧
    (¬ ((0x003 ≤ a.toNat ∧ a.toNat ≤ 0x009) ∨ (0x100 ≤ a.toNat ∧ a.toNat ≤ 0x219)) →
      applyEvent (.hostWrite a v) s = .next s)

/-- R71, with R64(c): what a host read returns at every address; a read changes nothing of the block. That the byte read is
appended to hostReads, the model's own record, is the model's choice (DESIGN CHOICE, log 12). -/
def Obligations.HostReadsReturnTheRegisters : Prop :=
  ∀ s : State, s.pbuf.wf = true →
    let rd : HostAddr → Byte := hostReadByte s
    let word16 (a : HostAddr) : Nat := (rd a).toNat + (rd (a + 1)).toNat * 2 ^ 8
    let word32 (a : HostAddr) : Nat := word16 a + word16 (a + 2) * 2 ^ 16
    (∀ a, applyEvent (.hostRead a) s = .next { s with hostReads := s.hostReads ++ [(a, rd a)] }) ∧
    rd 0x000 = 0x00 ∧ rd 0x001 = statusByte s ∧ rd 0x002 = s.err.code ∧ (rd 0x003).toNat = s.dcsEn.toNat ∧
    word32 0x004 = s.timeout.toNat ∧ word16 0x008 = s.plen.toNat ∧ rd 0x00A = s.cksum ∧
    word16 0x00C = s.txcnt.toNat ∧ word16 0x00E = s.rxcnt.toNat ∧
    (∀ (k : Nat) (hk : k < 6), rd (BitVec.ofNat 10 (0x010 + k)) = s.cap.hdr[k]) ∧
    rd 0x016 = s.cap.rxDcs ∧ rd 0x017 = s.cap.rxPost ∧ word16 0x018 = s.cap.flen.toNat ∧
    (s.hasCcid = true →
      rd 0x020 = s.ccid.mtype ∧ word32 0x021 = s.ccid.clen.toNat ∧ rd 0x025 = s.ccid.slot ∧ rd 0x026 = s.ccid.seq ∧
      rd 0x027 = s.ccid.msg7 ∧ rd 0x028 = s.ccid.msg8 ∧ rd 0x029 = s.ccid.msg9 ∧ rd 0x02A = s.ccid.cstat) ∧
    (∀ k, k < 282 → pbufRead s.pbuf k = some (rd (BitVec.ofNat 10 (0x100 + k)))) ∧
    (∀ a, reservedAddress s.hasCcid a → rd a = 0x00)

/-- R66: a reserved address reads 0x00, and a write to it has no effect, in every phase; WIGN stays. -/
def Obligations.ReservedAddressesDoNothing : Prop :=
  ∀ (s : State) (a : HostAddr) (v : Byte), s.pbuf.wf = true → reservedAddress s.hasCcid a →
    hostReadByte s a = 0x00 ∧ applyEvent (.hostWrite a v) s = .next s

/-- R18, R22: the bits of STATUS as the host reads them. -/
def Obligations.StatusBitsAreTheFlags : Prop :=
  ∀ s : State,
    let b := hostReadByte s 0x001
    b.getLsbD 0 = decide (s.phase ≠ .idle) ∧ b.getLsbD 1 = s.status.done ∧ b.getLsbD 2 = s.status.errf ∧
    b.getLsbD 3 = s.status.dcsOk ∧ b.getLsbD 4 = s.status.postOk ∧ b.getLsbD 5 = s.status.wign ∧
    b.getLsbD 6 = s.status.hdrOk ∧ b.getLsbD 7 = false

/-- R19, R190: the numbers of the error codes; two codes never share one, and the reserved values 0x09..0xFF are never read. -/
def Obligations.ErrorCodesAreNumbered : Prop :=
  [ErrorCode.none, .transportTimeout, .frameHeaderInvalid, .frameChecksumInvalid, .framePayloadTooLong,
    .frameDataChecksumInvalid, .ccidHeaderInvalid, .plenRange, .illegalCommand].map ErrorCode.code =
      [0x00, 0x01, 0x02, 0x03, 0x04, 0x05, 0x06, 0x07, 0x08] ∧
  (∀ e f : ErrorCode, e.code = f.code → e = f) ∧
  (∀ s : State, (hostReadByte s 0x002).toNat < 9)

/-- R65, D32: the ports as views of the state, and the events of one clock cycle in their order, for every cycle: Reset
alone; otherwise the phase's own event, then the Tick, then the host access. That event is RxPull when the cycle's input
rxOffer is set and RXQ holds a byte, TxAccept when txReady is, Finish when finish is. The model's own: ports as views and a
cycle as a list of events (DEDUCED, log 17); that rxValid says only that RXQ holds a byte, while rxOffer, the `rx_valid` of the
cycle, may withhold it, so that a cycle in an RX phase with RXQ not empty need not pull (DESIGN CHOICE, log 19); and the input
finish, which is no port of R65 (log 19). -/
def Obligations.PortsFollowThePhase : Prop :=
  (∀ s : State, (rxReady s = true ↔ s.phase = .decHdr ∨ s.phase = .decBody) ∧ (txValid s = true ↔ s.phase = .enc) ∧
    (rxValid s = true ↔ s.rxq ≠ [])) ∧
  (∀ (s : State) (p : List Byte), payload s.pbuf s.plen.toNat = some p → txData s = (frame p)[s.pos.toNat]?) ∧
  (∀ (s : State) (c : Cycle), c.rst = true → c.events s = [.reset]) ∧
  (∀ (s : State) (c : Cycle), c.rst = false →
    let rest : List Event := (if c.tick = true then [.tick] else []) ++ (c.host.map HostAccess.event).toList
    (s.phase = .idle → c.events s = rest) ∧
    (s.phase = .compute → c.events s = if c.finish = true then .finish :: rest else rest) ∧
    (s.phase = .enc → c.events s = if c.txReady = true then .txAccept :: rest else rest) ∧
    (s.phase = .decHdr ∨ s.phase = .decBody →
      c.events s = if c.rxOffer = true ∧ s.rxq ≠ [] then .rxPull :: rest else rest))

/-- R72: host address `a` is the platform address `CODEC_BASE + a`. That no other platform address reaches the block is the
model's choice (DESIGN CHOICE, log 10). -/
def Obligations.PlatformAddressesAreOffset : Prop :=
  (∀ a : HostAddr, platformAddress a = Config.codecBase + a.toNat ∧ hostAddressOf (platformAddress a) = some a) ∧
  (∀ (p : Nat) (a : HostAddr), hostAddressOf p = some a → p = platformAddress a)

/-- R67, R110: the pseudo-instructions `wr16` and `wr32`, run byte by byte while the engine is idle, set the whole register
PLEN or TIMEOUT and change nothing else. -/
def Obligations.MultiByteWritesSetTheRegister : Prop :=
  ∀ s : State, s.phase = .idle →
    (∀ v : Half, runCore (expand (.wr16 0x008 v)) s = some { s with plen := v }) ∧
    (∀ v : Word, runCore (expand (.wr32 0x004 v)) s = some { s with timeout := v })

/-- R68, R197, R203: while no command runs, no event but a CMD write and Reset changes any register other than the one a host
write names: CFG, TIMEOUT, PLEN and each byte of PBUF change only by a host write to their own address, and ERR, STATUS, the
counters, the capture, CCID and engine registers all stay. RXQ changes by arrivals and the record hostReads by reads only. -/
def Obligations.IdleRegistersStay : Prop :=
  ∀ (s t : State) (e : Event), s.phase = .idle → e ≠ .reset → (∀ v, e ≠ .hostWrite 0x000 v) → applyEvent e s = .next t →
    t = { s with
      dcsEn := t.dcsEn, timeout := t.timeout, plen := t.plen, pbuf := t.pbuf, rxq := t.rxq, hostReads := t.hostReads } ∧
    (t.dcsEn ≠ s.dcsEn → ∃ v, e = .hostWrite 0x003 v) ∧
    (t.timeout ≠ s.timeout → ∃ a v, e = .hostWrite a v ∧ 0x004 ≤ a.toNat ∧ a.toNat ≤ 0x007) ∧
    (t.plen ≠ s.plen → ∃ a v, e = .hostWrite a v ∧ 0x008 ≤ a.toNat ∧ a.toNat ≤ 0x009) ∧
    (t.pbuf ≠ s.pbuf → ∃ a v, e = .hostWrite a v ∧ 0x100 ≤ a.toNat ∧ a.toNat ≤ 0x219) ∧
    (∀ k, pbufRead t.pbuf k ≠ pbufRead s.pbuf k → ∃ a v, e = .hostWrite a v ∧ a.toNat = 0x100 + k) ∧
    ((∀ b, e ≠ .rxArrive b) → t.rxq = s.rxq) ∧ ((∀ a, e ≠ .hostRead a) → t.hostReads = s.hostReads)

/-! ### Reset -/

/-- R210: what a Reset leaves, register by register; RXQ and TXLOG stay; the state after power-on has the same values. The
model's own: that PBUF's free values are indexed by the counter draws, which a Reset counts up (DESIGN CHOICE, log 5), and
that the parameter is a field of State, which stays (DESIGN CHOICE, log 9). -/
def Obligations.ResetSetsEveryRegister : Prop :=
  ∀ s : State, ∃ t, applyEvent .reset s = .next t ∧
    (∀ u, u = t ∨ u = State.reset →
      u.status = { done := false, errf := false, dcsOk := false, postOk := false, wign := false, hdrOk := false } ∧
      hostReadByte u 0x001 = 0x00 ∧ u.err = .none ∧ u.dcsEn = false ∧ u.timeout = 1000 ∧ u.plen = 0 ∧ u.cksum = 0 ∧
      u.txcnt = 0 ∧ u.rxcnt = 0 ∧ u.cap = { hdr := #v[0, 0, 0, 0, 0, 0], rxDcs := 0, rxPost := 0, flen := 0 } ∧
      u.ccid = { mtype := 0, clen := 0, slot := 0, seq := 0, msg7 := 0, msg8 := 0, msg9 := 0, cstat := 0 } ∧
      u.phase = .idle ∧ u.pos = 0 ∧ u.op = 0 ∧ u.perr = .none ∧ u.elapsed = 0) ∧
    (∀ k, k < 282 →
      pbufRead t.pbuf k = some (Config.pbufAtReset s.draws k) ∧
      pbufRead State.reset.pbuf k = some (Config.pbufAtReset 0 k)) ∧
    t.rxq = s.rxq ∧ t.txlog = s.txlog ∧ t.hasCcid = s.hasCcid ∧ t.draws = s.draws + 1

/-! ### NOP, illegal commands, CKSUM -/

/-- R126: NOP is accepted and then completes with NONE; it clears ERR, ERRF and WIGN and changes nothing else; written while
a command runs it only sets WIGN. -/
def Obligations.NopCompletesWithNone : Prop :=
  (∀ s : State, s.phase = .idle →
    exec .nop s =
      .next { s with
        op := 0x00, err := .none, perr := .none, phase := .compute
        status := { s.status with done := false, errf := false, wign := false } }) ∧
  (∀ s : State, s.phase = .compute → s.op = 0x00 → s.perr = .none →
    exec .nop s =
      .next { s with phase := .idle, pos := 0, err := .none, status := { s.status with done := true, errf := false } }) ∧
  (∀ s : State, s.phase = .idle →
    ∃ t, applyEvents [.hostWrite 0x000 0x00, .finish] s = .next t ∧
      t = { s with
        op := 0x00, pos := 0, err := .none, perr := .none
        status := { s.status with done := true, errf := false, wign := false } }) ∧
  (∀ s : State, s.phase ≠ .idle →
    applyEvent (.hostWrite 0x000 0x00) s = .next { s with status := { s.status with wign := true } })

/-- R127: an illegal opcode is accepted and completes with ILLEGAL_COMMAND; nothing but STATUS, ERR, OP and PERR changes;
written while a command runs it only sets WIGN. -/
def Obligations.IllegalOpcodesCompleteWithTheirError : Prop :=
  ∀ (s : State) (v : Byte), 6 ≤ v.toNat ∨ (s.hasCcid = false ∧ (v = 0x04 ∨ v = 0x05)) →
    (s.phase = .idle →
      applyEvent (.hostWrite 0x000 v) s =
        .next { s with
          op := v, err := .none, perr := .illegalCommand, phase := .compute
          status := { s.status with done := false, errf := false, wign := false } }) ∧
    (s.phase = .idle → s.pos = 0 →
      applyEvents [.hostWrite 0x000 v, .finish] s =
        .next { s with
          op := v, err := .illegalCommand, perr := .none
          status := { s.status with done := true, errf := true, wign := false } }) ∧
    (s.phase ≠ .idle →
      applyEvent (.hostWrite 0x000 v) s = .next { s with status := { s.status with wign := true } })

/-- R141: CKSUM's acceptance, its Finish with a pending error, and its Finish: `CKSUM <- cks(PBUF[0..PLEN-1])`. -/
def Obligations.CksumComputesTheChecksum : Prop :=
  (∀ s : State, s.phase = .idle →
    exec .cksum s =
      .next { s with
        op := 0x01, err := .none, phase := .compute, perr := if 282 < s.plen.toNat then .plenRange else .none
        status := { s.status with done := false, errf := false, wign := false } }) ∧
  (∀ s : State, s.phase = .compute → s.op = 0x01 → s.perr = .plenRange →
    exec .cksum s =
      .next { s with
        phase := .idle, pos := 0, perr := .none, err := .plenRange
        status := { s.status with done := true, errf := true } }) ∧
  (∀ s : State, s.phase = .compute → s.op = 0x01 → s.perr = .none → s.pbuf.wf = true → s.plen.toNat ≤ 282 →
    ∃ p : List Byte, p.length = s.plen.toNat ∧ (∀ k (hk : k < p.length), pbufRead s.pbuf k = some p[k]) ∧
      exec .cksum s =
        .next { s with
          cksum := BitVec.ofNat 8 (256 - (p.map BitVec.toNat).sum % 256), phase := .idle, pos := 0, err := .none
          status := { s.status with done := true, errf := false } })

/-- R122: with `PLEN > 282` the commands that read PLEN do no work and complete with PLEN_RANGE; nothing else changes, but
that ENCODE's acceptance clears TXCNT. -/
def Obligations.LengthOutOfRangeIsRefused : Prop :=
  ∀ (s : State) (v : Byte), s.phase = .idle → s.pos = 0 → 282 < s.plen.toNat →
    v = 0x01 ∨ v = 0x02 ∨ (s.hasCcid = true ∧ (v = 0x04 ∨ v = 0x05)) →
    applyEvents [.hostWrite 0x000 v, .finish] s =
      .next { s with
        op := v, err := .plenRange, perr := .none
        txcnt := if v = 0x02 then 0 else s.txcnt
        status := { s.status with done := true, errf := true, wign := false } }

/-! ### ENCODE -/

/-- R150, R157: ENCODE's acceptance, each TxAccept (frame byte POS goes out), the last one (CKSUM and completion), and the
completion of a refused length. -/
def Obligations.EncodeEmitsTheNextFrameByte : Prop :=
  (∀ s : State, enabled .txAccept s = true ↔ s.phase = .enc) ∧
  (∀ s : State, s.phase = .idle →
    exec .encode s =
      .next
        (let b : State :=
          { s with
            op := 0x02, err := .none, txcnt := 0
            status := { s.status with done := false, errf := false, wign := false } }
         if 282 < s.plen.toNat then { b with perr := .plenRange, phase := .compute }
         else { b with phase := .enc, pos := 0 })) ∧
  (∀ s : State, s.phase = .compute → s.op = 0x02 → s.perr = .plenRange →
    exec .encode s =
      .next { s with
        phase := .idle, pos := 0, perr := .none, err := .plenRange
        status := { s.status with done := true, errf := true } }) ∧
  (∀ (s : State) (p : List Byte), s.phase = .enc → s.plen.toNat ≤ 282 → s.pos.toNat ≤ s.plen.toNat + 7 →
    payload s.pbuf s.plen.toNat = some p →
    ∃ b, (frame p)[s.pos.toNat]? = some b ∧
      (s.pos.toNat < s.plen.toNat + 7 →
        exec .encode s = .next { s with txlog := s.txlog ++ [b], txcnt := s.txcnt + 1, pos := s.pos + 1 }) ∧
      (s.pos.toNat = s.plen.toNat + 7 →
        exec .encode s =
          .next { s with
            txlog := s.txlog ++ [b], txcnt := s.txcnt + 1, pos := 0, cksum := cks p, phase := .idle, perr := .none
            err := .none, status := { s.status with done := true, errf := false } }))

/-- R154, R155: an ENCODE that completes has appended exactly the frame of its payload to TXLOG, `PLEN + 8` bytes that
satisfy both frame invariants, with TXCNT, CKSUM and the code set and everything R154 lists unchanged. -/
def Obligations.EncodeSendsTheWholeFrame : Prop :=
  ∀ (s : State) (p : List Byte), s.phase = .idle → s.plen.toNat ≤ 282 → payload s.pbuf s.plen.toNat = some p →
    (frame p).length = s.plen.toNat + 8 ∧
    (((frame p)[3]?.getD 0).toNat + ((frame p)[4]?.getD 0).toNat + ((frame p)[5]?.getD 0).toNat) % 256 = 0 ∧
    ((p.map BitVec.toNat).sum + ((frame p)[6 + p.length]?.getD 0).toNat) % 256 = 0 ∧
    applyEvents (.hostWrite 0x000 0x02 :: List.replicate (s.plen.toNat + 8) .txAccept) s =
      .next { s with
        op := 0x02, err := .none, perr := .none, pos := 0
        txlog := s.txlog ++ frame p, txcnt := s.plen + 8, cksum := cks p
        status := { s.status with done := true, errf := false, wign := false } }

/-- R158: a Reset after `k` bytes of an ENCODE that has not ended leaves exactly those `k` bytes, a prefix of the frame. -/
def Obligations.ResetCutsTheFrameShort : Prop :=
  ∀ (s : State) (p : List Byte) (k : Nat), s.phase = .idle → s.plen.toNat ≤ 282 →
    payload s.pbuf s.plen.toNat = some p → k < s.plen.toNat + 8 →
    ∃ t u, applyEvents (.hostWrite 0x000 0x02 :: List.replicate k .txAccept) s = .next t ∧
      t.phase = .enc ∧ t.txcnt.toNat = k ∧ applyEvent .reset t = .next u ∧
      u.txlog = s.txlog ++ (frame p).take k ∧ u.phase = .idle ∧ u.status.done = false ∧ u.txcnt = 0

/-- R154, R155, R158: whatever else happens (arrivals, Ticks, host reads, ignored writes), an ENCODE that has taken `k`
TxAccepts has appended the first `k` of the frame's `PLEN + 8` bytes and left PBUF, PLEN, RXCNT, the capture and the CCID registers and
CKSUM alone; RXQ only grew; the TxAccept after `PLEN + 7` others completes it with the whole frame sent. -/
def Obligations.EncodeSendsTheFrameUnderEverySchedule : Prop :=
  ∀ (s t : State) (p : List Byte) (es : List Event), s.phase = .idle → s.plen.toNat ≤ 282 →
    payload s.pbuf s.plen.toNat = some p → .reset ∉ es → es.count .txAccept ≤ s.plen.toNat + 7 →
    applyEvents (.hostWrite 0x000 0x02 :: es) s = .next t →
    (frame p).length = s.plen.toNat + 8 ∧
    t.phase = .enc ∧ t.txcnt.toNat = es.count .txAccept ∧ t.txlog = s.txlog ++ (frame p).take (es.count .txAccept) ∧
    t.rxq = s.rxq ++ arrived es ∧ t.pbuf = s.pbuf ∧ t.plen = s.plen ∧ t.rxcnt = s.rxcnt ∧ t.cap = s.cap ∧
    t.ccid = s.ccid ∧ t.cksum = s.cksum ∧
    (es.count .txAccept = s.plen.toNat + 7 →
      applyEvent .txAccept t =
        .next { t with
          txlog := s.txlog ++ frame p, txcnt := s.plen + 8, pos := 0, cksum := cks p, phase := .idle
          perr := .none, err := .none, status := { t.status with done := true, errf := false } })

/-! ### DECODE -/

/-- R163, R164: DECODE's acceptance clears PLEN, RXCNT, the capture registers and its flags and enters the header phase;
with `TIMEOUT = 0` it completes there with TRANSPORT_TIMEOUT and pulls nothing. -/
def Obligations.DecodeAcceptanceClearsAndEnters : Prop :=
  ∀ s : State, s.phase = .idle →
    let d : State :=
      { s with
        op := 0x03, err := .none, plen := 0, rxcnt := 0
        cap := { hdr := #v[0, 0, 0, 0, 0, 0], rxDcs := 0, rxPost := 0, flen := 0 }
        status := { s.status with
          done := false, errf := false, wign := false, hdrOk := false, dcsOk := false, postOk := false }
        phase := .decHdr, pos := 0, elapsed := 0 }
    (s.timeout ≠ 0 → exec .decode s = .next d) ∧
    (s.timeout = 0 →
      exec .decode s =
        .next { d with
          phase := .idle, perr := .none, err := .transportTimeout
          status := { d.status with done := true, errf := true } })

/-- R167: a header byte that is not the sixth goes to HDR(POS) unchecked; POS and RXCNT count it. -/
def Obligations.HeaderBytesAreCaptured : Prop :=
  ∀ (s : State) (b : Byte) (q : List Byte), s.phase = .decHdr → s.pos.toNat < 5 → s.rxq = b :: q →
    ∃ t, exec .decode s = .next t ∧
      t = { s with rxq := q, pos := s.pos + 1, rxcnt := s.rxcnt + 1, cap := t.cap } ∧
      t.cap = { s.cap with hdr := t.cap.hdr } ∧
      (∀ k (hk : k < 6), t.cap.hdr[k] = if k = s.pos.toNat then b else s.cap.hdr[k])

/-- R168, R194: the sixth header byte ends the header phase in the same event: FLEN is written, then preamble, length
checksum and length are checked in this order, and a header that passes enters the body phase (R164). -/
def Obligations.HeaderChecksRunInOrder : Prop :=
  ∀ (s : State) (b : Byte) (q : List Byte), s.phase = .decHdr → s.pos.toNat = 5 → s.rxq = b :: q →
    let h := s.cap.hdr.set 5 b
    let flen : Half := BitVec.ofNat 16 (h[3].toNat * 256 + h[4].toNat)
    let s1 : State :=
      { s with rxq := q, pos := s.pos + 1, rxcnt := s.rxcnt + 1, cap := { s.cap with hdr := h, flen := flen } }
    let preamble := h[0] = 0x00 ∧ h[1] = 0x00 ∧ h[2] = 0xFF
    let lengthSum := (h[3].toNat + h[4].toNat + h[5].toNat) % 256 = 0
    (¬ preamble → exec .decode s = .next (complete .frameHeaderInvalid s1)) ∧
    (preamble → ¬ lengthSum → exec .decode s = .next (complete .frameChecksumInvalid s1)) ∧
    (preamble → lengthSum → 282 < flen.toNat → exec .decode s = .next (complete .framePayloadTooLong s1)) ∧
    (preamble → lengthSum → flen.toNat ≤ 282 →
      let s2 : State :=
        { s1 with phase := .decBody, pos := 0, elapsed := 0, status := { s1.status with hdrOk := true } }
      exec .decode s = .next (if s.timeout = 0 then complete .transportTimeout s2 else s2))

/-- R169, R170: a DECODE whose header fails has taken exactly six bytes, all of them captured; every later byte stays in RXQ;
PLEN is 0 and PBUF is untouched. -/
def Obligations.FailedHeaderTakesSixBytes : Prop :=
  ∀ (s : State) (h : Vector Byte 6) (rest : List Byte) (e : ErrorCode), s.phase = .idle → s.timeout ≠ 0 →
    s.rxq = h.toList ++ rest →
    (e = .frameHeaderInvalid ∧ ¬ (h[0] = 0x00 ∧ h[1] = 0x00 ∧ h[2] = 0xFF)) ∨
    (e = .frameChecksumInvalid ∧ (h[0] = 0x00 ∧ h[1] = 0x00 ∧ h[2] = 0xFF) ∧
      (h[3].toNat + h[4].toNat + h[5].toNat) % 256 ≠ 0) ∨
    (e = .framePayloadTooLong ∧ (h[0] = 0x00 ∧ h[1] = 0x00 ∧ h[2] = 0xFF) ∧
      (h[3].toNat + h[4].toNat + h[5].toNat) % 256 = 0 ∧ 282 < h[3].toNat * 256 + h[4].toNat) →
    ∃ t, applyEvents (.hostWrite 0x000 0x03 :: List.replicate 6 .rxPull) s = .next t ∧
      t.phase = .idle ∧ t.err = e ∧ t.status.done = true ∧ t.status.errf = true ∧ t.status.hdrOk = false ∧
      t.plen = 0 ∧ t.rxcnt = 6 ∧ t.rxq = rest ∧ t.cap.hdr = h ∧
      t.cap.flen.toNat = h[3].toNat * 256 + h[4].toNat ∧ t.pbuf = s.pbuf ∧ t.cksum = s.cksum

/-- R171, R172: a body byte that is not the last goes unchanged to PBUF[POS], or to RX_DCS after the payload; no other byte
of PBUF changes. -/
def Obligations.BodyBytesAreStored : Prop :=
  ∀ (s : State) (b : Byte) (q : List Byte), s.phase = .decBody → s.pbuf.wf = true → s.cap.flen.toNat ≤ 282 →
    s.pos.toNat ≤ s.cap.flen.toNat → s.rxq = b :: q →
    ∃ t, exec .decode s = .next t ∧
      t = { s with rxq := q, pos := s.pos + 1, rxcnt := s.rxcnt + 1, pbuf := t.pbuf, cap := t.cap } ∧
      (s.pos.toNat < s.cap.flen.toNat →
        t.cap = s.cap ∧ ∀ k, pbufRead t.pbuf k = if k = s.pos.toNat then some b else pbufRead s.pbuf k) ∧
      (s.pos.toNat = s.cap.flen.toNat → t.cap = { s.cap with rxDcs := b } ∧ t.pbuf = s.pbuf)

/-- R173, R174, R175: the last body byte, the postamble, completes the DECODE: CKSUM, DCS_OK and POST_OK report; a bad DCS is
an error only under DCS_EN, and then PLEN stays; otherwise PLEN is the payload's length. -/
def Obligations.BodyCompletionReportsTheChecks : Prop :=
  ∀ (s : State) (b : Byte) (q : List Byte), s.phase = .decBody → s.pbuf.wf = true → s.cap.flen.toNat ≤ 282 →
    s.pos.toNat = s.cap.flen.toNat + 1 → s.rxq = b :: q →
    ∃ p : List Byte, payload s.pbuf s.cap.flen.toNat = some p ∧
      let good : Bool := decide (((p.map BitVec.toNat).sum + s.cap.rxDcs.toNat) % 256 = 0)
      let s1 : State :=
        { s with
          rxq := q, pos := s.pos + 1, rxcnt := s.rxcnt + 1, cap := { s.cap with rxPost := b }, cksum := cks p
          status := { s.status with dcsOk := good, postOk := decide (b = 0x00) } }
      (s.dcsEn = true ∧ good = false → exec .decode s = .next (complete .frameDataChecksumInvalid s1)) ∧
      (¬ (s.dcsEn = true ∧ good = false) → exec .decode s = .next (complete .none { s1 with plen := s.cap.flen })) ∧
      (good = true ↔ s.cap.rxDcs = cks p)

/-- R166: a Tick in an RX phase, enabled only when RXQ is empty, counts and times out when ELAPSED reaches TIMEOUT; outside
an RX phase it changes nothing. -/
def Obligations.TicksCountInRxPhasesOnly : Prop :=
  (∀ s : State, s.phase = .decHdr ∨ s.phase = .decBody → (enabled .tick s = true ↔ s.rxq = [])) ∧
  (∀ s : State, s.phase = .decHdr ∨ s.phase = .decBody → s.rxq = [] →
    let s1 : State := { s with elapsed := s.elapsed + 1 }
    exec .decode s =
      .next (if s.timeout.toNat ≤ s1.elapsed.toNat then complete .transportTimeout s1 else s1)) ∧
  (∀ s : State, s.phase ≠ .decHdr → s.phase ≠ .decBody → applyEvent .tick s = .next s)

/-- R176: what a timeout of the body phase leaves. -/
def Obligations.BodyTimeoutKeepsWhatArrived : Prop :=
  ∀ s : State, s.Inv → s.phase = .decBody → s.rxq = [] → s.timeout.toNat ≤ s.elapsed.toNat + 1 →
    ∃ t, applyEvent .tick s = .next t ∧ t.phase = .idle ∧ t.err = .transportTimeout ∧ t.plen = 0 ∧
      t.status.hdrOk = true ∧ t.status.dcsOk = false ∧ t.status.postOk = false ∧ t.pbuf = s.pbuf ∧ t.cap = s.cap ∧
      t.rxcnt.toNat = 6 + s.pos.toNat

/-- R178, R92: a DECODE of a frame's bytes succeeds, for either value of DCS_EN, with exactly the payload in PBUF, and leaves
every byte after the frame in RXQ. -/
def Obligations.DecodeReadsAFrame : Prop :=
  ∀ (s : State) (p rest : List Byte), s.phase = .idle → s.pbuf.wf = true → p.length ≤ 282 →
    s.timeout ≠ 0 → s.rxq = frame p ++ rest →
    ∃ t, applyEvents (.hostWrite 0x000 0x03 :: List.replicate (p.length + 8) .rxPull) s = .next t ∧
      t.phase = .idle ∧ t.err = .none ∧ t.status.done = true ∧ t.status.errf = false ∧ t.status.hdrOk = true ∧
      t.status.dcsOk = true ∧ t.status.postOk = true ∧ t.plen.toNat = p.length ∧
      payload t.pbuf p.length = some p ∧ (∀ k, p.length ≤ k → pbufRead t.pbuf k = pbufRead s.pbuf k) ∧
      t.rxcnt.toNat = p.length + 8 ∧ t.rxq = rest ∧ t.cksum = cks p ∧ t.cap.rxDcs = cks p ∧ t.cap.rxPost = 0x00 ∧
      t.cap.hdr.toList = (frame p).take 6 ∧ t.txlog = s.txlog ∧ t.ccid = s.ccid

/-- R159: the round trip. The bytes an ENCODE of `p` sent, fed to an empty RXQ, decode to `p`. -/
def Obligations.DecodeOfEncodeIsThePayload : Prop :=
  ∀ (s : State) (p : List Byte), s.phase = .idle → s.pbuf.wf = true → s.plen.toNat ≤ 282 →
    payload s.pbuf s.plen.toNat = some p → s.rxq = [] → s.timeout ≠ 0 →
    ∃ t u, applyEvents (.hostWrite 0x000 0x02 :: List.replicate (p.length + 8) .txAccept) s = .next t ∧ t.err = .none ∧
      applyEvents ((t.txlog.drop s.txlog.length).map .rxArrive ++
        .hostWrite 0x000 0x03 :: List.replicate (p.length + 8) .rxPull) t = .next u ∧
      u.phase = .idle ∧ u.err = .none ∧ u.plen.toNat = p.length ∧ payload u.pbuf p.length = some p ∧
      u.status.hdrOk = true ∧ u.status.dcsOk = true ∧ u.status.postOk = true ∧
      u.rxcnt.toNat = p.length + 8 ∧ u.rxq = []

/-- R62, R167, R171, R176: at every moment of a DECODE and after it has ended, in whatever way, the bytes it has pulled are
the first RXCNT bytes of the stream, in order, and each is where the rules put it: byte k of the header in HDRk, payload
byte k in PBUF[k], then RX_DCS and RX_POST; every other byte of the stream is still in RXQ. While it runs every event but
Reset may come between, ignored host writes among them. -/
def Obligations.PulledBytesAreAllKept : Prop :=
  ∀ (s u t : State) (es : List Event), s.Inv → s.phase = .idle → applyEvent (.hostWrite 0x000 0x03) s = .next u →
    undisturbed es u → applyEvents es u = .next t →
    ∃ pulled : List Byte, pulled ++ t.rxq = s.rxq ++ arrived es ∧ pulled.length = t.rxcnt.toNat ∧
      (∀ (k : Nat) (hk : k < 6), k < t.rxcnt.toNat → pulled[k]? = some t.cap.hdr[k]) ∧
      (∀ k, 6 + k < t.rxcnt.toNat →
        pulled[6 + k]? =
          if k < t.cap.flen.toNat then pbufRead t.pbuf k
          else if k = t.cap.flen.toNat then some t.cap.rxDcs else some t.cap.rxPost)

/-- R219: a DECODE that still runs has seen fewer than `2 * TIMEOUT` Ticks and at most 289 pulls, whatever arrived, was read
and was written (and ignored) meanwhile: it ends after at most `2 * TIMEOUT` Ticks and at most 290 pulls. -/
def Obligations.DecodeDurationIsBounded : Prop :=
  ∀ (s t : State) (es : List Event), s.Inv → s.phase = .decHdr → s.pos = 0 → s.elapsed = 0 →
    undisturbed es s → applyEvents es s = .next t → t.phase = .decHdr ∨ t.phase = .decBody →
    es.count .tick < 2 * s.timeout.toNat ∧ es.count .rxPull < 290

/-! ### The CCID parser -/

/-- R33, R182: the CSTAT flags of a parse with `PLEN >= 10`. -/
def Obligations.CstatFlagsClassifyTheHeader : Prop :=
  ∀ (c : CcidRegs) (plen : Half), 10 ≤ plen.toNat →
    let f := ccidFlags c plen
    f.getLsbD 0 = true ∧ f.getLsbD 1 = decide (c.slot = 0x00) ∧ f.getLsbD 2 = decide (c.clen.toNat = plen.toNat - 10) ∧
    f.getLsbD 3 = decide (c.mtype = 0x83 ∧ c.msg7 = 0x02) ∧ f.getLsbD 4 = decide (c.mtype = 0x6B) ∧
    f.getLsbD 5 = decide (c.mtype = 0x72) ∧ f.getLsbD 6 = decide (c.mtype = 0x83) ∧ f.getLsbD 7 = false

/-- R180, R181, R184: CCIDPARSE's acceptance, its Finish with a pending error, on a payload shorter than ten bytes (registers
cleared), and on a header. -/
def Obligations.CcidparseExtractsTheHeader : Prop :=
  (∀ s : State, s.phase = .idle → s.hasCcid = true →
    exec .ccidparse s =
      .next { s with
        op := 0x04, err := .none, phase := .compute, perr := if 282 < s.plen.toNat then .plenRange else .none
        status := { s.status with done := false, errf := false, wign := false } }) ∧
  (∀ s : State, s.phase = .compute → s.op = 0x04 → s.perr ≠ .none → exec .ccidparse s = .next (complete s.perr s)) ∧
  (∀ s : State, s.phase = .compute → s.op = 0x04 → s.perr = .none → s.plen.toNat < 10 →
    exec .ccidparse s =
      .next (complete .ccidHeaderInvalid
        { s with ccid := { mtype := 0, clen := 0, slot := 0, seq := 0, msg7 := 0, msg8 := 0, msg9 := 0, cstat := 0 } })) ∧
  (∀ s : State, s.phase = .compute → s.op = 0x04 → s.perr = .none → s.pbuf.wf = true → 10 ≤ s.plen.toNat →
    ∃ (h : Vector Byte 10) (c : CcidRegs), (∀ k (hk : k < 10), pbufRead s.pbuf k = some h[k]) ∧
      c.mtype = h[0] ∧
      c.clen.toNat = h[1].toNat + h[2].toNat * 2 ^ 8 + h[3].toNat * 2 ^ 16 + h[4].toNat * 2 ^ 24 ∧
      c.slot = h[5] ∧ c.seq = h[6] ∧ c.msg7 = h[7] ∧ c.msg8 = h[8] ∧ c.msg9 = h[9] ∧ c.cstat = ccidFlags c s.plen ∧
      exec .ccidparse s = .next (complete .none { s with ccid := c }))

/-- R185: CCIDCHK parses as CCIDPARSE does and completes with NONE exactly for a header whose message type is 0x83 and
whose byte 7 is 0x02. -/
def Obligations.CcidchkRequiresAGoodResponse : Prop :=
  (∀ s : State, s.phase = .idle → s.hasCcid = true →
    exec .ccidchk s =
      .next { s with
        op := 0x05, err := .none, phase := .compute, perr := if 282 < s.plen.toNat then .plenRange else .none
        status := { s.status with done := false, errf := false, wign := false } }) ∧
  (∀ s : State, s.phase = .compute → s.op = 0x05 → s.perr ≠ .none → exec .ccidchk s = .next (complete s.perr s)) ∧
  (∀ s : State, s.phase = .compute → s.op = 0x05 → s.perr = .none → s.plen.toNat < 10 →
    exec .ccidchk s =
      .next (complete .ccidHeaderInvalid
        { s with ccid := { mtype := 0, clen := 0, slot := 0, seq := 0, msg7 := 0, msg8 := 0, msg9 := 0, cstat := 0 } })) ∧
  (∀ s : State, s.phase = .compute → s.op = 0x05 → s.perr = .none → s.pbuf.wf = true → 10 ≤ s.plen.toNat →
    ∃ (h : Vector Byte 10) (c : CcidRegs), (∀ k (hk : k < 10), pbufRead s.pbuf k = some h[k]) ∧
      c.mtype = h[0] ∧
      c.clen.toNat = h[1].toNat + h[2].toNat * 2 ^ 8 + h[3].toNat * 2 ^ 16 + h[4].toNat * 2 ^ 24 ∧
      c.slot = h[5] ∧ c.seq = h[6] ∧ c.msg7 = h[7] ∧ c.msg8 = h[8] ∧ c.msg9 = h[9] ∧ c.cstat = ccidFlags c s.plen ∧
      exec .ccidchk s =
        .next (complete (if h[0] = 0x83 ∧ h[7] = 0x02 then .none else .ccidHeaderInvalid) { s with ccid := c }))

/-- R118, R183: without a parser its commands complete with ILLEGAL_COMMAND and its addresses read 0x00 and ignore writes
(that its registers keep their reset value is part of State.Inv). -/
def Obligations.WithoutParserItsCommandsAreIllegal : Prop :=
  ∀ s : State, s.hasCcid = false → s.pbuf.wf = true →
    (s.phase = .idle → s.pos = 0 → ∀ v : Byte, v = 0x04 ∨ v = 0x05 →
      applyEvents [.hostWrite 0x000 v, .finish] s =
        .next { s with
          op := v, err := .illegalCommand, perr := .none
          status := { s.status with done := true, errf := true, wign := false } }) ∧
    (∀ (a : HostAddr) (w : Byte), 0x020 ≤ a.toNat → a.toNat ≤ 0x02A →
      hostReadByte s a = 0x00 ∧ applyEvent (.hostWrite a w) s = .next s)

/-! ### The checksum and the frame -/

/-- R142: the laws of the checksum. -/
def Obligations.ChecksumLaws : Prop :=
  cks [] = 0x00 ∧
  (∀ l : List Byte, ((l.map BitVec.toNat).sum + (cks l).toNat) % 256 = 0) ∧
  (∀ l r : List Byte, l.Perm r → cks l = cks r) ∧ cks [0x01] = 0xFF ∧ cks [0xFF] = 0x01 ∧
  (∀ l r : List Byte, (cks (l ++ r)).toNat = neg8 ((sum8 l + sum8 r) % 256)) ∧
  (∀ l : List Byte, cks (l ++ [0x00]) = cks l ∧ cks (l ++ [cks l]) = 0x00) ∧
  (∀ l : List Byte, cks l = 0x00 ↔ sum8 l = 0) ∧
  (∀ (l r : List Byte) (x y : Byte), x ≠ y → cks (l ++ x :: r) ≠ cks (l ++ y :: r)) ∧
  (∀ (l m r : List Byte) (x y : Byte), cks (l ++ (x + 1) :: m ++ (y - 1) :: r) = cks (l ++ x :: m ++ y :: r))

/-- R92-R97: the shape of a frame: preamble, length field high byte first, both invariants, postamble, `n + 8` bytes. -/
def Obligations.FramesAreWellFormed : Prop :=
  ∀ p : List Byte, p.length ≤ 282 →
    ∃ hi lo l d : Byte, frame p = [0x00, 0x00, 0xFF, hi, lo, l] ++ p ++ [d, 0x00] ∧
      hi.toNat * 256 + lo.toNat = p.length ∧ hi.toNat ≤ 1 ∧ (hi.toNat + lo.toNat + l.toNat) % 256 = 0 ∧
      ((p.map BitVec.toNat).sum + d.toNat) % 256 = 0 ∧ (frame p).length = p.length + 8

/-! ### Whole-machine rules -/

/-- The state after reset meets the invariant. -/
def Obligations.ResetMeetsTheInvariant : Prop :=
  State.reset.Inv

/-- Every step keeps the invariant (R18, R19, R22, R27, R30, R31, R61). -/
def Obligations.StepKeepsTheInvariant : Prop :=
  ∀ s t : State, s.Inv → step s = .next t → t.Inv

/-- R61, R22: in a state that meets the invariant no step faults: no engine access falls outside PBUF, no header byte
outside HDR0..HDR5, no frame byte beyond the frame. -/
def Obligations.NoEngineAccessOutsideItsRange : Prop :=
  ∀ s : State, s.Inv → NoFault (step s)

/-- R31: a byte of PBUF changes only by Reset, by a host write to it while the engine is idle, or by the DECODE that receives
it; each of the two writes stores exactly its byte. -/
def Obligations.PbufIsStableUntilWritten : Prop :=
  ∀ (s t : State) (e : Event) (k : Nat), applyEvent e s = .next t → pbufRead t.pbuf k ≠ pbufRead s.pbuf k →
    e = .reset ∨
    (∃ a v, e = .hostWrite a v ∧ a.toNat = 0x100 + k ∧ s.phase = .idle ∧ pbufRead t.pbuf k = some v) ∨
    (∃ b q, e = .rxPull ∧ s.phase = .decBody ∧ s.rxq = b :: q ∧ s.pos.toNat = k ∧ k < s.cap.flen.toNat ∧
      pbufRead t.pbuf k = some b)

/-- R26: CKSUM changes only by a CKSUM that works, by the last byte of an ENCODE, by the last byte of a DECODE's body, each
time to the checksum of the payload concerned, or by Reset. -/
def Obligations.CksumHoldsTheLastChecksum : Prop :=
  ∀ (s t : State) (e : Event), applyEvent e s = .next t → t.cksum ≠ s.cksum →
    e = .reset ∨
    (e = .finish ∧ s.op = 0x01 ∧ s.perr = .none ∧
      ∃ p, payload s.pbuf s.plen.toNat = some p ∧ t.cksum = cks p ∧ t.phase = .idle) ∨
    (e = .txAccept ∧ ∃ p, payload s.pbuf s.plen.toNat = some p ∧ t.cksum = cks p ∧ t.phase = .idle) ∨
    (e = .rxPull ∧ s.phase = .decBody ∧
      ∃ p, payload t.pbuf s.cap.flen.toNat = some p ∧ t.cksum = cks p ∧ t.phase = .idle)

/-- R186: the CCID registers change only through CCIDPARSE and CCIDCHK that passed the range check, or by Reset; such a
command changes nothing else but the registers of completion. -/
def Obligations.CcidRegistersChangeByParsesOnly : Prop :=
  ∀ (s t : State) (e : Event), applyEvent e s = .next t → t.ccid ≠ s.ccid →
    e = .reset ∨
    (e = .finish ∧ (s.op = 0x04 ∨ s.op = 0x05) ∧ s.perr = .none ∧
      t = { s with ccid := t.ccid, phase := .idle, pos := 0, err := t.err, status := t.status } ∧
      t.status = { s.status with done := true, errf := t.status.errf })

/-- R28, R34, R62, R210: only an arrival appends to RXQ, only a pull takes its head, only a TxAccept appends to TXLOG, and
nothing else touches either. That HAS_CCID is a field of State, which no event changes, is the model's choice (DESIGN CHOICE,
log 9) and follows from none of these rules. -/
def Obligations.StreamsKeepTheirOrder : Prop :=
  ∀ (s t : State) (e : Event), applyEvent e s = .next t →
    ((∃ b, e = .rxArrive b ∧ t.rxq = s.rxq ++ [b]) ∨ (e = .rxPull ∧ ∃ b, s.rxq = b :: t.rxq) ∨
      (e ≠ .rxPull ∧ (∀ b, e ≠ .rxArrive b) ∧ t.rxq = s.rxq)) ∧
    ((e = .txAccept ∧ ∃ b, t.txlog = s.txlog ++ [b]) ∨ (e ≠ .txAccept ∧ t.txlog = s.txlog)) ∧
    t.hasCcid = s.hasCcid

/-- R76: while a command runs no event but Reset changes the operands it reads: TIMEOUT, CFG, OP, and PLEN and PBUF but for
what DECODE itself writes there. -/
def Obligations.RunningCommandSeesItsOperands : Prop :=
  ∀ (s t : State) (e : Event), s.phase ≠ .idle → e ≠ .reset → applyEvent e s = .next t →
    t.timeout = s.timeout ∧ t.dcsEn = s.dcsEn ∧ t.op = s.op ∧
    (t.plen ≠ s.plen → e = .rxPull ∧ s.phase = .decBody ∧ t.phase = .idle) ∧
    (t.pbuf ≠ s.pbuf → e = .rxPull ∧ s.phase = .decBody)

/-- R108: from a state that meets the invariant the engine's own events come to an end: the eager schedule reaches a state
in which none is enabled. -/
def Obligations.EagerScheduleSettles : Prop :=
  ∀ s : State, s.Inv → ∃ t, drain s = some t ∧ engineEvent t = none

/-- R124, R226 (D16, U8): a command in COMPUTE finishes, however many events come first. In every weakly fair run of the event
model, and in every run of step, which is fair because its schedule is finite (log 15), it stays in COMPUTE until its Finish,
which reports, or a Reset; under a schedule of host accesses, arrivals and Ticks its Finish is the step after the last of
them. -/
def Obligations.FinishHappensEventually : Prop :=
  (∀ (st : Nat → State) (ev : Nat → Event) (n : Nat), EventRun st ev → WeaklyFair st ev →
    (st n).Inv → (st n).phase = .compute →
    ∃ m, n ≤ m ∧ (∀ k, n ≤ k → k ≤ m → (st k).phase = .compute) ∧ (st (m + 1)).phase = .idle ∧
      ((ev m = .finish ∧ (st (m + 1)).status.done = true) ∨ ev m = .reset)) ∧
  (∀ (st : Nat → State) (n : Nat), StepRun st → (st n).Inv → (st n).phase = .compute →
    ∃ m, n ≤ m ∧ m ≤ n + (st n).sched.length ∧ (∀ k, n ≤ k → k ≤ m → (st k).phase = .compute) ∧
      (st (m + 1)).phase = .idle ∧
      ((st (m + 1)).status.done = true ∨ ∃ rest, (st m).sched = .reset :: rest)) ∧
  (∀ s : State, s.Inv → s.phase = .compute →
    (∀ e ∈ s.sched, e = .tick ∨ (∃ b, e = .rxArrive b) ∨ (∃ a, e = .hostRead a) ∨ ∃ a v, e = .hostWrite a v) →
    ∃ t, steps (s.sched.length + 1) s = .next t ∧ t.phase = .idle ∧ t.status.done = true ∧ t.sched = [])
end

