-- ==== Sys2Proof/Laws/Bytes.lean ====
section
/-! SUPPORT. The laws of register bytes (spec/20_memory.md R67): a byte that is put is the byte that is read, and no other
byte changes. -/

namespace Sys2Proof.Machine

theorem byteOf_putByte_same {w : Nat} (v : BitVec w) (k : Nat) (b : Byte) (hk : 8 * k + 8 ≤ w) :
    byteOf (putByte v k b) k = b := by
  apply BitVec.eq_of_getLsbD_eq
  intro i hi
  simp only [byteOf, putByte, BitVec.getLsbD_setWidth, BitVec.getLsbD_ushiftRight, BitVec.getLsbD_or, BitVec.getLsbD_and,
    BitVec.getLsbD_not, BitVec.getLsbD_shiftLeft]
  have h1 : 8 * k + i < w := by omega
  have h2 : ¬ 8 * k + i < 8 * k := by omega
  have h3 : 8 * k + i - 8 * k = i := by omega
  have h4 : i < w := by omega
  have hb : (0xFF#8).getLsbD i = true := by
    interval_cases i <;> rfl
  simp [h1, h3, h4, hi, hb]

theorem byteOf_putByte_other {w : Nat} (v : BitVec w) (k j : Nat) (b : Byte) (hj : j ≠ k) :
    byteOf (putByte v k b) j = byteOf v j := by
  apply BitVec.eq_of_getLsbD_eq
  intro i hi
  simp only [byteOf, putByte, BitVec.getLsbD_setWidth, BitVec.getLsbD_ushiftRight, BitVec.getLsbD_or, BitVec.getLsbD_and,
    BitVec.getLsbD_not, BitVec.getLsbD_shiftLeft]
  by_cases hw : 8 * j + i < w
  · rcases Nat.lt_or_ge j k with h | h
    · have h2 : 8 * j + i < 8 * k := by omega
      simp [hi, hw, h2]
    · have h2 : ¬ 8 * j + i < 8 * k := by omega
      have h3 : 8 ≤ 8 * j + i - 8 * k := by omega
      simp [hi, hw, BitVec.getLsbD_of_ge _ _ h3]
  · simp [hw, BitVec.getLsbD_of_ge v _ (Nat.le_of_not_lt hw)]

end Sys2Proof.Machine
end

