-- ==== Sys2Proof/Laws/Checksum.lean ====
section
/-! SUPPORT. Small laws of the checksum unit (spec/41_checksum.md R140). -/

namespace Sys2Proof.Machine

theorem sum8_lt (l : List Byte) : sum8 l < 256 := Nat.mod_lt _ (by decide)

@[simp] theorem sum8_nil : sum8 [] = 0 := rfl

theorem sum8_cons (b : Byte) (l : List Byte) : sum8 (b :: l) = (b.toNat + sum8 l) % 256 := by
  simp [sum8]

theorem sum8_append (l r : List Byte) : sum8 (l ++ r) = (sum8 l + sum8 r) % 256 := by
  simp [sum8]

theorem neg8_lt (x : Nat) : neg8 x < 256 := Nat.mod_lt _ (by decide)

/-- A checksum as a number. -/
theorem cks_toNat (l : List Byte) : (cks l).toNat = neg8 (sum8 l) := by
  simp [cks, Nat.mod_eq_of_lt (neg8_lt _)]

theorem lcs_toNat (hi lo : Byte) : (lcs hi lo).toNat = neg8 ((hi.toNat + lo.toNat) % 256) := by
  simp [lcs, Nat.mod_eq_of_lt (neg8_lt _)]

/-- The negative of a byte cancels it modulo 256. -/
theorem add_neg8 {x : Nat} (h : x < 256) : (x + neg8 x) % 256 = 0 := by
  unfold neg8; omega

@[simp] theorem frame_length (p : List Byte) : (frame p).length = p.length + 8 := by
  simp [frame]

end Sys2Proof.Machine
end

