-- ==== Sys2Proof/Laws/Memory.lean ====
section
/-! SUPPORT. The laws of the memory PBUF: reads after writes, the canonical form, and what a slice holds. -/

namespace Sys2Proof.Machine

/-- In canonical form exactly the addresses of PBUF are listed. -/
theorem Memory.mem_keys_of_wf {m : Memory} (h : m.wf = true) (a : Nat) :
    a ∈ m.map Prod.fst ↔ 0x100 ≤ a ∧ a < 0x100 + 282 := by
  have h' : m.map Prod.fst = List.range' 0x100 282 := by
    simpa [Memory.wf, Config.pbufBase, Config.pbufSize, Config.maxPayload] using h
  rw [h', List.mem_range'_1]

/-- An address has a byte exactly when it is listed. -/
theorem Memory.read_isSome {m : Memory} {a : Nat} : (m.read a).isSome = true ↔ a ∈ m.map Prod.fst := by
  unfold Memory.read Memory.unlisted
  constructor
  · intro h
    split at h
    · rename_i c hc
      have := List.find?_some hc
      have hm := List.mem_of_find?_eq_some hc
      simp only [beq_iff_eq] at this
      exact List.mem_map.2 ⟨c, hm, this⟩
    · simp at h
  · intro h
    obtain ⟨c, hm, rfl⟩ := List.mem_map.1 h
    split
    · rfl
    · rename_i hn
      have := List.find?_eq_none.1 hn c hm
      simp at this

/-- A write keeps every listed address. -/
@[simp] theorem Memory.write_keys (m : Memory) (a : Nat) (v : Byte) :
    (m.write a v).map Prod.fst = m.map Prod.fst := by
  unfold Memory.write
  rw [List.map_map]
  apply List.map_congr_left
  intro c _
  simp only [Function.comp]
  split
  · rename_i h; simp [h]
  · rfl

/-- A write keeps the canonical form. -/
@[simp] theorem Memory.wf_write (m : Memory) (a : Nat) (v : Byte) : (m.write a v).wf = m.wf := by
  simp [Memory.wf]

/-- A draw of PBUF is in canonical form. -/
@[simp] theorem Memory.wf_drawn (k : Nat) : (Memory.drawn k).wf = true := by
  simp only [Memory.wf, Memory.drawn, List.map_map, beq_iff_eq, List.range'_eq_map_range]
  apply List.map_congr_left
  intro i _
  rfl

/-- The state after reset has its memory in canonical form. -/
theorem State.reset_memory_wf : State.reset.pbuf.wf = true := Memory.wf_drawn 0

/-- A read after a write to the same listed address gives the value written. -/
theorem Memory.read_write_same {m : Memory} {a : Nat} (v : Byte) (h : (m.read a).isSome = true) :
    (m.write a v).read a = some v := by
  have hl := Memory.read_isSome.1 h
  unfold Memory.read Memory.write Memory.unlisted
  induction m with
  | nil => simp at hl
  | cons c m ih =>
    simp only [List.map_cons, List.find?_cons]
    by_cases hc : c.1 = a
    · simp [hc]
    · have : a ∈ m.map Prod.fst := by
        rcases List.mem_map.1 hl with ⟨d, hd, rfl⟩
        rcases List.mem_cons.1 hd with rfl | hd
        · exact absurd rfl hc
        · exact List.mem_map.2 ⟨d, hd, rfl⟩
      simp only [hc, if_false, beq_eq_false_iff_ne.2 hc]
      exact ih (Memory.read_isSome.2 this) this

/-- A write leaves every other address alone. -/
theorem Memory.read_write_other {m : Memory} {a b : Nat} (v : Byte) (h : b ≠ a) :
    (m.write a v).read b = m.read b := by
  unfold Memory.read Memory.write
  induction m with
  | nil => rfl
  | cons c m ih =>
    simp only [List.map_cons, List.find?_cons]
    by_cases hc : c.1 = a
    · have hb : ¬ c.1 = b := by omega
      simp only [hc, if_true, beq_eq_false_iff_ne.2 (Ne.symm h)]
      exact ih
    · by_cases hb : c.1 = b
      · simp [hb, h]
      · simp only [hc, if_false, beq_eq_false_iff_ne.2 hb]
        exact ih

/-- In canonical form PBUF has exactly the indexes below 282 (R61). -/
theorem pbufRead_isSome {m : Memory} (h : m.wf = true) (i : Nat) : (pbufRead m i).isSome = true ↔ i < 282 := by
  unfold pbufRead
  rw [Memory.read_isSome, Memory.mem_keys_of_wf h]
  simp only [Config.pbufBase]
  omega

theorem pbufRead_some {m : Memory} (h : m.wf = true) {i : Nat} (hi : i < 282) : ∃ b, pbufRead m i = some b :=
  Option.isSome_iff_exists.1 ((pbufRead_isSome h i).2 hi)

/-- What a write of PBUF can do: it has the index, and the memory is written there. -/
theorem pbufWrite_eq_some {m m' : Memory} {i : Nat} {v : Byte} :
    pbufWrite m i v = some m' ↔ (pbufRead m i).isSome = true ∧ m' = m.write (Config.pbufBase + i) v := by
  unfold pbufWrite
  cases h : pbufRead m i <;> simp [eq_comm]

theorem pbufWrite_wf {m : Memory} (h : m.wf = true) {i : Nat} (hi : i < 282) (v : Byte) :
    pbufWrite m i v = some (m.write (Config.pbufBase + i) v) :=
  pbufWrite_eq_some.2 ⟨(pbufRead_isSome h i).2 hi, rfl⟩

/-- PBUF after a write, index by index. -/
theorem pbufRead_write {m : Memory} (h : m.wf = true) {i : Nat} (hi : i < 282) (v : Byte) (j : Nat) :
    pbufRead (m.write (Config.pbufBase + i) v) j = if j = i then some v else pbufRead m j := by
  unfold pbufRead
  split
  · rename_i hj; subst hj
    exact Memory.read_write_same v ((pbufRead_isSome h j).2 hi)
  · exact Memory.read_write_other v (by omega)

/-- What a slice is: as long as asked, and each of its bytes is the one at its place. -/
theorem pbufSlice_eq_some {m : Memory} {n i : Nat} {l : List Byte} :
    pbufSlice m i n = some l ↔ l.length = n ∧ ∀ k (hk : k < l.length), pbufRead m (i + k) = some l[k] := by
  induction n generalizing i l with
  | zero =>
    simp only [pbufSlice, Option.some.injEq]
    constructor
    · rintro rfl; exact ⟨rfl, fun k hk => absurd hk (by simp)⟩
    · rintro ⟨h, -⟩; exact (List.length_eq_zero_iff.1 h).symm
  | succ n ih =>
    simp only [pbufSlice]
    constructor
    · intro h
      split at h
      · rename_i b bs hb hbs
        obtain rfl := Option.some.inj h
        obtain ⟨hl, hr⟩ := ih.1 hbs
        refine ⟨by simp [hl], fun k hk => ?_⟩
        cases k with
        | zero => simpa using hb
        | succ k =>
          have := hr k (by simpa using hk)
          simpa [Nat.add_assoc, Nat.add_comm 1 k] using this
      · cases h
    · rintro ⟨hl, hr⟩
      cases l with
      | nil => simp at hl
      | cons b bs =>
        have hb : pbufRead m i = some b := hr 0 (by simp)
        have hbs : pbufSlice m (i + 1) n = some bs := by
          refine ih.2 ⟨by simpa using hl, fun k hk => ?_⟩
          have := hr (k + 1) (by simpa using hk)
          simpa [Nat.add_assoc, Nat.add_comm 1 k] using this
        rw [hb, hbs]

/-- In canonical form PBUF has every slice below its end. -/
theorem pbufSlice_some {m : Memory} (h : m.wf = true) (n i : Nat) (hn : i + n ≤ 282) :
    ∃ l, pbufSlice m i n = some l := by
  induction n generalizing i with
  | zero => exact ⟨[], rfl⟩
  | succ n ih =>
    obtain ⟨b, hb⟩ := pbufRead_some h (i := i) (by omega)
    obtain ⟨l, hl⟩ := ih (i + 1) (by omega)
    exact ⟨b :: l, by simp [pbufSlice, hb, hl]⟩

/-- The payload: as long as asked, byte `k` being PBUF[k]. -/
theorem payload_eq_some {m : Memory} {n : Nat} {l : List Byte} :
    payload m n = some l ↔ l.length = n ∧ ∀ k (hk : k < l.length), pbufRead m k = some l[k] := by
  simpa [payload] using pbufSlice_eq_some (m := m) (n := n) (i := 0) (l := l)

/-- In canonical form PBUF has every payload of at most 282 bytes (R31). -/
theorem payload_some {m : Memory} (h : m.wf = true) {n : Nat} (hn : n ≤ 282) : ∃ l, payload m n = some l :=
  pbufSlice_some h n 0 (by omega)

end Sys2Proof.Machine
end

