-- ==== Sys2Proof/Laws/State.lean ====
section
/-! SUPPORT. One lemma per field per named update of State, true by rfl, so that no proof unfolds a record update. -/

namespace Sys2Proof.Machine

variable (s : State)

@[simp] theorem acceptBegin_hasCcid (v : Byte) : (acceptBegin v s).hasCcid = s.hasCcid := rfl
@[simp] theorem acceptBegin_status (v : Byte) : (acceptBegin v s).status = { s.status with done := false, errf := false, wign := false } := rfl
@[simp] theorem acceptBegin_err (v : Byte) : (acceptBegin v s).err = .none := rfl
@[simp] theorem acceptBegin_dcsEn (v : Byte) : (acceptBegin v s).dcsEn = s.dcsEn := rfl
@[simp] theorem acceptBegin_timeout (v : Byte) : (acceptBegin v s).timeout = s.timeout := rfl
@[simp] theorem acceptBegin_plen (v : Byte) : (acceptBegin v s).plen = s.plen := rfl
@[simp] theorem acceptBegin_cksum (v : Byte) : (acceptBegin v s).cksum = s.cksum := rfl
@[simp] theorem acceptBegin_txcnt (v : Byte) : (acceptBegin v s).txcnt = s.txcnt := rfl
@[simp] theorem acceptBegin_rxcnt (v : Byte) : (acceptBegin v s).rxcnt = s.rxcnt := rfl
@[simp] theorem acceptBegin_cap (v : Byte) : (acceptBegin v s).cap = s.cap := rfl
@[simp] theorem acceptBegin_ccid (v : Byte) : (acceptBegin v s).ccid = s.ccid := rfl
@[simp] theorem acceptBegin_pbuf (v : Byte) : (acceptBegin v s).pbuf = s.pbuf := rfl
@[simp] theorem acceptBegin_phase (v : Byte) : (acceptBegin v s).phase = s.phase := rfl
@[simp] theorem acceptBegin_pos (v : Byte) : (acceptBegin v s).pos = s.pos := rfl
@[simp] theorem acceptBegin_op (v : Byte) : (acceptBegin v s).op = v := rfl
@[simp] theorem acceptBegin_perr (v : Byte) : (acceptBegin v s).perr = s.perr := rfl
@[simp] theorem acceptBegin_elapsed (v : Byte) : (acceptBegin v s).elapsed = s.elapsed := rfl
@[simp] theorem acceptBegin_rxq (v : Byte) : (acceptBegin v s).rxq = s.rxq := rfl
@[simp] theorem acceptBegin_txlog (v : Byte) : (acceptBegin v s).txlog = s.txlog := rfl
@[simp] theorem acceptBegin_hostReads (v : Byte) : (acceptBegin v s).hostReads = s.hostReads := rfl
@[simp] theorem acceptBegin_sched (v : Byte) : (acceptBegin v s).sched = s.sched := rfl
@[simp] theorem acceptBegin_draws (v : Byte) : (acceptBegin v s).draws = s.draws := rfl

@[simp] theorem toCompute_hasCcid (e : ErrorCode) : (toCompute e s).hasCcid = s.hasCcid := rfl
@[simp] theorem toCompute_status (e : ErrorCode) : (toCompute e s).status = s.status := rfl
@[simp] theorem toCompute_err (e : ErrorCode) : (toCompute e s).err = s.err := rfl
@[simp] theorem toCompute_dcsEn (e : ErrorCode) : (toCompute e s).dcsEn = s.dcsEn := rfl
@[simp] theorem toCompute_timeout (e : ErrorCode) : (toCompute e s).timeout = s.timeout := rfl
@[simp] theorem toCompute_plen (e : ErrorCode) : (toCompute e s).plen = s.plen := rfl
@[simp] theorem toCompute_cksum (e : ErrorCode) : (toCompute e s).cksum = s.cksum := rfl
@[simp] theorem toCompute_txcnt (e : ErrorCode) : (toCompute e s).txcnt = s.txcnt := rfl
@[simp] theorem toCompute_rxcnt (e : ErrorCode) : (toCompute e s).rxcnt = s.rxcnt := rfl
@[simp] theorem toCompute_cap (e : ErrorCode) : (toCompute e s).cap = s.cap := rfl
@[simp] theorem toCompute_ccid (e : ErrorCode) : (toCompute e s).ccid = s.ccid := rfl
@[simp] theorem toCompute_pbuf (e : ErrorCode) : (toCompute e s).pbuf = s.pbuf := rfl
@[simp] theorem toCompute_phase (e : ErrorCode) : (toCompute e s).phase = .compute := rfl
@[simp] theorem toCompute_pos (e : ErrorCode) : (toCompute e s).pos = s.pos := rfl
@[simp] theorem toCompute_op (e : ErrorCode) : (toCompute e s).op = s.op := rfl
@[simp] theorem toCompute_perr (e : ErrorCode) : (toCompute e s).perr = e := rfl
@[simp] theorem toCompute_elapsed (e : ErrorCode) : (toCompute e s).elapsed = s.elapsed := rfl
@[simp] theorem toCompute_rxq (e : ErrorCode) : (toCompute e s).rxq = s.rxq := rfl
@[simp] theorem toCompute_txlog (e : ErrorCode) : (toCompute e s).txlog = s.txlog := rfl
@[simp] theorem toCompute_hostReads (e : ErrorCode) : (toCompute e s).hostReads = s.hostReads := rfl
@[simp] theorem toCompute_sched (e : ErrorCode) : (toCompute e s).sched = s.sched := rfl
@[simp] theorem toCompute_draws (e : ErrorCode) : (toCompute e s).draws = s.draws := rfl

@[simp] theorem complete_hasCcid (e : ErrorCode) : (complete e s).hasCcid = s.hasCcid := rfl
@[simp] theorem complete_status (e : ErrorCode) : (complete e s).status = { s.status with errf := decide (e ≠ .none), done := true } := rfl
@[simp] theorem complete_err (e : ErrorCode) : (complete e s).err = e := rfl
@[simp] theorem complete_dcsEn (e : ErrorCode) : (complete e s).dcsEn = s.dcsEn := rfl
@[simp] theorem complete_timeout (e : ErrorCode) : (complete e s).timeout = s.timeout := rfl
@[simp] theorem complete_plen (e : ErrorCode) : (complete e s).plen = s.plen := rfl
@[simp] theorem complete_cksum (e : ErrorCode) : (complete e s).cksum = s.cksum := rfl
@[simp] theorem complete_txcnt (e : ErrorCode) : (complete e s).txcnt = s.txcnt := rfl
@[simp] theorem complete_rxcnt (e : ErrorCode) : (complete e s).rxcnt = s.rxcnt := rfl
@[simp] theorem complete_cap (e : ErrorCode) : (complete e s).cap = s.cap := rfl
@[simp] theorem complete_ccid (e : ErrorCode) : (complete e s).ccid = s.ccid := rfl
@[simp] theorem complete_pbuf (e : ErrorCode) : (complete e s).pbuf = s.pbuf := rfl
@[simp] theorem complete_phase (e : ErrorCode) : (complete e s).phase = .idle := rfl
@[simp] theorem complete_pos (e : ErrorCode) : (complete e s).pos = 0 := rfl
@[simp] theorem complete_op (e : ErrorCode) : (complete e s).op = s.op := rfl
@[simp] theorem complete_perr (e : ErrorCode) : (complete e s).perr = .none := rfl
@[simp] theorem complete_elapsed (e : ErrorCode) : (complete e s).elapsed = s.elapsed := rfl
@[simp] theorem complete_rxq (e : ErrorCode) : (complete e s).rxq = s.rxq := rfl
@[simp] theorem complete_txlog (e : ErrorCode) : (complete e s).txlog = s.txlog := rfl
@[simp] theorem complete_hostReads (e : ErrorCode) : (complete e s).hostReads = s.hostReads := rfl
@[simp] theorem complete_sched (e : ErrorCode) : (complete e s).sched = s.sched := rfl
@[simp] theorem complete_draws (e : ErrorCode) : (complete e s).draws = s.draws := rfl

@[simp] theorem ignoreWrite_hasCcid : (ignoreWrite s).hasCcid = s.hasCcid := rfl
@[simp] theorem ignoreWrite_status : (ignoreWrite s).status = { s.status with wign := true } := rfl
@[simp] theorem ignoreWrite_err : (ignoreWrite s).err = s.err := rfl
@[simp] theorem ignoreWrite_dcsEn : (ignoreWrite s).dcsEn = s.dcsEn := rfl
@[simp] theorem ignoreWrite_timeout : (ignoreWrite s).timeout = s.timeout := rfl
@[simp] theorem ignoreWrite_plen : (ignoreWrite s).plen = s.plen := rfl
@[simp] theorem ignoreWrite_cksum : (ignoreWrite s).cksum = s.cksum := rfl
@[simp] theorem ignoreWrite_txcnt : (ignoreWrite s).txcnt = s.txcnt := rfl
@[simp] theorem ignoreWrite_rxcnt : (ignoreWrite s).rxcnt = s.rxcnt := rfl
@[simp] theorem ignoreWrite_cap : (ignoreWrite s).cap = s.cap := rfl
@[simp] theorem ignoreWrite_ccid : (ignoreWrite s).ccid = s.ccid := rfl
@[simp] theorem ignoreWrite_pbuf : (ignoreWrite s).pbuf = s.pbuf := rfl
@[simp] theorem ignoreWrite_phase : (ignoreWrite s).phase = s.phase := rfl
@[simp] theorem ignoreWrite_pos : (ignoreWrite s).pos = s.pos := rfl
@[simp] theorem ignoreWrite_op : (ignoreWrite s).op = s.op := rfl
@[simp] theorem ignoreWrite_perr : (ignoreWrite s).perr = s.perr := rfl
@[simp] theorem ignoreWrite_elapsed : (ignoreWrite s).elapsed = s.elapsed := rfl
@[simp] theorem ignoreWrite_rxq : (ignoreWrite s).rxq = s.rxq := rfl
@[simp] theorem ignoreWrite_txlog : (ignoreWrite s).txlog = s.txlog := rfl
@[simp] theorem ignoreWrite_hostReads : (ignoreWrite s).hostReads = s.hostReads := rfl
@[simp] theorem ignoreWrite_sched : (ignoreWrite s).sched = s.sched := rfl
@[simp] theorem ignoreWrite_draws : (ignoreWrite s).draws = s.draws := rfl

@[simp] theorem hostRead_hasCcid (a : HostAddr) : (hostRead a s).hasCcid = s.hasCcid := rfl
@[simp] theorem hostRead_status (a : HostAddr) : (hostRead a s).status = s.status := rfl
@[simp] theorem hostRead_err (a : HostAddr) : (hostRead a s).err = s.err := rfl
@[simp] theorem hostRead_dcsEn (a : HostAddr) : (hostRead a s).dcsEn = s.dcsEn := rfl
@[simp] theorem hostRead_timeout (a : HostAddr) : (hostRead a s).timeout = s.timeout := rfl
@[simp] theorem hostRead_plen (a : HostAddr) : (hostRead a s).plen = s.plen := rfl
@[simp] theorem hostRead_cksum (a : HostAddr) : (hostRead a s).cksum = s.cksum := rfl
@[simp] theorem hostRead_txcnt (a : HostAddr) : (hostRead a s).txcnt = s.txcnt := rfl
@[simp] theorem hostRead_rxcnt (a : HostAddr) : (hostRead a s).rxcnt = s.rxcnt := rfl
@[simp] theorem hostRead_cap (a : HostAddr) : (hostRead a s).cap = s.cap := rfl
@[simp] theorem hostRead_ccid (a : HostAddr) : (hostRead a s).ccid = s.ccid := rfl
@[simp] theorem hostRead_pbuf (a : HostAddr) : (hostRead a s).pbuf = s.pbuf := rfl
@[simp] theorem hostRead_phase (a : HostAddr) : (hostRead a s).phase = s.phase := rfl
@[simp] theorem hostRead_pos (a : HostAddr) : (hostRead a s).pos = s.pos := rfl
@[simp] theorem hostRead_op (a : HostAddr) : (hostRead a s).op = s.op := rfl
@[simp] theorem hostRead_perr (a : HostAddr) : (hostRead a s).perr = s.perr := rfl
@[simp] theorem hostRead_elapsed (a : HostAddr) : (hostRead a s).elapsed = s.elapsed := rfl
@[simp] theorem hostRead_rxq (a : HostAddr) : (hostRead a s).rxq = s.rxq := rfl
@[simp] theorem hostRead_txlog (a : HostAddr) : (hostRead a s).txlog = s.txlog := rfl
@[simp] theorem hostRead_hostReads (a : HostAddr) : (hostRead a s).hostReads = s.hostReads ++ [(a, hostReadByte s a)] := rfl
@[simp] theorem hostRead_sched (a : HostAddr) : (hostRead a s).sched = s.sched := rfl
@[simp] theorem hostRead_draws (a : HostAddr) : (hostRead a s).draws = s.draws := rfl

@[simp] theorem ccidClear_hasCcid : (ccidClear s).hasCcid = s.hasCcid := rfl
@[simp] theorem ccidClear_status : (ccidClear s).status = s.status := rfl
@[simp] theorem ccidClear_err : (ccidClear s).err = s.err := rfl
@[simp] theorem ccidClear_dcsEn : (ccidClear s).dcsEn = s.dcsEn := rfl
@[simp] theorem ccidClear_timeout : (ccidClear s).timeout = s.timeout := rfl
@[simp] theorem ccidClear_plen : (ccidClear s).plen = s.plen := rfl
@[simp] theorem ccidClear_cksum : (ccidClear s).cksum = s.cksum := rfl
@[simp] theorem ccidClear_txcnt : (ccidClear s).txcnt = s.txcnt := rfl
@[simp] theorem ccidClear_rxcnt : (ccidClear s).rxcnt = s.rxcnt := rfl
@[simp] theorem ccidClear_cap : (ccidClear s).cap = s.cap := rfl
@[simp] theorem ccidClear_ccid : (ccidClear s).ccid = State.reset.ccid := rfl
@[simp] theorem ccidClear_pbuf : (ccidClear s).pbuf = s.pbuf := rfl
@[simp] theorem ccidClear_phase : (ccidClear s).phase = s.phase := rfl
@[simp] theorem ccidClear_pos : (ccidClear s).pos = s.pos := rfl
@[simp] theorem ccidClear_op : (ccidClear s).op = s.op := rfl
@[simp] theorem ccidClear_perr : (ccidClear s).perr = s.perr := rfl
@[simp] theorem ccidClear_elapsed : (ccidClear s).elapsed = s.elapsed := rfl
@[simp] theorem ccidClear_rxq : (ccidClear s).rxq = s.rxq := rfl
@[simp] theorem ccidClear_txlog : (ccidClear s).txlog = s.txlog := rfl
@[simp] theorem ccidClear_hostReads : (ccidClear s).hostReads = s.hostReads := rfl
@[simp] theorem ccidClear_sched : (ccidClear s).sched = s.sched := rfl
@[simp] theorem ccidClear_draws : (ccidClear s).draws = s.draws := rfl

@[simp] theorem resetBlock_hasCcid : (resetBlock s).hasCcid = s.hasCcid := rfl
@[simp] theorem resetBlock_status : (resetBlock s).status = State.reset.status := rfl
@[simp] theorem resetBlock_err : (resetBlock s).err = State.reset.err := rfl
@[simp] theorem resetBlock_dcsEn : (resetBlock s).dcsEn = State.reset.dcsEn := rfl
@[simp] theorem resetBlock_timeout : (resetBlock s).timeout = State.reset.timeout := rfl
@[simp] theorem resetBlock_plen : (resetBlock s).plen = State.reset.plen := rfl
@[simp] theorem resetBlock_cksum : (resetBlock s).cksum = State.reset.cksum := rfl
@[simp] theorem resetBlock_txcnt : (resetBlock s).txcnt = State.reset.txcnt := rfl
@[simp] theorem resetBlock_rxcnt : (resetBlock s).rxcnt = State.reset.rxcnt := rfl
@[simp] theorem resetBlock_cap : (resetBlock s).cap = State.reset.cap := rfl
@[simp] theorem resetBlock_ccid : (resetBlock s).ccid = State.reset.ccid := rfl
@[simp] theorem resetBlock_pbuf : (resetBlock s).pbuf = Memory.drawn s.draws := rfl
@[simp] theorem resetBlock_phase : (resetBlock s).phase = State.reset.phase := rfl
@[simp] theorem resetBlock_pos : (resetBlock s).pos = State.reset.pos := rfl
@[simp] theorem resetBlock_op : (resetBlock s).op = State.reset.op := rfl
@[simp] theorem resetBlock_perr : (resetBlock s).perr = State.reset.perr := rfl
@[simp] theorem resetBlock_elapsed : (resetBlock s).elapsed = State.reset.elapsed := rfl
@[simp] theorem resetBlock_rxq : (resetBlock s).rxq = s.rxq := rfl
@[simp] theorem resetBlock_txlog : (resetBlock s).txlog = s.txlog := rfl
@[simp] theorem resetBlock_hostReads : (resetBlock s).hostReads = s.hostReads := rfl
@[simp] theorem resetBlock_sched : (resetBlock s).sched = s.sched := rfl
@[simp] theorem resetBlock_draws : (resetBlock s).draws = s.draws + 1 := rfl

end Sys2Proof.Machine
end

