-- ==== Sys2Proof/Laws/Commands.lean ====
section
/-! SUPPORT. What each shared operation of the commands can do, said once: acceptance, Finish, the RX phases, the frame
bytes and the parser. -/

namespace Sys2Proof.Machine

variable {s t : State}

theorem busy_eq_false : s.busy = false ↔ s.phase = .idle := by simp [State.busy]

theorem busy_eq_true : s.busy = true ↔ s.phase ≠ .idle := by simp [State.busy]

theorem inRx_eq_true : s.inRx = true ↔ s.phase = .decHdr ∨ s.phase = .decBody := by
  unfold State.inRx; cases s.phase <;> simp

theorem inRx_eq_false : s.inRx = false ↔ s.phase = .idle ∨ s.phase = .compute ∨ s.phase = .enc := by
  unfold State.inRx; cases s.phase <;> simp

/-! ### Acceptance and Finish -/

section RunCommand

variable {v : Byte} {acc : State → State} {body : State → Host.Outcome State Fault Refusal}

theorem runCommand_idle (h : s.phase = .idle) : runCommand v acc body s = .next (acc (acceptBegin v s)) := by
  simp [runCommand, h]

theorem runCommand_own (h : s.phase = .compute) (ho : s.op = v) : runCommand v acc body s = finishWith body s := by
  simp [runCommand, h, ho]

theorem runCommand_other (h : s.phase = .compute) (ho : s.op ≠ v) :
    runCommand v acc body s = .next (ignoreWrite s) := by
  simp [runCommand, h, ho]

/-- Everything a command's shared move can be: acceptance, its own Finish, or a turned-away command. -/
theorem runCommand_cases :
    (s.phase = .idle ∧ runCommand v acc body s = .next (acc (acceptBegin v s))) ∨
    (s.phase = .compute ∧ s.op = v ∧ runCommand v acc body s = finishWith body s) ∨
    (s.phase ≠ .idle ∧ ¬ (s.phase = .compute ∧ s.op = v) ∧ runCommand v acc body s = .next (ignoreWrite s)) := by
  unfold runCommand
  cases h : s.phase <;> simp
  by_cases ho : s.op = v <;> simp [ho]

end RunCommand

theorem finishWith_none {body : State → Host.Outcome State Fault Refusal} (h : s.perr = .none) :
    finishWith body s = body s := by
  simp [finishWith, h]

theorem finishWith_pending {body : State → Host.Outcome State Fault Refusal} (h : s.perr ≠ .none) :
    finishWith body s = .next (complete s.perr s) := by
  simp [finishWith, h]

theorem plenCheck_ok (h : s.plen.toNat ≤ 282) : plenCheck s = .none := by
  simp [plenCheck, Config.maxPayload]; omega

theorem plenCheck_long (h : 282 < s.plen.toNat) : plenCheck s = .plenRange := by
  simp [plenCheck, Config.maxPayload]; omega

theorem ccidAccept_parser (h : s.hasCcid = true) : ccidAccept s = toCompute (plenCheck s) s := by
  simp [ccidAccept, h]

theorem ccidAccept_absent (h : s.hasCcid = false) : ccidAccept s = toCompute .illegalCommand s := by
  simp [ccidAccept, h]

/-! ### The RX phases -/

theorem timeout_pos (h : s.timeout ≠ 0) : 0 < s.timeout.toNat := by
  rcases Nat.eq_zero_or_pos s.timeout.toNat with h0 | h0
  · exact absurd (BitVec.eq_of_toNat_eq (by simpa using h0)) h
  · exact h0

/-- Entering an RX phase with a timeout of at least 1 ms: the phase runs from the start of its time (R164). -/
theorem enterRx_pos (ph : Phase) (h : 0 < s.timeout.toNat) :
    enterRx ph s = { s with phase := ph, pos := 0, elapsed := 0 } := by
  simp [enterRx]; omega

/-- Entering an RX phase with `TIMEOUT = 0` fails at once (R164). -/
theorem enterRx_zero (ph : Phase) (h : s.timeout = 0) :
    enterRx ph s = complete .transportTimeout { s with phase := ph, pos := 0, elapsed := 0 } := by
  simp [enterRx, h]

/-- A Tick of an RX phase either times out or only counts (R166). -/
theorem rxTick_cases (s : State) :
    (s.timeout.toNat ≤ (s.elapsed + 1).toNat ∧ rxTick s = complete .transportTimeout { s with elapsed := s.elapsed + 1 }) ∨
    ((s.elapsed + 1).toNat < s.timeout.toNat ∧ rxTick s = { s with elapsed := s.elapsed + 1 }) := by
  unfold rxTick
  by_cases h : s.timeout.toNat ≤ (s.elapsed + 1).toNat
  · exact .inl ⟨h, if_pos h⟩
  · exact .inr ⟨by omega, if_neg h⟩

/-- Everything the header checks can do, in their order (R168). -/
theorem headerDone_cases (s : State) :
    let s1 : State := { s with cap := { s.cap with flen := lengthField s.cap.hdr[3] s.cap.hdr[4] } }
    (preambleOk s.cap.hdr = false ∧ headerDone s = complete .frameHeaderInvalid s1) ∨
    (preambleOk s.cap.hdr = true ∧ lcsOk s.cap.hdr = false ∧ headerDone s = complete .frameChecksumInvalid s1) ∨
    (preambleOk s.cap.hdr = true ∧ lcsOk s.cap.hdr = true ∧ 282 < (lengthField s.cap.hdr[3] s.cap.hdr[4]).toNat ∧
      headerDone s = complete .framePayloadTooLong s1) ∨
    (preambleOk s.cap.hdr = true ∧ lcsOk s.cap.hdr = true ∧ (lengthField s.cap.hdr[3] s.cap.hdr[4]).toNat ≤ 282 ∧
      headerDone s = enterRx .decBody { s1 with status := { s1.status with hdrOk := true } }) := by
  intro s1
  unfold headerDone
  cases h1 : preambleOk s.cap.hdr
  · simp [s1, h1]
  cases h2 : lcsOk s.cap.hdr
  · simp [s1, h1, h2]
  by_cases h3 : 282 < (lengthField s.cap.hdr[3] s.cap.hdr[4]).toNat
  · simp [s1, h1, h2, h3, Config.maxPayload]
  · simp [s1, h1, h2, h3, Config.maxPayload]; omega

/-- Everything a pull of a header byte can do (R167). -/
theorem pullHeader_cases (b : Byte) (s : State) :
    (∃ h : s.pos.toNat < 6,
      let s1 : State :=
        { s with cap := { s.cap with hdr := s.cap.hdr.set s.pos.toNat b h }, pos := s.pos + 1, rxcnt := s.rxcnt + 1 }
      ((s.pos + 1).toNat = 6 ∧ pullHeader b s = .next (headerDone s1)) ∨
      ((s.pos + 1).toNat ≠ 6 ∧ pullHeader b s = .next s1)) ∨
    (6 ≤ s.pos.toNat ∧ pullHeader b s = .fault .headerIndex) := by
  unfold pullHeader
  by_cases h : s.pos.toNat < 6
  · refine .inl ⟨h, ?_⟩
    by_cases h6 : (s.pos + 1).toNat = 6
    · refine .inl ⟨h6, ?_⟩
      rw [dif_pos h]; exact if_pos h6
    · refine .inr ⟨h6, ?_⟩
      rw [dif_pos h]; exact if_neg h6
  · exact .inr ⟨by omega, dif_neg h⟩

/-- Where a body byte goes (R171). -/
theorem storeBody_payload {b : Byte} (hm : s.pbuf.wf = true) (h : s.pos.toNat < s.cap.flen.toNat) (hp : s.pos.toNat < 282) :
    storeBody b s = some { s with pbuf := s.pbuf.write (Config.pbufBase + s.pos.toNat) b } := by
  simp [storeBody, h, pbufWrite_wf hm hp]

theorem storeBody_dcs {b : Byte} (h : s.pos.toNat = s.cap.flen.toNat) :
    storeBody b s = some { s with cap := { s.cap with rxDcs := b } } := by
  simp [storeBody, h]

theorem storeBody_post {b : Byte} (h : s.cap.flen.toNat < s.pos.toNat) :
    storeBody b s = some { s with cap := { s.cap with rxPost := b } } := by
  have h1 : ¬ s.pos.toNat < s.cap.flen.toNat := by omega
  have h2 : ¬ s.pos.toNat = s.cap.flen.toNat := by omega
  simp [storeBody, h1, h2]

/-- The body's completion is an error exactly for a bad DCS under DCS_EN (R174). -/
theorem bodyDone_cases (q : List Byte) (s : State) :
    let s1 : State :=
      { s with
        cksum := cks q
        status := { s.status with dcsOk := dcsGood q s.cap.rxDcs, postOk := s.cap.rxPost == 0x00 } }
    (s.dcsEn = true ∧ dcsGood q s.cap.rxDcs = false ∧ bodyDone q s = complete .frameDataChecksumInvalid s1) ∨
    (¬ (s.dcsEn = true ∧ dcsGood q s.cap.rxDcs = false) ∧ bodyDone q s = complete .none { s1 with plen := s.cap.flen }) := by
  intro s1
  unfold bodyDone
  by_cases h : s.dcsEn = true ∧ dcsGood q s.cap.rxDcs = false
  · exact .inl ⟨h.1, h.2, if_pos h⟩
  · exact .inr ⟨h, if_neg h⟩

/-! ### The frame bytes -/

/-- Byte 1 and byte 0 of a length are the frame's LEN_HI and LEN_LO (R95). -/
theorem byteOf_high (v : Half) : byteOf v 1 = BitVec.ofNat 8 (v.toNat / 256) := by
  apply BitVec.eq_of_toNat_eq
  simp [byteOf, Nat.shiftRight_eq_div_pow]

theorem byteOf_low (v : Half) : byteOf v 0 = BitVec.ofNat 8 v.toNat := by
  apply BitVec.eq_of_toNat_eq
  simp [byteOf]

/-- The frame byte function gives the bytes of the frame of PBUF's payload, in order (R92, R156). -/
theorem frameByte_eq {m : Memory} {plen : Half} {p : List Byte} (hp : payload m plen.toNat = some p) (k : Nat) :
    frameByte m plen k = (frame p)[k]? := by
  obtain ⟨hl, hb⟩ := payload_eq_some.1 hp
  unfold frameByte frame
  simp only [byteOf_high, byteOf_low, hp, Option.map_some, hl]
  rcases Nat.lt_or_ge k 6 with hk | hk
  · have : k = 0 ∨ k = 1 ∨ k = 2 ∨ k = 3 ∨ k = 4 ∨ k = 5 := by omega
    rcases this with rfl | rfl | rfl | rfl | rfl | rfl <;> rfl
  · obtain ⟨j, rfl⟩ := Nat.exists_eq_add_of_le hk
    have hs : ([0x00, 0x00, 0xFF, BitVec.ofNat 8 (plen.toNat / 256), BitVec.ofNat 8 plen.toNat,
        lcs (BitVec.ofNat 8 (plen.toNat / 256)) (BitVec.ofNat 8 plen.toNat)] ++ p ++ [cks p, 0x00])[6 + j]? =
        (p ++ [cks p, 0x00])[j]? := by
      rw [List.append_assoc, List.getElem?_append_right (by simp)]
      simp
    rw [hs]
    have e1 : ¬ 6 + j = 0 := by omega
    have e2 : ¬ 6 + j = 1 := by omega
    have e3 : ¬ 6 + j = 2 := by omega
    have e4 : ¬ 6 + j = 3 := by omega
    have e5 : ¬ 6 + j = 4 := by omega
    have e6 : ¬ 6 + j = 5 := by omega
    simp only [e1, e2, e3, e4, e5, e6, if_false, Nat.add_sub_cancel_left]
    rcases Nat.lt_or_ge j p.length with hj | hj
    · rw [if_pos (by omega), List.getElem?_append_left hj, List.getElem?_eq_getElem hj]
      exact hb j hj
    · rw [List.getElem?_append_right hj, if_neg (by omega)]
      obtain ⟨i, rfl⟩ := Nat.exists_eq_add_of_le hj
      rcases i with _ | _ | i
      · rw [if_pos (by omega)]; simp
      · rw [if_neg (by omega), if_pos (by omega)]; simp
      · rw [if_neg (by omega), if_neg (by omega)]; simp

/-- What a TxAccept does while POS lies in the frame: the byte goes out, and the last one completes the command (R157). -/
theorem txAccept_next {p : List Byte} (hp : payload s.pbuf s.plen.toNat = some p) {b : Byte}
    (hb : (frame p)[s.pos.toNat]? = some b) :
    txAccept s =
      .next
        (let s1 : State := { s with txlog := s.txlog ++ [b], txcnt := s.txcnt + 1, pos := s.pos + 1 }
         if (s.pos + 1).toNat = s.plen.toNat + 8 then complete .none { s1 with cksum := cks p } else s1) := by
  unfold txAccept
  rw [frameByte_eq hp, hb]
  by_cases h : (s.pos + 1).toNat = s.plen.toNat + 8
  · simp only [h, if_true, hp]
  · simp only [h, if_false]

/-! ### The parser -/

/-- In canonical form PBUF has a CCID header, its byte `k` being PBUF[k] (R100). -/
theorem ccidHeader_some {m : Memory} (h : m.wf = true) :
    ∃ v, ccidHeader m = some v ∧ ∀ k (hk : k < 10), pbufRead m k = some v[k] := by
  obtain ⟨l, hl⟩ := pbufSlice_some h 10 0 (by omega)
  obtain ⟨hn, hb⟩ := pbufSlice_eq_some.1 hl
  match l, hn with
  | [b0, b1, b2, b3, b4, b5, b6, b7, b8, b9], _ =>
    refine ⟨#v[b0, b1, b2, b3, b4, b5, b6, b7, b8, b9], by simp [ccidHeader, hl], fun k hk => ?_⟩
    have := hb k (by simpa using hk)
    simpa using this

theorem ccidExtract_short {f : CcidRegs → ErrorCode} (h : s.plen.toNat < 10) :
    ccidExtract f s = .next (complete .ccidHeaderInvalid (ccidClear s)) := by
  simp [ccidExtract, h]

theorem ccidExtract_header {f : CcidRegs → ErrorCode} (h : 10 ≤ s.plen.toNat) {v : Vector Byte 10}
    (hv : ccidHeader s.pbuf = some v) :
    ccidExtract f s =
      .next (complete (f (ccidParsed v s.plen s.ccid.cstat)) { s with ccid := ccidParsed v s.plen s.ccid.cstat }) := by
  have : ¬ s.plen.toNat < 10 := by omega
  simp [ccidExtract, this, hv]

end Sys2Proof.Machine
end

