-- ==== Sys2Proof/Laws/HostPort.lean ====
section
/-! SUPPORT. What the host port's operations can do, said once (spec/20_memory.md R70, R71). -/

namespace Sys2Proof.Machine

/-- Everything the store of a host write can do (R70). -/
theorem hostStore_cases (a : HostAddr) (v : Byte) (s : State) :
    (a.toNat = 3 ∧ hostStore a v s = { s with dcsEn := v.getLsbD 0 }) ∨
    (a.toNat ≠ 3 ∧ a.toNat ≤ 7 ∧ hostStore a v s = { s with timeout := putByte s.timeout (a.toNat - 4) v }) ∨
    (7 < a.toNat ∧ a.toNat ≤ 9 ∧ hostStore a v s = { s with plen := putByte s.plen (a.toNat - 8) v }) ∨
    (9 < a.toNat ∧ hostStore a v s = { s with pbuf := s.pbuf.write a.toNat v }) := by
  unfold hostStore
  by_cases h3 : a.toNat = 3
  · exact .inl ⟨h3, if_pos h3⟩
  by_cases h7 : a.toNat ≤ 7
  · exact .inr (.inl ⟨h3, h7, by simp only [h3, h7, if_false, if_true]⟩)
  by_cases h9 : a.toNat ≤ 9
  · exact .inr (.inr (.inl ⟨by omega, h9, by simp only [h3, h7, h9, if_false, if_true]⟩))
  · exact .inr (.inr (.inr ⟨by omega, by simp only [h3, h7, h9, if_false]⟩))

theorem storable_iff (a : HostAddr) :
    storable a = true ↔ (3 ≤ a.toNat ∧ a.toNat ≤ 9) ∨ (0x100 ≤ a.toNat ∧ a.toNat ≤ 0x219) := by
  simp [storable]

/-- Above the registers a host read returns the memory's byte, or 0x00 where there is none (R66, R71). -/
theorem hostReadByte_memory (s : State) (a : HostAddr) (h : 0x02B ≤ a.toNat) :
    hostReadByte s a = (s.pbuf.read a.toNat).getD 0x00 := by
  unfold hostReadByte
  have hh : ¬ (0x010 ≤ a.toNat ∧ a.toNat ≤ 0x015) := by omega
  simp only [dif_neg hh]
  have hn (k : Nat) (hk : k < 0x02B) : ¬ a.toNat = k := by omega
  have hl (k : Nat) (hk : k < 0x02B) : ¬ a.toNat ≤ k := by omega
  simp only [hn, hl, Nat.reduceLT, if_false]

end Sys2Proof.Machine
end

