-- ==== Sys2Proof/Laws/Step.lean ====
section
/-! SUPPORT. What a step and an event can do, said once. -/

namespace Sys2Proof.Machine

variable {s t : State}

/-- The engine's own event is Finish in COMPUTE, RxPull in an RX phase with a byte in RXQ, and none elsewhere (R24, R226). -/
theorem engineEvent_compute (h : s.phase = .compute) : engineEvent s = some .finish := by
  simp [engineEvent, enabled, State.inRx, h]

theorem engineEvent_rx (h : s.phase = .decHdr ∨ s.phase = .decBody) (hq : s.rxq ≠ []) : engineEvent s = some .rxPull := by
  simp [engineEvent, enabled, inRx_eq_true.2 h, hq]

theorem engineEvent_none : engineEvent s = none ↔
    s.phase = .idle ∨ s.phase = .enc ∨ ((s.phase = .decHdr ∨ s.phase = .decBody) ∧ s.rxq = []) := by
  cases h : s.phase <;> simp [engineEvent, enabled, State.inRx, h]

/-- The engine's own event is enabled. -/
theorem engineEvent_enabled {e : Event} (h : engineEvent s = some e) : enabled e s = true := by
  unfold engineEvent at h
  split at h
  · cases h; assumption
  · split at h
    · cases h; assumption
    · cases h

theorem step_nil (h : s.sched = []) (he : engineEvent s = none) : step s = .next s := by simp [step, h, he]

theorem step_engine {e : Event} (h : s.sched = []) (he : engineEvent s = some e) : step s = applyEvent e s := by
  simp [step, h, he]

theorem step_cons {e : Event} {rest : List Event} (h : s.sched = e :: rest) :
    step s = applyEvent e { s with sched := rest } := by simp [step, h]

/-- All that a step can do: the schedule's next event, the engine's own when none is scheduled, or nothing. -/
theorem step_cases {o : Host.Outcome State Fault Refusal} (h : step s = o) :
    (∃ e rest, s.sched = e :: rest ∧ applyEvent e { s with sched := rest } = o) ∨
    (∃ e, s.sched = [] ∧ engineEvent s = some e ∧ applyEvent e s = o) ∨
    (s.sched = [] ∧ engineEvent s = none ∧ o = .next s) := by
  cases hs : s.sched with
  | cons e rest => exact .inl ⟨e, rest, rfl, by rw [← step_cons hs, h]⟩
  | nil =>
    cases he : engineEvent s with
    | some e => exact .inr (.inl ⟨e, rfl, rfl, by rw [← step_engine hs he, h]⟩)
    | none => exact .inr (.inr ⟨rfl, rfl, by rw [← h, step_nil hs he]⟩)

theorem steps_succ {n : Nat} (h : step s = .next t) : steps (n + 1) s = steps n t := by simp [steps, h]

theorem applyEvent_enabled {e : Event} (h : enabled e s = true) : applyEvent e s = effect e s := by
  simp [applyEvent, h]

theorem applyEvent_disabled {e : Event} (h : enabled e s = false) : applyEvent e s = .refused (.notEnabled e) := by
  simp [applyEvent, h]

/-- An event that gives a next state was enabled and its effect gave it. -/
theorem applyEvent_next {e : Event} (h : applyEvent e s = .next t) : enabled e s = true ∧ effect e s = .next t := by
  unfold applyEvent at h
  split at h
  · exact ⟨‹_›, h⟩
  · cases h

theorem applyEvents_cons_next {e : Event} {es : List Event} (h : applyEvent e s = .next t) :
    applyEvents (e :: es) s = applyEvents es t := by
  simp [applyEvents, h]

theorem applyEvents_append_next {es fs : List Event} (h : applyEvents es s = .next t) :
    applyEvents (es ++ fs) s = applyEvents fs t := by
  induction es generalizing s with
  | nil => cases h; rfl
  | cons e es ih =>
    simp only [List.cons_append, applyEvents] at h ⊢
    split at h
    · exact ih h
    · cases h
    · cases h

/-- The decoder gives a command exactly for its opcode (R104). -/
theorem decodeByte_eq_ok {v : Byte} {i : Instr} : decodeByte v = .ok i ↔ v = opcode i := by
  constructor
  · intro h
    unfold decodeByte at h
    split at h
    · rename_i r hr
      cases h
      have hm := List.mem_of_find?_eq_some hr
      have hp := List.find?_some hr
      have hv : v &&& 255#8 = v := BitVec.and_allOnes
      simp only [opcodeMap, List.mem_cons, List.not_mem_nil, or_false] at hm
      rcases hm with rfl | rfl | rfl | rfl | rfl | rfl <;> simpa [opcode, hv] using hp
    · cases h
  · rintro rfl; cases i <;> rfl

/-- A byte from 6 on has no command (R105). -/
theorem decodeByte_illegal {v : Byte} (h : 6 ≤ v.toNat) : decodeByte v = .error (.illegalOpcode v) := by
  cases hd : decodeByte v with
  | ok i =>
    have := decodeByte_eq_ok.1 hd
    subst this
    cases i <;> simp [opcode] at h
  | error e =>
    unfold decodeByte at hd
    split at hd
    · cases hd
    · exact hd.symm

/-- Finish moves the command that OP names (R124). -/
theorem finish_ok {i : Instr} (h : s.op = opcode i) : finish s = exec i s := by
  simp [finish, decodeByte_eq_ok.2 h]

/-- The command write of an idle engine (R120). -/
theorem hostWrite_cmd_idle {v : Byte} (h : s.phase = .idle) : hostWrite 0x000 v s = accept v s := by
  simp [hostWrite, State.busy, h]

theorem accept_ok {v : Byte} {i : Instr} (h : v = opcode i) : accept v s = exec i s := by
  simp [accept, decodeByte_eq_ok.2 h]

theorem accept_illegal {v : Byte} (h : 6 ≤ v.toNat) : accept v s = .next (acceptIllegal v s) := by
  simp [accept, decodeByte_illegal h]

end Sys2Proof.Machine
end

