-- ==== Sys2Proof/Laws/Inversion.lean ====
section
/-! SUPPORT. For each event and each shared operation, everything it can do when it gives a next state: what later proofs
cite instead of unfolding. -/

namespace Sys2Proof.Machine

/-- The six opcodes (R104). -/
theorem opcode_cases : ∀ v : Byte, v.toNat < 6 → v = 0 ∨ v = 1 ∨ v = 2 ∨ v = 3 ∨ v = 4 ∨ v = 5 := by
  decide

/-- What acceptance keeps, whatever the command byte (R120). -/
theorem accept_keeps {s t : State} {v : Byte} (hp : s.phase = .idle) (h : accept v s = .next t) :
    t.timeout = s.timeout ∧ t.dcsEn = s.dcsEn ∧ t.cksum = s.cksum ∧ t.ccid = s.ccid ∧ t.pbuf = s.pbuf ∧ t.rxq = s.rxq ∧
      t.txlog = s.txlog ∧ t.hasCcid = s.hasCcid := by
  rcases Nat.lt_or_ge v.toNat 6 with hv | hv
  · rcases opcode_cases v hv with rfl | rfl | rfl | rfl | rfl | rfl
    · rw [accept_ok (v := 0) (i := .nop) rfl] at h
      simp only [exec, execNop] at h; rw [runCommand_idle hp] at h; cases h; simp
    · rw [accept_ok (v := 1) (i := .cksum) rfl] at h
      simp only [exec, execCksum] at h; rw [runCommand_idle hp] at h; cases h; simp
    · rw [accept_ok (v := 2) (i := .encode) rfl] at h
      simp only [exec, execEncode, hp] at h; rw [runCommand_idle hp] at h; cases h
      unfold encodeAccept; simp only; split <;> simp
    · rw [accept_ok (v := 3) (i := .decode) rfl] at h
      simp only [exec, execDecode, hp] at h; rw [runCommand_idle hp] at h; cases h
      unfold decodeAccept enterRx; simp only; split <;> simp
    · rw [accept_ok (v := 4) (i := .ccidparse) rfl] at h
      simp only [exec, execCcidparse] at h; rw [runCommand_idle hp] at h; cases h; unfold ccidAccept; split <;> simp
    · rw [accept_ok (v := 5) (i := .ccidchk) rfl] at h
      simp only [exec, execCcidchk] at h; rw [runCommand_idle hp] at h; cases h; unfold ccidAccept; split <;> simp
  · rw [accept_illegal hv] at h; cases h; simp [acceptIllegal]

/-- All that a host write can do: accept a command, store its byte, set WIGN, or nothing (R70, R121). -/
theorem hostWrite_next {s t : State} {a : HostAddr} {v : Byte} (h : hostWrite a v s = .next t) :
    (s.phase = .idle ∧ a = 0 ∧ accept v s = .next t) ∨ (s.phase = .idle ∧ storable a = true ∧ t = hostStore a v s) ∨
      (s.phase ≠ .idle ∧ t = ignoreWrite s) ∨ t = s := by
  unfold hostWrite at h
  split at h
  · rename_i h0
    have : a = 0 := BitVec.eq_of_toNat_eq (by simpa using h0)
    split at h
    · cases h; exact .inr (.inr (.inl ⟨busy_eq_true.1 ‹_›, rfl⟩))
    · rename_i hb; exact .inl ⟨busy_eq_false.1 (by simpa using hb), this, h⟩
  · split at h
    · split at h
      · cases h; exact .inr (.inr (.inl ⟨busy_eq_true.1 ‹_›, rfl⟩))
      · rename_i hs hb; cases h; exact .inr (.inl ⟨busy_eq_false.1 (by simpa using hb), hs, rfl⟩)
    · cases h; exact .inr (.inr (.inr rfl))

/-- All that a parse can do: it completes, and of the other registers only the CCID registers change (R180, R181). -/
theorem ccidExtract_next {f : CcidRegs → ErrorCode} {s t : State} (h : ccidExtract f s = .next t) :
   ∃ e c, t = complete e { s with ccid := c } := by
  unfold ccidExtract at h
  split at h
  · cases h; exact ⟨_, _, rfl⟩
  · split at h
    · cases h; exact ⟨_, _, rfl⟩
    · cases h

/-- All that Finish can do (R124): a pending error completes; else the body that OP names runs. -/
theorem finish_next {s t : State} (hp : s.phase = .compute) (h : finish s = .next t) :
   (s.perr ≠ .none ∧ t = complete s.perr s) ∨
   (s.perr = .none ∧ ((s.op = 0 ∧ t = complete .none s) ∨ 
     (s.op = 1 ∧ ∃ p, payload s.pbuf s.plen.toNat = some p ∧ t = complete .none { s with cksum := cks p }) ∨
     ((s.op = 2 ∨ s.op = 3 ∨ 6 ≤ s.op.toNat) ∧ t = s) ∨
     ((s.op = 4 ∨ s.op = 5) ∧ ∃ e c, t = complete e { s with ccid := c }))) := by
  have fw : ∀ {body : State → Host.Outcome State Fault Refusal}, finishWith body s = .next t →
      (s.perr ≠ .none ∧ t = complete s.perr s) ∨ (s.perr = .none ∧ body s = .next t) := by
    intro body h
    unfold finishWith at h
    split at h
    · exact .inr ⟨‹_›, h⟩
    · cases h; exact .inl ⟨‹_›, rfl⟩
  rcases Nat.lt_or_ge s.op.toNat 6 with hv | hv
  · rcases opcode_cases s.op hv with ho | ho | ho | ho | ho | ho
    · rw [finish_ok (i := .nop) ho] at h; simp only [exec, execNop] at h; rw [runCommand_own hp ho] at h
      rcases fw h with h | ⟨h1, h2⟩
      · exact .inl h
      · cases h2; exact .inr ⟨h1, .inl ⟨ho, rfl⟩⟩
    · rw [finish_ok (i := .cksum) ho] at h; simp only [exec, execCksum] at h; rw [runCommand_own hp ho] at h
      rcases fw h with h | ⟨h1, h2⟩
      · exact .inl h
      · unfold cksumBody at h2
        split at h2
        · cases h2; exact .inr ⟨h1, .inr (.inl ⟨ho, _, ‹_›, rfl⟩)⟩
        · cases h2
    · rw [finish_ok (i := .encode) ho] at h; simp only [exec, execEncode, hp] at h; rw [runCommand_own hp ho] at h
      rcases fw h with h | ⟨h1, h2⟩
      · exact .inl h
      · cases h2; exact .inr ⟨h1, .inr (.inr (.inl ⟨.inl ho, rfl⟩))⟩
    · rw [finish_ok (i := .decode) ho] at h; simp only [exec, execDecode, hp] at h; rw [runCommand_own hp ho] at h
      rcases fw h with h | ⟨h1, h2⟩
      · exact .inl h
      · cases h2; exact .inr ⟨h1, .inr (.inr (.inl ⟨.inr (.inl ho), rfl⟩))⟩
    · rw [finish_ok (i := .ccidparse) ho] at h; simp only [exec, execCcidparse] at h; rw [runCommand_own hp ho] at h
      rcases fw h with h | ⟨h1, h2⟩
      · exact .inl h
      · exact .inr ⟨h1, .inr (.inr (.inr ⟨.inl ho, ccidExtract_next h2⟩))⟩
    · rw [finish_ok (i := .ccidchk) ho] at h; simp only [exec, execCcidchk] at h; rw [runCommand_own hp ho] at h
      rcases fw h with h | ⟨h1, h2⟩
      · exact .inl h
      · exact .inr ⟨h1, .inr (.inr (.inr ⟨.inr ho, ccidExtract_next h2⟩))⟩
  · simp only [finish, decodeByte_illegal hv, finishIllegal] at h
    rcases fw h with h | ⟨h1, h2⟩
    · exact .inl h
    · cases h2; exact .inr ⟨h1, .inr (.inr (.inl ⟨.inr (.inr hv), rfl⟩))⟩

/-- All that a TxAccept can do: one byte goes out, and the last one completes with the DCS in CKSUM (R150). -/
theorem txAccept_cases {s t : State} (h : txAccept s = .next t) :
   ∃ b, t = { s with txlog := s.txlog ++ [b], txcnt := s.txcnt + 1, pos := s.pos + 1 } ∨
    ∃ p, payload s.pbuf s.plen.toNat = some p ∧ t = complete .none
      { s with txlog := s.txlog ++ [b], txcnt := s.txcnt + 1, pos := s.pos + 1, cksum := cks p } := by
  unfold txAccept at h
  split at h
  · cases h
  · simp only at h
    split at h
    · split at h
      · cases h; exact ⟨_, .inr ⟨_, ‹_›, rfl⟩⟩
      · cases h
    · cases h; exact ⟨_, .inl rfl⟩

/-- All that a pull of a header byte can do: capture it, complete with an error, or enter the body phase (R167, R168). -/
theorem pullHeader_next {s t : State} {b : Byte} (h : pullHeader b s = .next t) :
   ∃ (c : Capture), (t = { s with cap := c, pos := s.pos + 1, rxcnt := s.rxcnt + 1 }) ∨
     (∃ (st : Status) (e : ErrorCode), t = complete e
        { s with cap := c, pos := s.pos + 1, rxcnt := s.rxcnt + 1, status := st, elapsed := t.elapsed }) ∨
     (t = { s with
        cap := c, pos := 0, rxcnt := s.rxcnt + 1, status := { s.status with hdrOk := true }, elapsed := 0
        phase := .decBody }) := by
  unfold pullHeader at h
  split at h
  · simp only at h
    split at h
    · cases h
      rename_i hlt _
      let v := s.cap.hdr.set s.pos.toNat b hlt
      refine ⟨{ s.cap with hdr := v, flen := lengthField v[3] v[4] }, .inr ?_⟩
      · unfold headerDone; simp only []
        split
        · exact .inl ⟨_, _, rfl⟩
        · split
          · exact .inl ⟨_, _, rfl⟩
          · split
            · exact .inl ⟨_, _, rfl⟩
            · by_cases ht : s.timeout = 0
              · rw [enterRx_zero _ (by exact ht)]; exact .inl ⟨_, _, rfl⟩
              · rw [enterRx_pos _ (by exact timeout_pos ht)]; exact .inr rfl
    · cases h; exact ⟨_, .inl rfl⟩
  · cases h

/-- Where a body byte can go: into PBUF at POS below FLEN, or into a capture register (R171). -/
theorem storeBody_next {s t : State} {b : Byte} (h : storeBody b s = some t) :
   (s.pos.toNat < s.cap.flen.toNat ∧ pbufWrite s.pbuf s.pos.toNat b = some t.pbuf ∧ t = { s with pbuf := t.pbuf }) ∨
   (s.cap.flen.toNat ≤ s.pos.toNat ∧ ∃ c, t = { s with cap := c } ∧ c.flen = s.cap.flen) := by
  unfold storeBody at h
  split at h
  · split at h
    · cases h; exact .inl ⟨‹_›, ‹_›, rfl⟩
    · cases h
  · split at h
    · cases h; exact .inr ⟨by omega, _, rfl, rfl⟩
    · cases h; exact .inr ⟨by omega, _, rfl, rfl⟩

/-- All that a pull of a body byte can do: store it, or store it and complete (R171, R174). -/
theorem pullBody_next {s t : State} {b : Byte} (h : pullBody b s = .next t) :
   ∃ s1, storeBody b s = some s1 ∧ (t = { s1 with pos := s1.pos + 1, rxcnt := s1.rxcnt + 1 } ∨
     ∃ q e st n, payload s1.pbuf s1.cap.flen.toNat = some q ∧
        t = complete e
          { s1 with pos := s1.pos + 1, rxcnt := s1.rxcnt + 1, cksum := cks q, status := st, plen := n } ∧ (e ≠ .none → n = s1.plen)) := by
  unfold pullBody at h
  split at h
  · cases h
  · simp only at h
    refine ⟨_, ‹_›, ?_⟩
    split at h
    · split at h
      · cases h
        right
        rename_i s1 _ _ q hq
        refine ⟨q, ?_⟩
        unfold bodyDone; simp only []
        split
        · exact ⟨_, _, _, hq, rfl, fun _ => rfl⟩
        · exact ⟨_, _, _, hq, rfl, fun h => absurd rfl h⟩
      · cases h
    · cases h; exact .inl rfl

/-- All that an event can do, event by event (R24). -/
theorem applyEvent_cases {s t : State} {e : Event} (h : applyEvent e s = .next t) :
   (∃ a v, e = .hostWrite a v ∧ hostWrite a v s = .next t) ∨
   (∃ a, e = .hostRead a ∧ t = hostRead a s) ∨
   (∃ b, e = .rxArrive b ∧ t = { s with rxq := s.rxq ++ [b] }) ∨
   (e = .rxPull ∧ ∃ b q, s.rxq = b :: q ∧
      ((s.phase = .decHdr ∧ pullHeader b { s with rxq := q } = .next t) ∨
        (s.phase = .decBody ∧ pullBody b { s with rxq := q } = .next t))) ∨
   (e = .txAccept ∧ s.phase = .enc ∧ txAccept s = .next t) ∨
   (e = .tick ∧ (t = s ∧ (s.phase ≠ .decHdr ∧ s.phase ≠ .decBody) ∨
      ((s.phase = .decHdr ∨ s.phase = .decBody) ∧ t = rxTick s))) ∨
   (e = .finish ∧ s.phase = .compute ∧ finish s = .next t) ∨
   (e = .reset ∧ t = resetBlock s) := by
  obtain ⟨he, hf⟩ := applyEvent_next h
  cases e with
  | hostWrite a v => exact .inl ⟨a, v, rfl, hf⟩
  | hostRead a => cases hf; exact .inr (.inl ⟨a, rfl, rfl⟩)
  | rxArrive b => cases hf; exact .inr (.inr (.inl ⟨b, rfl, rfl⟩))
  | rxPull =>
    refine .inr (.inr (.inr (.inl ⟨rfl, ?_⟩)))
    simp [enabled] at he
    obtain ⟨hr, hq0⟩ := he
    have hf : execDecode s = .next t := hf
    cases hq : s.rxq with
    | nil => exact absurd hq hq0
    | cons b q =>
      refine ⟨b, q, rfl, ?_⟩
      rcases inRx_eq_true.1 hr with hp | hp
      · have e : execDecode s = pullHeader b { s with rxq := q } := by simp only [execDecode, hp, hq]
        exact .inl ⟨hp, e.symm.trans hf⟩
      · have e : execDecode s = pullBody b { s with rxq := q } := by simp only [execDecode, hp, hq]
        exact .inr ⟨hp, e.symm.trans hf⟩
  | txAccept =>
    simp [enabled] at he
    have hf : execEncode s = .next t := hf
    simp only [execEncode, he] at hf
    exact .inr (.inr (.inr (.inr (.inl ⟨rfl, he, hf⟩))))
  | tick =>
    refine .inr (.inr (.inr (.inr (.inr (.inl ⟨rfl, ?_⟩)))))
    simp only [effect] at hf
    cases hr : s.inRx
    · simp [hr] at hf
      have := inRx_eq_false.1 hr
      exact .inl ⟨hf.symm, by rcases this with h | h | h <;> rw [h] <;> simp⟩
    · have hq : s.rxq = [] := by simpa [enabled, hr] using he
      have hr' := inRx_eq_true.1 hr
      simp only [hr, if_true] at hf
      have hf : execDecode s = .next t := hf
      refine .inr ⟨hr', ?_⟩
      rcases hr' with hp | hp <;> simp only [execDecode, hp, hq] at hf <;> cases hf <;> rfl
  | finish =>
    simp [enabled] at he
    exact .inr (.inr (.inr (.inr (.inr (.inr (.inl ⟨rfl, he, hf⟩))))))
  | reset => cases hf; exact .inr (.inr (.inr (.inr (.inr (.inr (.inr ⟨rfl, rfl⟩))))))

end Sys2Proof.Machine
end

