-- ==== Sys2Proof/Laws/PerInstr.lean ====
section
/-! SUPPORT. What is said of every instruction as syntax: one lemma per constructor of Instr. -/

namespace Sys2Proof.Laws.Encoding

/-- The instruction is well formed, has one byte, and decoding that byte, whatever follows, gives it back (R90, R104). -/
def Statement (i : Instr) : Prop :=
  i.wellFormed = true ∧ (encode i).length = 1 ∧ ∀ rest, decode (encode i ++ rest) = .ok (i, rest)

theorem nop : Statement .nop := ⟨rfl, rfl, fun _ => rfl⟩

theorem cksum : Statement .cksum := ⟨rfl, rfl, fun _ => rfl⟩

theorem encode : Statement .encode := ⟨rfl, rfl, fun _ => rfl⟩

theorem decode : Statement .decode := ⟨rfl, rfl, fun _ => rfl⟩

theorem ccidparse : Statement .ccidparse := ⟨rfl, rfl, fun _ => rfl⟩

theorem ccidchk : Statement .ccidchk := ⟨rfl, rfl, fun _ => rfl⟩

end Sys2Proof.Laws.Encoding
end

