-- ==== Sys2Proof/Tests/Slice0.lean ====
section
/-! SUPPORT. The model's own tests: words and values taken from the spec (each test names its place), and for every
statement of the certificate that has hypotheses a concrete state that meets them (theorems `witness_...`). -/

namespace Sys2Proof.Tests

open Sys2Proof.Machine

/-! ### Small states -/

/-- The cells of the bytes `l`, from address `a` on. -/
def cellsFrom (a : Nat) : List Byte → Memory
  | [] => []
  | b :: l => (a, b) :: cellsFrom (a + 1) l

/-- PBUF with the bytes `l` from index 0 on and 0x00 after them. -/
def buffer (l : List Byte) : Memory :=
  cellsFrom 0x100 ((l ++ List.replicate 282 0x00).take 282)

/-- The state after reset with `l` in PBUF and PLEN = `n`. -/
def idleWith (l : List Byte) (n : Half) : State := { State.reset with pbuf := buffer l, plen := n }

/-- Command `v` in COMPUTE over an idle state. -/
def computing (v : Byte) (e : ErrorCode) (s : State) : State := { s with phase := .compute, op := v, perr := e }

/-- ENCODE about to offer byte `k` of the frame of `l`. -/
def sending (l : List Byte) (k : Half) : State :=
  { idleWith l (BitVec.ofNat 16 l.length) with phase := .enc, op := 0x02, pos := k, txcnt := k }

/-- DECODE in the header phase with `h` captured and `q` in RXQ. -/
def inHeader (h : List Byte) (q : List Byte) : State :=
  let v : Vector Byte 6 := Vector.ofFn (fun i => h.getD i.val 0)
  { idleWith [] 0 with
    phase := .decHdr, op := 0x03, pos := BitVec.ofNat 16 h.length, rxcnt := BitVec.ofNat 16 h.length, rxq := q
    cap := { hdr := v, rxDcs := 0, rxPost := 0, flen := 0 } }

/-- DECODE in the body phase of an `n`-byte payload with `l` in PBUF, `k` body bytes received and `q` in RXQ. -/
def inBody (n k : Half) (l : List Byte) (dcs : Byte) (q : List Byte) : State :=
  { idleWith l 0 with
    phase := .decBody, op := 0x03, pos := k, rxcnt := 6 + k, rxq := q
    status := { State.reset.status with hdrOk := true }
    cap := { hdr := #v[0, 0, 0xFF, 0, 0, 0], rxDcs := dcs, rxPost := 0, flen := n } }

/-- A field of the next state, when there is one. -/
def field {α : Type} (o : Host.Outcome State Fault Refusal) (f : State → α) : Option α := (nextState? o).map f

theorem cellsFrom_keys (a : Nat) (l : List Byte) : (cellsFrom a l).map Prod.fst = List.range' a l.length := by
  induction l generalizing a with
  | nil => rfl
  | cons b l ih => simp [cellsFrom, ih, List.range'_succ]

theorem buffer_wf (l : List Byte) : (buffer l).wf = true := by
  have h : ((l ++ List.replicate 282 (0x00 : Byte)).take 282).length = 282 := by
    rw [List.length_take, List.length_append, List.length_replicate]; omega
  simp only [Memory.wf, buffer, cellsFrom_keys, h, beq_iff_eq]
  rfl

/-! ### Decoding: the command bytes of spec/30_encoding.md R104, R105, bit by bit as opcode_table.json gives them -/

theorem test_decode_nop : decode [0b00000000] = .ok (.nop, []) := rfl
theorem test_decode_cksum : decode [0b00000001] = .ok (.cksum, []) := rfl
theorem test_decode_encode : decode [0b00000010] = .ok (.encode, []) := rfl
theorem test_decode_decode : decode [0b00000011] = .ok (.decode, []) := rfl
theorem test_decode_ccidparse : decode [0b00000100] = .ok (.ccidparse, []) := rfl
theorem test_decode_ccidchk : decode [0b00000101] = .ok (.ccidchk, []) := rfl
theorem test_decode_first_reserved : decode [0x06] = .error (.illegalOpcode 0x06) := rfl
theorem test_decode_last_reserved : decode [0xFF] = .error (.illegalOpcode 0xFF) := rfl
theorem test_decode_nothing : decode [] = .error .noByte := rfl
theorem test_decode_keeps_the_rest : decode [0x03, 0x99] = .ok (.decode, [0x99]) := rfl
theorem test_decodeTableWord : decodeTableWord 8 0x05 = some .ccidchk ∧ decodeTableWord 8 0x06 = none := ⟨rfl, rfl⟩
/-- R109's examples, and a word of program P1 (95_test_vectors.md). -/
theorem test_transaction_words :
    decodeAccessWord 0x40003 = .ok (.write 0x000 0x03) ∧ decodeAccessWord 0x00100 = .ok (.read 0x001) ∧
      decodeAccessWord 0x500D4 = .ok (.write 0x100 0xD4) := ⟨rfl, rfl, rfl⟩
theorem test_opcode_rows_do_not_overlap :
    opcodeMap.Pairwise (fun r s => r.pattern &&& s.mask ≠ s.pattern &&& r.mask) := by decide

/-! ### WellFormed refuses ill-formed terms -/

theorem test_wellFormed_refuses_read_with_data : wordWellFormed 0x00101 = false := by decide
theorem test_decode_refuses_read_with_data : decodeAccessWord 0x00101 = .error (.readWithData 0x00101) := rfl
theorem test_wellFormed_refuses_wr16_past_the_end : (Stmt.wr16 0x3FF 0).wellFormed = false := by decide
theorem test_wellFormed_refuses_wr32_past_the_end : (Stmt.wr32 0x3FD 0).wellFormed = false := by decide
theorem test_wellFormed_refuses_rd16_past_the_end : (Stmt.rd16 0x3FF).wellFormed = false := by decide
theorem test_wellFormed_refuses_wrbuf_past_the_end : (Stmt.wrbuf 0x2FF [1, 2]).wellFormed = false := by decide
theorem test_wellFormed_accepts_the_last_pair : (Stmt.wr16 0x3FE 0).wellFormed = true := by decide
theorem test_every_command_is_wellFormed : ∀ i : Instr, i.wellFormed = true := fun i => by cases i <;> rfl

/-! ### One step of each instruction (values from the rules' examples and the vectors of 95_test_vectors.md) -/

/-- R126: NOP leaves STATUS = 0x02. -/
theorem test_nop : field (exec .nop (computing 0x00 .none (idleWith [] 0))) statusByte = some 0x02 := by decide
/-- N2: opcode 0x06 ends with STATUS = 0x06, ERR = 0x08. -/
theorem test_illegal :
    field (finishIllegal (computing 0x06 .illegalCommand (idleWith [] 0))) (fun s => (statusByte s, s.err.code)) =
      some (0x06, 0x08) := by decide
/-- R141: 01 02 03 gives CKSUM = 0xFA. -/
theorem test_cksum : field (exec .cksum (computing 0x01 .none (idleWith [1, 2, 3] 3))) State.cksum = some 0xFA := by
  decide
/-- C11: PLEN = 283 gives PERR = PLEN_RANGE at acceptance. -/
theorem test_cksum_range : field (exec .cksum (idleWith [] 283)) State.perr = some .plenRange := by decide
/-- R150: the length checksum of 282 is 0xE5, frame byte 5. -/
theorem test_encode_lcs :
    field (exec .encode { sending [] 5 with plen := 282 }) (fun s => s.txlog) = some [0xE5] := by decide
/-- E2: the last byte of the frame of D4 02 completes with CKSUM = 0x2A and TXCNT = 10. -/
theorem test_encode_last :
    field (exec .encode (sending [0xD4, 0x02] 9)) (fun s => (s.cksum, s.txcnt, statusByte s)) = some (0x2A, 10, 0x02) := by
  decide
/-- D1: the postamble of the frame of D4 02 completes with STATUS = 0x5A and PLEN = 2. -/
theorem test_decode_last :
    field (exec .decode (inBody 2 3 [0xD4, 0x02] 0x2A [0x00])) (fun s => (statusByte s, s.plen, s.rxcnt)) =
      some (0x5A, 2, 10) := by decide
/-- D13: a swapped length passes the LCS check and is too long: FLEN = 6657, ERR = 0x04. -/
theorem test_decode_swapped_length :
    field (exec .decode (inHeader [0x00, 0x00, 0xFF, 0x1A, 0x01] [0xE5, 0x07]))
      (fun s => (s.cap.flen, s.err.code, s.rxq)) = some (6657, 0x04, [0x07]) := by decide
/-- K7: an escape header with SLOT = 1. -/
theorem test_ccidparse :
    field (exec .ccidparse (computing 0x04 .none (idleWith [0x6B, 3, 0, 0, 0, 1, 9, 0, 0, 0, 0xAA, 0xBB, 0xCC] 13)))
      (fun s => (s.ccid.cstat, s.ccid.clen, s.ccid.seq, s.err.code)) = some (0x15, 3, 0x09, 0x00) := by decide
/-- R100, R180: CLEN is little-endian over bytes 1..4. -/
theorem test_ccidparse_length :
    field (exec .ccidparse (computing 0x04 .none (idleWith [0x83, 1, 2, 3, 4, 0, 0, 2, 0, 0] 10)))
      (fun s => s.ccid.clen.toNat) = some (1 + 2 * 256 + 3 * 65536 + 4 * 16777216) := by decide
/-- K3: a good escape response: CSTAT = 0x4F, ERR = 0x00. -/
theorem test_ccidchk :
    field (exec .ccidchk (computing 0x05 .none (idleWith [0x83, 5, 0, 0, 0, 0, 7, 2, 0, 0, 0xC0, 3, 0, 0x90, 0] 15)))
      (fun s => (s.ccid.cstat, s.err.code)) = some (0x4F, 0x00) := by decide
/-- K4: the same with status byte 0x00: CSTAT = 0x47, ERR = 0x06. -/
theorem test_ccidchk_bad_status :
    field (exec .ccidchk (computing 0x05 .none (idleWith [0x83, 5, 0, 0, 0, 0, 7, 0, 0, 0, 0xC0, 3, 0, 0x90, 0] 15)))
      (fun s => (s.ccid.cstat, s.err.code)) = some (0x47, 0x06) := by decide

/-! ### Events around the commands -/

/-- R1: the reset value of TIMEOUT reads E8 03 00 00. -/
theorem test_read_timeout : [0x004, 0x005, 0x006, 0x007].map (hostReadByte State.reset) = [0xE8, 0x03, 0x00, 0x00] := by
  decide
/-- N5: CFG stores bit 0 alone. -/
theorem test_write_cfg : field (hostWrite 0x003 0xFF State.reset) (fun s => hostReadByte s 0x003) = some 0x01 := by decide
/-- D25: a write while busy leaves TIMEOUT and gives STATUS = 0x21. -/
theorem test_write_while_busy :
    field (hostWrite 0x004 0x05 (inHeader [0, 0, 0xFF] [])) (fun s => (s.timeout, statusByte s)) = some (1000, 0x21) := by
  decide
/-- E11: a write to a reserved address while busy does not set WIGN. -/
theorem test_reserved_write_while_busy :
    field (hostWrite 0x00B 0x01 (sending [0xD4, 0x02] 3)) statusByte = some 0x01 := by decide
/-- D21: with TIMEOUT = 1 one Tick ends the DECODE: STATUS = 0x06, ERR = 0x01. -/
theorem test_tick_times_out :
    field (applyEvent .tick { inHeader [] [] with timeout := 1 }) (fun s => (statusByte s, s.err.code)) =
      some (0x06, 0x01) := by decide
/-- R24: no Tick while RXQ holds a byte in an RX phase. -/
theorem test_tick_waits : applyEvent .tick (inHeader [] [0x00]) = .refused (.notEnabled .tick) := rfl
/-- S2: the LCS of length 282 (01 1A) is 0xE5. -/
theorem test_lcs : lcs 0x01 0x1A = 0xE5 ∧ cks [0x01, 0x1A] = 0xE5 := by decide
/-- E2: the frame of D4 02. -/
theorem test_frame : frame [0xD4, 0x02] = [0x00, 0x00, 0xFF, 0x00, 0x02, 0xFE, 0xD4, 0x02, 0x2A, 0x00] := by decide
/-- R110: wr32 expands to four writes, low byte first. -/
theorem test_expand_wr32 :
    expand (.wr32 0x004 0x01020304) = [.wr 0x004 0x04, .wr 0x005 0x03, .wr 0x006 0x02, .wr 0x007 0x01] := by decide
/-- The step after withFetchWord accepts the command, from reset. -/
theorem test_fetch : field (step (State.reset.withFetchWord 8 0x02)) (fun s => (s.phase, s.op)) = some (.enc, 0x02) := by
  decide

/-- R226: with nothing scheduled a CKSUM in COMPUTE finishes; a TxAccept is the transport's and does not come by itself. -/
theorem test_step_finishes :
    field (step (computing 0x01 .none (idleWith [1, 2, 3] 3))) (fun s => (s.phase, s.cksum)) = some (.idle, 0xFA) ∧
      field (step (sending [] 2)) State.txlog = some [] := by decide

/-! ### Witnesses: states that meet the hypotheses of the statements -/

/-- DCS_OK and POST_OK are both 0. -/
theorem no_checks {P : Prop} (h : false = true ∨ false = true) : P := by
  rcases h with h | h <;> cases h

theorem inv_idle (l : List Byte) (n : Half) : (idleWith l n).Inv :=
  ⟨buffer_wf l, rfl, fun h => absurd rfl h, Nat.zero_le _, Nat.zero_le _, no_checks,
    (by decide : (0 : Byte).getLsbD 7 = false), fun _ => rfl, rfl, rfl⟩

theorem inv_sending : (sending [0xD4, 0x02] 3).Inv :=
  ⟨buffer_wf _, rfl, fun _ => ⟨rfl, rfl⟩, by decide, by decide, by decide, by decide, fun _ => rfl,
    rfl, rfl, by decide, by decide, rfl⟩

theorem inv_inHeader (h q : List Byte) (hl : h.length ≤ 5) : (inHeader h q).Inv := by
  have e : (BitVec.ofNat 16 h.length).toNat = h.length := by simp; omega
  refine ⟨buffer_wf _, rfl, fun _ => ⟨rfl, rfl⟩, Nat.zero_le _, ?_, no_checks,
    (by decide : (0 : Byte).getLsbD 7 = false), fun _ => rfl, ?_⟩
  · show (BitVec.ofNat 16 h.length).toNat ≤ 290
    omega
  · exact ⟨rfl, rfl, rfl, by show (BitVec.ofNat 16 h.length).toNat ≤ 5; omega, rfl, Nat.zero_lt_succ 999, rfl, rfl⟩

theorem inv_inBody : (inBody 2 1 [0xD4] 0 [0x02]).Inv :=
  ⟨buffer_wf _, rfl, fun _ => ⟨rfl, rfl⟩, by decide, by decide, fun _ => rfl, by decide, fun _ => rfl,
    rfl, rfl, rfl, by decide, by decide, by decide, by decide, rfl, rfl, rfl⟩

theorem inv_computing : (computing 0x01 .none (idleWith [1, 2, 3] 3)).Inv :=
  ⟨buffer_wf _, rfl, fun _ => ⟨rfl, rfl⟩, by decide, by decide, by decide, by decide, fun _ => rfl,
    rfl, .inl ⟨rfl, .inr ⟨.inl rfl, by decide⟩⟩⟩

/-- The payload of an idle test state. -/
theorem payload_idleWith : payload (idleWith [0xD4, 0x02] 2).pbuf (idleWith [0xD4, 0x02] 2).plen.toNat = some [0xD4, 0x02] := by
  decide

theorem witness_StepTakesTheNextEvent :
    ({ State.reset with sched := [.tick] } : State).sched = .tick :: [] ∧
    ((computing 0x00 .none State.reset).sched = [] ∧ (computing 0x00 .none State.reset).phase = .compute) ∧
    ((inHeader [] [0]).sched = [] ∧ (inHeader [] [0]).phase = .decHdr ∧ (inHeader [] [0]).rxq ≠ []) ∧
    (State.reset.sched = [] ∧ State.reset.phase = .idle) ∧ ((sending [] 0).sched = [] ∧ (sending [] 0).phase = .enc) ∧
    ((inBody 0 0 [] 0 []).sched = [] ∧ (inBody 0 0 [] 0 []).phase = .decBody ∧ (inBody 0 0 [] 0 []).rxq = []) := by decide

theorem witness_CommandWriteRunsTheDecodedInstruction :
    let s : State := { State.reset with sched := [.hostWrite 0x000 0x05] }
    let r : State := { State.reset with sched := [.hostWrite 0x000 0x06] }
    (s.sched = .hostWrite 0x000 0x05 :: [] ∧ s.phase = .idle ∧ decode [0x05] = .ok (.ccidchk, [])) ∧
    (r.sched = .hostWrite 0x000 0x06 :: [] ∧ r.phase = .idle ∧ decode [0x06] = .error (.illegalOpcode 0x06)) :=
  ⟨⟨rfl, rfl, rfl⟩, ⟨rfl, rfl, rfl⟩⟩

theorem witness_RunningCommandMovesByExec :
    let c : State := { computing 0x05 .none State.reset with sched := [.finish] }
    let e : State := { sending [] 0 with sched := [.txAccept] }
    let h : State := { inHeader [] [0x00] with sched := [.rxPull] }
    let b : State := { inBody 0 0 [] 0 [] with sched := [.tick] }
    (c.sched = [.finish] ∧ c.phase = .compute ∧ decode [c.op] = .ok (.ccidchk, [])) ∧
    (e.sched = [.txAccept] ∧ e.phase = .enc) ∧
    (h.sched = [.rxPull] ∧ h.phase = .decHdr ∧ h.rxq ≠ []) ∧
    (b.sched = [.tick] ∧ b.phase = .decBody ∧ b.rxq = []) := by decide

theorem witness_FetchWordRunsTheTableInstruction :
    decodeTableWord 8 0x00 = some .nop ∧ decodeTableWord 8 0x05 = some .ccidchk := ⟨rfl, rfl⟩

theorem witness_CommandAcceptance :
    let s := idleWith [] 283
    let a : State := { s with hasCcid := false }
    s.phase = .idle ∧ 6 ≤ (0x06 : Byte).toNat ∧ 6 ≤ (0xFF : Byte).toNat ∧ a.hasCcid = false ∧ s.hasCcid = true ∧
      282 < s.plen.toNat ∧ ¬ 282 < (idleWith [] 282).plen.toNat ∧
      s.timeout ≠ 0 ∧ ({ s with timeout := 0 } : State).timeout = 0 := by decide

theorem witness_BusyWritesAreIgnored :
    (sending [] 0).phase ≠ .idle ∧
    (∀ a ∈ [(0x000 : HostAddr), 0x003, 0x009, 0x100, 0x219],
      a = 0x000 ∨ (0x003 ≤ a.toNat ∧ a.toNat ≤ 0x009) ∨ (0x100 ≤ a.toNat ∧ a.toNat ≤ 0x219)) ∧
    (∀ a ∈ [(0x001 : HostAddr), 0x002, 0x00A, 0x00B, 0x0FF, 0x21A, 0x3FF],
      ¬ (a = 0x000 ∨ (0x003 ≤ a.toNat ∧ a.toNat ≤ 0x009) ∨ (0x100 ≤ a.toNat ∧ a.toNat ≤ 0x219))) ∧
    applyEvent .reset (sending [] 0) = .next (resetBlock (sending [] 0)) ∧ (resetBlock (sending [] 0)).phase = .idle ∧
      (resetBlock (sending [] 0)).status.done = false :=
  ⟨by decide, by simp, by simp, rfl, rfl, rfl⟩

theorem witness_OtherCommandIsTurnedAway :
    (sending [0xD4, 0x02] 3).Inv ∧ (sending [0xD4, 0x02] 3).phase ≠ .idle ∧
      decodeByte (sending [0xD4, 0x02] 3).op ≠ .ok .nop := ⟨inv_sending, by decide, fun h => by cases h⟩

theorem witness_CommandsEndOnlyByTheirOwnEvents :
    let c := computing 0x00 .none State.reset
    let d := inHeader [] []
    (c.phase ≠ .idle ∧ applyEvent .finish c = .next (complete .none c) ∧ (complete .none c).phase = .idle) ∧
    (c.phase ≠ .idle ∧ applyEvent .reset c = .next (resetBlock c) ∧ (resetBlock c).phase = .idle) ∧
    (d.phase ≠ .idle ∧ field (applyEvent .tick { d with timeout := 1 }) State.phase = some .idle) :=
  ⟨⟨by decide, rfl, rfl⟩, ⟨by decide, rfl, rfl⟩, ⟨by decide, rfl⟩⟩

theorem witness_FailedDecodeLeavesLengthZero :
    ∃ t u : State,
      (inHeader [0, 0, 0xFE, 0, 0] [0]).Inv ∧ (inHeader [0, 0, 0xFE, 0, 0] [0]).phase = .decHdr ∧
      applyEvent .rxPull (inHeader [0, 0, 0xFE, 0, 0] [0]) = .next t ∧ t.phase = .idle ∧ t.err ≠ .none ∧
      (idleWith [] 5).Inv ∧ (idleWith [] 5).phase = .idle ∧
      applyEvent (.hostWrite 0x000 0x03) (idleWith [] 5) = .next u :=
  ⟨_, _, inv_inHeader _ _ (by decide), rfl, rfl, rfl, by decide, inv_idle _ _, rfl, rfl⟩

theorem witness_IdleWritesStoreOneByte :
    (idleWith [] 0).pbuf.wf = true ∧ (idleWith [] 0).phase = .idle ∧
    (∀ a ∈ [(0x003 : HostAddr), 0x009, 0x100, 0x219],
      a ≠ 0x000 ∧ ((0x003 ≤ a.toNat ∧ a.toNat ≤ 0x009) ∨ (0x100 ≤ a.toNat ∧ a.toNat ≤ 0x219))) ∧
    (∀ a ∈ [(0x001 : HostAddr), 0x002, 0x00A, 0x0FF, 0x21A, 0x3FF],
      a ≠ 0x000 ∧ ¬ ((0x003 ≤ a.toNat ∧ a.toNat ≤ 0x009) ∨ (0x100 ≤ a.toNat ∧ a.toNat ≤ 0x219))) :=
  ⟨buffer_wf _, rfl, by simp, by simp⟩

/-- Also the hypotheses of HostReadsReturnTheRegisters. -/
theorem witness_ReservedAddressesDoNothing :
    (idleWith [] 0).pbuf.wf = true ∧ (idleWith [] 0).hasCcid = true ∧
    (∀ a ∈ [(0x00B : HostAddr), 0x01A, 0x01F, 0x02B, 0x0FF, 0x21A, 0x3FF], reservedAddress true a) ∧
    (∀ a ∈ [(0x020 : HostAddr), 0x02A], reservedAddress false a ∧ ¬ reservedAddress true a) := by
  refine ⟨buffer_wf _, rfl, ?_, ?_⟩ <;> simp [reservedAddress]

theorem witness_MultiByteWritesSetTheRegister : (idleWith [] 0).phase = .idle := rfl

/-- A write to each register that changes it, an arrival, a Tick. -/
theorem witness_IdleRegistersStay :
    let s := idleWith [] 0
    s.phase = .idle ∧ field (applyEvent (.hostWrite 0x003 0x01) s) State.dcsEn = some true ∧
      field (applyEvent (.hostWrite 0x007 0x01) s) State.timeout = some 0x010003E8 ∧
      field (applyEvent (.hostWrite 0x008 0x02) s) State.plen = some 2 ∧
      field (applyEvent (.hostWrite 0x219 0x05) s) (fun t => pbufRead t.pbuf 281) = some (some 0x05) ∧
      field (applyEvent (.rxArrive 7) s) State.rxq = some [7] ∧ field (applyEvent .tick s) State.rxq = some [] := by
  decide

/-- Every phase, and a cycle with nothing in it beside one with everything. -/
theorem witness_PortsFollowThePhase :
    let c : Cycle := { rst := false, rxOffer := true, txReady := true, finish := true, tick := true, host := some (.read 0x001) }
    let n : Cycle := { rst := false, rxOffer := false, txReady := false, finish := false, tick := false, host := none }
    payload (idleWith [0xD4, 0x02] 2).pbuf (idleWith [0xD4, 0x02] 2).plen.toNat = some [0xD4, 0x02] ∧
    c.rst = false ∧ n.rst = false ∧ ({ c with rst := true } : Cycle).rst = true ∧
    State.reset.phase = .idle ∧ (computing 0x00 .none State.reset).phase = .compute ∧ (sending [] 0).phase = .enc ∧
    (inHeader [] [0]).phase = .decHdr ∧ (inBody 0 0 [] 0 []).phase = .decBody :=
  ⟨payload_idleWith, by decide⟩

theorem witness_PlatformAddressesAreOffset : hostAddressOf Config.codecBase = some 0x000 := by
  simp [hostAddressOf]

theorem witness_NopCompletesWithNone :
    let c := computing 0x00 .none State.reset
    State.reset.phase = .idle ∧ c.phase = .compute ∧ c.op = 0x00 ∧ c.perr = .none ∧ c.phase ≠ .idle := by decide

theorem witness_IllegalOpcodesCompleteWithTheirError :
    State.reset.phase = .idle ∧ State.reset.pos = 0 ∧ 6 ≤ (0x06 : Byte).toNat ∧ 6 ≤ (0xFF : Byte).toNat ∧
      ({ State.reset with hasCcid := false } : State).hasCcid = false ∧ (sending [] 0).phase ≠ .idle := by decide

theorem witness_CksumComputesTheChecksum :
    let c := computing 0x01 .none (idleWith [] 282)
    let r := computing 0x01 .plenRange (idleWith [] 283)
    (idleWith [] 0).phase = .idle ∧ (r.phase = .compute ∧ r.op = 0x01 ∧ r.perr = .plenRange) ∧
    (c.phase = .compute ∧ c.op = 0x01 ∧ c.perr = .none ∧ c.pbuf.wf = true ∧ c.plen.toNat ≤ 282) :=
  ⟨rfl, ⟨rfl, rfl, rfl⟩, ⟨rfl, rfl, rfl, buffer_wf _, by decide⟩⟩

theorem witness_LengthOutOfRangeIsRefused :
    (idleWith [] 283).phase = .idle ∧ (idleWith [] 283).pos = 0 ∧ 282 < (idleWith [] 283).plen.toNat ∧
      (idleWith [] 283).hasCcid = true := by decide

/-- A byte before the last, and the last byte, of the frame of D4 02. -/
theorem witness_EncodeEmitsTheNextFrameByte :
    let s := sending [0xD4, 0x02] 0
    let z := sending [0xD4, 0x02] 9
    let r := computing 0x02 .plenRange (idleWith [] 283)
    (r.phase = .compute ∧ r.op = 0x02 ∧ r.perr = .plenRange) ∧
    (s.phase = .enc ∧ s.plen.toNat ≤ 282 ∧ s.pos.toNat ≤ s.plen.toNat + 7 ∧ s.pos.toNat < s.plen.toNat + 7 ∧
      payload s.pbuf s.plen.toNat = some [0xD4, 0x02]) ∧
    (z.phase = .enc ∧ z.pos.toNat = z.plen.toNat + 7 ∧ payload z.pbuf z.plen.toNat = some [0xD4, 0x02]) := by
  decide

theorem witness_EncodeSendsTheWholeFrame :
    let s := idleWith [0xD4, 0x02] 2
    s.phase = .idle ∧ s.plen.toNat ≤ 282 ∧ payload s.pbuf s.plen.toNat = some [0xD4, 0x02] :=
  ⟨rfl, by decide, payload_idleWith⟩

/-- No byte accepted before the Reset, and all but the last. -/
theorem witness_ResetCutsTheFrameShort :
    let s := idleWith [0xD4, 0x02] 2
    s.phase = .idle ∧ s.plen.toNat ≤ 282 ∧ payload s.pbuf s.plen.toNat = some [0xD4, 0x02] ∧
      0 < s.plen.toNat + 8 ∧ 9 < s.plen.toNat + 8 := ⟨rfl, by decide, payload_idleWith, by decide, by decide⟩

/-- With other events between, and with every byte of the frame but the last accepted. -/
theorem witness_EncodeSendsTheFrameUnderEverySchedule :
    let s := idleWith [0xD4, 0x02] 2
    let es : List Event := [.rxArrive 7, .txAccept, .tick, .hostWrite 0x100 1]
    let fs : List Event := List.replicate 9 .txAccept
    s.phase = .idle ∧ s.plen.toNat ≤ 282 ∧ payload s.pbuf s.plen.toNat = some [0xD4, 0x02] ∧
    (.reset ∉ es ∧ es.count .txAccept ≤ s.plen.toNat + 7 ∧
      (nextState? (applyEvents (.hostWrite 0x000 0x02 :: es) s)).isSome = true) ∧
    (.reset ∉ fs ∧ fs.count .txAccept = s.plen.toNat + 7 ∧
      (nextState? (applyEvents (.hostWrite 0x000 0x02 :: fs) s)).isSome = true) := by decide

theorem witness_DecodeAcceptanceClearsAndEnters :
    (idleWith [] 0).phase = .idle ∧ (idleWith [] 0).timeout ≠ 0 ∧
      ({ idleWith [] 0 with timeout := 0 } : State).timeout = 0 := by decide

theorem witness_HeaderBytesAreCaptured :
    let s := inHeader [0, 0, 0xFF, 0] [2, 0xFE]
    s.phase = .decHdr ∧ s.pos.toNat < 5 ∧ s.rxq = 2 :: [0xFE] := by decide

/-- One header for each of the four outcomes. -/
theorem witness_HeaderChecksRunInOrder :
    let ok (h : Vector Byte 6) : Bool := decide (h[0] = 0x00 ∧ h[1] = 0x00 ∧ h[2] = 0xFF)
    let sum (h : Vector Byte 6) : Nat := (h[3].toNat + h[4].toNat + h[5].toNat) % 256
    let len (h : Vector Byte 6) : Nat := (BitVec.ofNat 16 (h[3].toNat * 256 + h[4].toNat)).toNat
    let s := inHeader [0, 0, 0xFF, 1, 0x1A] [0xE5]
    s.phase = .decHdr ∧ s.pos.toNat = 5 ∧ s.rxq = [0xE5] ∧
    ok #v[0, 1, 0xFF, 0, 2, 0xFE] = false ∧
    (ok #v[0, 0, 0xFF, 0, 2, 0xFF] = true ∧ sum #v[0, 0, 0xFF, 0, 2, 0xFF] ≠ 0) ∧
    (ok #v[0, 0, 0xFF, 1, 0x1B, 0xE4] = true ∧ sum #v[0, 0, 0xFF, 1, 0x1B, 0xE4] = 0 ∧
      282 < len #v[0, 0, 0xFF, 1, 0x1B, 0xE4]) ∧
    (ok #v[0, 0, 0xFF, 1, 0x1A, 0xE5] = true ∧ sum #v[0, 0, 0xFF, 1, 0x1A, 0xE5] = 0 ∧
      len #v[0, 0, 0xFF, 1, 0x1A, 0xE5] ≤ 282) := by decide

theorem witness_FailedHeaderTakesSixBytes :
    let s (h : Vector Byte 6) : State := { idleWith [] 0 with rxq := h.toList ++ [9] }
    let h1 : Vector Byte 6 := #v[0, 1, 0xFF, 0, 2, 0xFE]
    let h2 : Vector Byte 6 := #v[0, 0, 0xFF, 0, 2, 0xFF]
    let h3 : Vector Byte 6 := #v[0, 0, 0xFF, 1, 0x1B, 0xE4]
    (s h1).phase = .idle ∧ (s h1).timeout ≠ 0 ∧ (s h1).rxq = h1.toList ++ [9] ∧
    ¬ (h1[0] = 0x00 ∧ h1[1] = 0x00 ∧ h1[2] = 0xFF) ∧
    ((h2[0] = 0x00 ∧ h2[1] = 0x00 ∧ h2[2] = 0xFF) ∧ (h2[3].toNat + h2[4].toNat + h2[5].toNat) % 256 ≠ 0) ∧
    ((h3[0] = 0x00 ∧ h3[1] = 0x00 ∧ h3[2] = 0xFF) ∧ (h3[3].toNat + h3[4].toNat + h3[5].toNat) % 256 = 0 ∧
      282 < h3[3].toNat * 256 + h3[4].toNat) := by decide

/-- The last payload byte of an `n`-byte body, and its DCS. -/
theorem witness_BodyBytesAreStored :
    let s := inBody 282 281 [] 0 [7]
    let d := inBody 0 0 [] 0 [7]
    (s.phase = .decBody ∧ s.pbuf.wf = true ∧ s.cap.flen.toNat ≤ 282 ∧ s.pos.toNat ≤ s.cap.flen.toNat ∧ s.rxq = 7 :: [] ∧
      s.pos.toNat < s.cap.flen.toNat) ∧
    (d.phase = .decBody ∧ d.pbuf.wf = true ∧ d.cap.flen.toNat ≤ 282 ∧ d.pos.toNat = d.cap.flen.toNat ∧ d.rxq = 7 :: []) :=
  ⟨⟨rfl, buffer_wf _, by decide⟩, ⟨rfl, buffer_wf _, by decide⟩⟩

/-- A good DCS, and a bad one under DCS_EN. -/
theorem witness_BodyCompletionReportsTheChecks :
    let s : State := { inBody 2 3 [0xD4, 0x02] 0x2B [0x00] with dcsEn := true }
    s.phase = .decBody ∧ s.pbuf.wf = true ∧ s.cap.flen.toNat ≤ 282 ∧ s.pos.toNat = s.cap.flen.toNat + 1 ∧ s.rxq = 0 :: [] ∧
      s.dcsEn = true ∧ dcsGood [0xD4, 0x02] 0x2B = false ∧ dcsGood [0xD4, 0x02] 0x2A = true :=
  ⟨rfl, buffer_wf _, by decide⟩

theorem witness_TicksCountInRxPhasesOnly :
    (inHeader [] []).phase = .decHdr ∧ (inHeader [] []).rxq = [] ∧ (inBody 0 0 [] 0 []).phase = .decBody ∧
      (idleWith [] 0).phase ≠ .decHdr ∧ (idleWith [] 0).phase ≠ .decBody := by decide

theorem witness_BodyTimeoutKeepsWhatArrived :
    let s : State := { inBody 2 1 [0xD4] 0 [] with elapsed := 999 }
    s.Inv ∧ s.phase = .decBody ∧ s.rxq = [] ∧ s.timeout.toNat ≤ s.elapsed.toNat + 1 :=
  ⟨⟨buffer_wf _, rfl, fun _ => ⟨rfl, rfl⟩, by decide, by decide, fun _ => rfl, by decide, fun _ => rfl,
    rfl, rfl, rfl, by decide, by decide, by decide, by decide, rfl, rfl, rfl⟩, rfl, rfl, by decide⟩

/-- The shortest and the longest payload. -/
theorem witness_DecodeReadsAFrame :
    let s (p : List Byte) : State := { idleWith [] 0 with rxq := frame p ++ [9] }
    (∀ p, (s p).phase = .idle ∧ (s p).pbuf.wf = true ∧ (s p).timeout ≠ 0 ∧ (s p).rxq = frame p ++ [9]) ∧
    ([] : List Byte).length ≤ 282 ∧ (List.replicate 282 (0xFF : Byte)).length ≤ 282 :=
  ⟨fun _ => ⟨rfl, buffer_wf _, by simp [idleWith, State.reset, Config.timeoutReset], rfl⟩, Nat.zero_le _, List.length_replicate.le⟩

theorem witness_DecodeOfEncodeIsThePayload :
    let s := idleWith [0xD4, 0x02] 2
    s.phase = .idle ∧ s.pbuf.wf = true ∧ s.plen.toNat ≤ 282 ∧ payload s.pbuf s.plen.toNat = some [0xD4, 0x02] ∧
      s.rxq = [] ∧ s.timeout ≠ 0 := ⟨rfl, buffer_wf _, by decide, payload_idleWith, rfl, by decide⟩

/-- Passive events disturb no DECODE. -/
theorem undisturbed_passive (es : List Event) (h : ∀ e ∈ es, passiveEvent e) (s : State) : undisturbed es s := by
  induction es generalizing s with
  | nil => trivial
  | cons e es ih =>
    refine ⟨?_, fun _ => h e (by simp), fun t _ => ih (fun e he => h e (by simp [he])) t⟩
    rintro rfl
    simpa [passiveEvent] using h .reset (by simp)

/-- Header, payload, DCS and postamble, arriving while the DECODE runs, after an ignored write. -/
theorem witness_PulledBytesAreAllKept :
    let s := idleWith [] 0
    let es : List Event := ([0x00, 0x00, 0xFF, 0x00, 0x01, 0xFF, 0xD4, 0x2C, 0x00] : List Byte).flatMap
      (fun b => [.tick, .rxArrive b, .rxPull])
    ∃ u, s.Inv ∧ s.phase = .idle ∧ applyEvent (.hostWrite 0x000 0x03) s = .next u ∧
      undisturbed (.hostWrite 0x100 0x07 :: es) u ∧
      field (applyEvents (.hostWrite 0x100 0x07 :: es) u) (fun t => (t.rxcnt, t.status.wign, t.phase)) =
        some (9, true, .idle) := by
  refine ⟨_, inv_idle _ _, rfl, rfl, ⟨by decide, fun h => (by cases h), fun t _ => undisturbed_passive _ ?_ t⟩, by decide⟩
  simp [passiveEvent]

theorem witness_DecodeDurationIsBounded :
    ∃ t, (inHeader [] [0]).Inv ∧ (inHeader [] [0]).phase = .decHdr ∧ (inHeader [] [0]).pos = 0 ∧
      (inHeader [] [0]).elapsed = 0 ∧ undisturbed [.hostWrite 0x000 0x01, .rxPull, .tick] (inHeader [] [0]) ∧
      applyEvents [.hostWrite 0x000 0x01, .rxPull, .tick] (inHeader [] [0]) = .next t ∧ t.phase = .decHdr :=
  ⟨_, inv_inHeader _ _ (by decide), rfl, rfl, rfl,
    ⟨by decide, fun h => (by cases h), fun t _ => undisturbed_passive _ (by simp [passiveEvent]) t⟩, rfl, rfl⟩

theorem witness_CstatFlagsClassifyTheHeader : 10 ≤ (10 : Half).toNat := by decide

/-- The clauses of CCIDPARSE and of CCIDCHK: pending error, short payload (9 bytes), header (10 bytes). -/
theorem witness_CcidparseExtractsTheHeader :
    (idleWith [] 0).phase = .idle ∧ (idleWith [] 0).hasCcid = true ∧
    ∀ v ∈ [(0x04 : Byte), 0x05],
      let e := computing v .plenRange (idleWith [] 283)
      let n := computing v .none (idleWith [] 9)
      let h := computing v .none (idleWith [] 10)
      (e.phase = .compute ∧ e.op = v ∧ e.perr ≠ .none) ∧
      (n.phase = .compute ∧ n.op = v ∧ n.perr = .none ∧ n.plen.toNat < 10) ∧
      (h.phase = .compute ∧ h.op = v ∧ h.perr = .none ∧ h.pbuf.wf = true ∧ 10 ≤ h.plen.toNat) :=
  ⟨rfl, rfl, fun v _ => ⟨⟨rfl, rfl, fun h => by cases h⟩, ⟨rfl, rfl, rfl, (by decide : 9 < 10)⟩,
    ⟨rfl, rfl, rfl, buffer_wf _, Nat.le_refl 10⟩⟩⟩

theorem witness_WithoutParserItsCommandsAreIllegal :
    let s : State := { idleWith [] 0 with hasCcid := false }
    s.hasCcid = false ∧ s.pbuf.wf = true ∧ s.phase = .idle ∧ s.pos = 0 ∧
    (∀ a ∈ [(0x020 : HostAddr), 0x02A], 0x020 ≤ a.toNat ∧ a.toNat ≤ 0x02A) := ⟨rfl, buffer_wf _, rfl, rfl, by simp⟩

theorem witness_ChecksumLaws :
    List.Perm [(0x01 : Byte), 0x1A] [0x1A, 0x01] ∧ (0x01 : Byte) ≠ 0x02 := ⟨List.Perm.swap _ _ _, by decide⟩

theorem witness_FramesAreWellFormed :
    ([] : List Byte).length ≤ 282 ∧ (List.replicate 282 (0 : Byte)).length ≤ 282 :=
  ⟨Nat.zero_le _, List.length_replicate.le⟩

/-- Also the hypotheses of NoEngineAccessOutsideItsRange and EagerScheduleSettles: a state of every phase. -/
theorem witness_StepKeepsTheInvariant :
    (∃ t, ({ inHeader [] [0] with sched := [.rxPull] } : State).Inv ∧
      step { inHeader [] [0] with sched := [.rxPull] } = .next t) ∧
    (idleWith [] 0).Inv ∧ (computing 0x01 .none (idleWith [1, 2, 3] 3)).Inv ∧ (sending [0xD4, 0x02] 3).Inv ∧
    (inBody 2 1 [0xD4] 0 [0x02]).Inv := by
  refine ⟨⟨_, ?_, rfl⟩, inv_idle _ _, inv_computing, inv_sending, inv_inBody⟩
  have h := inv_inHeader [] [0] (by decide)
  exact ⟨h.1, h.2, h.3, h.4, h.5, h.6, h.7, h.8, h.9⟩

/-- A byte of PBUF changes by a host write and by a DECODE. -/
theorem witness_PbufIsStableUntilWritten :
    field (applyEvent (.hostWrite 0x102 7) (idleWith [] 0)) (fun t => pbufRead t.pbuf 2) = some (some 7) ∧
    pbufRead (idleWith [] 0).pbuf 2 = some 0 ∧
    field (applyEvent .rxPull (inBody 2 1 [0xD4] 0 [0x02])) (fun t => pbufRead t.pbuf 1) = some (some 0x02) ∧
    pbufRead (inBody 2 1 [0xD4] 0 [0x02]).pbuf 1 = some 0 := by decide

/-- CKSUM changes by each of the three commands. -/
theorem witness_CksumHoldsTheLastChecksum :
    field (applyEvent .finish (computing 0x01 .none (idleWith [1, 2, 3] 3))) State.cksum = some 0xFA ∧
    field (applyEvent .txAccept (sending [0xD4, 0x02] 9)) State.cksum = some 0x2A ∧
    field (applyEvent .rxPull (inBody 2 3 [0xD4, 0x02] 0x2A [0x00])) State.cksum = some 0x2A ∧
    (idleWith [] 0).cksum = 0 := by decide

theorem witness_CcidRegistersChangeByParsesOnly :
    field (applyEvent .finish (computing 0x04 .none (idleWith [0x72] 10))) (fun t => t.ccid.mtype) = some 0x72 ∧
    (idleWith [] 0).ccid.mtype = 0 := by decide

theorem witness_StreamsKeepTheirOrder :
    field (applyEvent (.rxArrive 7) (idleWith [] 0)) State.rxq = some [7] ∧
    field (applyEvent .rxPull (inHeader [] [7])) State.rxq = some [] ∧
    field (applyEvent .txAccept (sending [] 2)) State.txlog = some [0xFF] := by decide

theorem witness_RunningCommandSeesItsOperands :
    (inBody 2 3 [0xD4, 0x02] 0x2A [0x00]).phase ≠ .idle ∧ Event.rxPull ≠ .reset ∧
    field (applyEvent .rxPull (inBody 2 3 [0xD4, 0x02] 0x2A [0x00])) (fun t => (t.plen, t.phase)) = some (2, .idle) ∧
    field (applyEvent .rxPull (inBody 2 1 [0xD4] 0 [0x02])) (fun t => pbufRead t.pbuf 1) = some (some 0x02) := by
  decide

/-- Fair runs: a CKSUM that finishes at once and a clock that ticks on, of the event model and of step; and a schedule of
a host write, an arrival and a Tick before the Finish. -/
theorem witness_FinishHappensEventually :
    let c := computing 0x01 .none (idleWith [1, 2, 3] 3)
    ∃ (st : Nat → State) (ev : Nat → Event),
      EventRun st ev ∧ WeaklyFair st ev ∧ StepRun st ∧ (st 0).Inv ∧ (st 0).phase = .compute ∧
      ({ c with sched := [.hostWrite 0x000 0x00, .rxArrive 7, .tick] } : State).Inv := by
  let c := computing 0x01 .none (idleWith [1, 2, 3] 3)
  let d := complete .none { c with cksum := cks [1, 2, 3] }
  have hp : payload c.pbuf c.plen.toNat = some [1, 2, 3] := by decide
  have hf : applyEvent .finish c = .next d := by
    rw [applyEvent_enabled rfl, effect, finish_ok (i := .cksum) rfl, exec, execCksum, runCommand_own (s := c) (v := 0x01) rfl rfl,
      finishWith_none (s := c) rfl, cksumBody, hp]
  refine ⟨fun n => if n = 0 then c else d, fun n => if n = 0 then .finish else .tick, ?_, ?_, ?_, inv_computing, rfl, ?_⟩
  · intro n; cases n with
    | zero => exact hf
    | succ n => rfl
  · intro n h
    have := h (n + 1) (Nat.le_succ n)
    cases this
  · intro n; cases n with
    | zero => exact hf
    | succ n => rfl
  · exact ⟨inv_computing.1, inv_computing.2, inv_computing.3, inv_computing.4, inv_computing.5, inv_computing.6,
      inv_computing.7, inv_computing.8, inv_computing.9⟩

end Sys2Proof.Tests
end

section
/-! PROOFS. The statements of spec/00_scope.md: the step and the schedule. -/

namespace Sys2Proof.Machine

/-- Settles O4: the clauses are the cases of the schedule, and with none left those of the engine's own event. -/
theorem stepTakesTheNextEvent : Obligations.StepTakesTheNextEvent := by
  intro s
  refine ⟨fun e rest hs => step_cons hs, fun hs => ⟨?compute, ?rx, ?holds⟩⟩
  case compute => exact fun hp => step_engine hs (engineEvent_compute hp)
  case rx => exact fun ⟨hp, hq⟩ => step_engine hs (engineEvent_rx hp hq)
  case holds => exact fun hp => step_nil hs (engineEvent_none.2 hp)

end Sys2Proof.Machine
end

section
/-! PROOFS. The moves of the commands, forward, said once (spec/10_state.md R22, R24; spec/40_command.md R120, R124): what
exec is in IDLE and in COMPUTE, and what the engine's events are in the other phases. -/

namespace Sys2Proof.Machine

variable {s t : State}

/-! ### Acceptance and Finish -/

/-- What acceptance of a command does once the flags are cleared (R120). -/
def acceptMove : Instr → State → State
  | .nop => toCompute .none
  | .cksum => fun t => toCompute (plenCheck t) t
  | .encode => encodeAccept
  | .decode => decodeAccept
  | .ccidparse => ccidAccept
  | .ccidchk => ccidAccept

/-- What a command's Finish does when no error is pending (R124). -/
def finishBody : Instr → State → Host.Outcome State Fault Refusal
  | .nop => fun t => .next (complete .none t)
  | .cksum => cksumBody
  | .encode => fun t => .next t
  | .decode => fun t => .next t
  | .ccidparse => ccidparseBody
  | .ccidchk => ccidchkBody

theorem exec_idle (i : Instr) (hp : s.phase = .idle) :
    exec i s = .next (acceptMove i (acceptBegin (opcode i) s)) := by
  cases i with
  | encode => simp only [exec, execEncode, hp]; exact runCommand_idle hp
  | decode => simp only [exec, execDecode, hp]; exact runCommand_idle hp
  | nop => exact runCommand_idle hp
  | cksum => exact runCommand_idle hp
  | ccidparse => exact runCommand_idle hp
  | ccidchk => exact runCommand_idle hp

theorem exec_compute {i : Instr} (hp : s.phase = .compute) (ho : s.op = opcode i) :
    exec i s = finishWith (finishBody i) s := by
  cases i with
  | encode => simp only [exec, execEncode, hp]; exact runCommand_own hp ho
  | decode => simp only [exec, execDecode, hp]; exact runCommand_own hp ho
  | nop => exact runCommand_own hp ho
  | cksum => exact runCommand_own hp ho
  | ccidparse => exact runCommand_own hp ho
  | ccidchk => exact runCommand_own hp ho

/-- A command byte either is an opcode or is rejected as illegal (R104, R105). -/
theorem decodeByte_cases (v : Byte) :
    (∃ i, v = opcode i) ∨ (6 ≤ v.toNat ∧ decodeByte v = .error (.illegalOpcode v)) := by
  cases hd : decodeByte v with
  | ok i => exact .inl ⟨i, decodeByte_eq_ok.1 hd⟩
  | error e =>
    rcases Nat.lt_or_ge v.toNat 6 with hv | hv
    · rcases opcode_cases v hv with rfl | rfl | rfl | rfl | rfl | rfl <;> cases hd
    · exact .inr ⟨hv, hd.symm.trans (decodeByte_illegal hv)⟩

/-- Finish with a pending error completes with it, whatever OP is (R124). -/
theorem finish_pending (hp : s.phase = .compute) (he : s.perr ≠ .none) : finish s = .next (complete s.perr s) := by
  rcases decodeByte_cases s.op with ⟨i, ho⟩ | ⟨-, hd⟩
  · rw [finish_ok ho, exec_compute hp ho, finishWith_pending he]
  · simp only [finish, hd]; exact finishWith_pending he

/-- Finish without a pending error runs the body of the command that OP names (R124). -/
theorem finish_body {i : Instr} (hp : s.phase = .compute) (ho : s.op = opcode i) (he : s.perr = .none) :
    finish s = finishBody i s := by
  rw [finish_ok ho, exec_compute hp ho, finishWith_none he]

/-! ### The events of ENCODE and DECODE -/

theorem exec_encode_enc (hp : s.phase = .enc) : exec .encode s = txAccept s := by
  simp only [exec, execEncode, hp]

theorem exec_decode_header {b : Byte} {q : List Byte} (hp : s.phase = .decHdr) (hq : s.rxq = b :: q) :
    exec .decode s = pullHeader b { s with rxq := q } := by
  simp only [exec, execDecode, hp, hq]

theorem exec_decode_body {b : Byte} {q : List Byte} (hp : s.phase = .decBody) (hq : s.rxq = b :: q) :
    exec .decode s = pullBody b { s with rxq := q } := by
  simp only [exec, execDecode, hp, hq]

theorem exec_decode_tick (hp : s.phase = .decHdr ∨ s.phase = .decBody) (hq : s.rxq = []) :
    exec .decode s = .next (rxTick s) := by
  rcases hp with hp | hp <;> simp only [exec, execDecode, hp, hq]

/-- A pull of a body byte, once it is stored and PBUF has the payload: the byte counts, and the last completes (R171). -/
theorem pullBody_of_storeBody {s1 : State} {b : Byte} {q : List Byte} (hs : storeBody b s = some s1)
    (hq : payload s1.pbuf s1.cap.flen.toNat = some q) :
    pullBody b s =
      .next
        (let s2 : State := { s1 with pos := s1.pos + 1, rxcnt := s1.rxcnt + 1 }
         if (s1.pos + 1).toNat = s1.cap.flen.toNat + 2 then bodyDone q s2 else s2) := by
  simp only [pullBody, hs]
  by_cases h : (s1.pos + 1).toNat = s1.cap.flen.toNat + 2
  · simp only [h, if_true, hq]
  · simp only [h, if_false]

/-! ### When an event is enabled -/

theorem enabled_rxPull : enabled .rxPull s = true ↔ (s.phase = .decHdr ∨ s.phase = .decBody) ∧ s.rxq ≠ [] := by
  simp [enabled, inRx_eq_true]

theorem enabled_txAccept : enabled .txAccept s = true ↔ s.phase = .enc := by simp [enabled]

theorem enabled_finish : enabled .finish s = true ↔ s.phase = .compute := by simp [enabled]

theorem enabled_tick : enabled .tick s = true ↔ ¬ ((s.phase = .decHdr ∨ s.phase = .decBody) ∧ s.rxq ≠ []) := by
  simp [enabled, ← inRx_eq_true]
  cases s.inRx <;> simp

end Sys2Proof.Machine
end

section
/-! PROOFS. The invariant of the reachable states (spec/10_state.md R18, R19, R22, R27, R30, R33): an enabled event gives a
next state, and that state meets the invariant; so no step faults. -/

namespace Sys2Proof.Machine

variable {s t : State}

/-! ### The parts of the invariant -/

/-- The part of the invariant that speaks of no phase, no completion flag and no error: PBUF, the counters, the DECODE
flags and the CCID registers. -/
structure State.RegistersOk (s : State) : Prop where
  memory : s.pbuf.wf = true
  txBound : s.txcnt.toNat ≤ 290
  rxBound : s.rxcnt.toNat ≤ 290
  checks : s.status.dcsOk = true ∨ s.status.postOk = true → s.status.hdrOk = true
  cstatTop : s.ccid.cstat.getLsbD 7 = false
  noParser : s.hasCcid = false → s.ccid = State.reset.ccid

/-- ERR, DONE and ERRF as they are while a command runs (R18, R19). -/
def State.FlagsClear (s : State) : Prop :=
  s.err = .none ∧ s.status.done = false ∧ s.status.errf = false

theorem State.Inv.registersOk (h : s.Inv) : s.RegistersOk :=
  ⟨h.memory, h.txBound, h.rxBound, h.checks, h.cstatTop, h.noParser⟩

theorem State.Inv.flagsClear (h : s.Inv) (hp : s.phase ≠ .idle) : s.FlagsClear := by
  obtain ⟨herr, hdone⟩ := h.running hp
  exact ⟨herr, hdone, by simpa [herr] using h.errFlag⟩

theorem acceptBegin_flagsClear (v : Byte) (s : State) : (acceptBegin v s).FlagsClear := ⟨rfl, rfl, rfl⟩

/-- Completion makes a state of IDLE that meets the invariant, whatever the code (R123). -/
theorem complete_inv {e : ErrorCode} (h : s.RegistersOk) : (complete e s).Inv where
  memory := h.memory
  errFlag := rfl
  running := fun hp => absurd rfl hp
  txBound := h.txBound
  rxBound := h.rxBound
  checks := h.checks
  cstatTop := h.cstatTop
  noParser := h.noParser
  phase := ⟨rfl, rfl⟩

/-- A state of a running command meets the invariant when its phase's own conditions hold. -/
theorem State.RegistersOk.running (h : s.RegistersOk) (hf : s.FlagsClear) (hp : s.phaseOk) : s.Inv := by
  obtain ⟨herr, hdone, herrf⟩ := hf
  exact ⟨h.memory, by simp [herr, herrf], fun _ => ⟨herr, hdone⟩, h.txBound, h.rxBound, h.checks, h.cstatTop, h.noParser,
    hp⟩

/-! ### What the invariant says in each phase (R22) -/

theorem State.Inv.idle (h : s.Inv) (hp : s.phase = .idle) : s.pos = 0 ∧ s.perr = .none := by
  simpa only [State.phaseOk, hp] using h.phase

theorem State.Inv.compute (h : s.Inv) (hp : s.phase = .compute) : s.pos = 0 ∧ s.computeOk := by
  simpa only [State.phaseOk, hp] using h.phase

theorem State.Inv.enc (h : s.Inv) (hp : s.phase = .enc) :
    s.op = 0x02 ∧ s.perr = .none ∧ s.plen.toNat ≤ 282 ∧ s.pos.toNat ≤ s.plen.toNat + 7 ∧ s.txcnt = s.pos := by
  simpa only [State.phaseOk, hp] using h.phase

theorem State.Inv.decHdr (h : s.Inv) (hp : s.phase = .decHdr) :
    s.op = 0x03 ∧ s.perr = .none ∧ s.plen = 0 ∧ s.pos.toNat ≤ 5 ∧ s.rxcnt = s.pos ∧
      s.elapsed.toNat < s.timeout.toNat ∧ s.status.hdrOk = false ∧ s.cap.flen = 0 := by
  simpa only [State.phaseOk, hp] using h.phase

theorem State.Inv.decBody (h : s.Inv) (hp : s.phase = .decBody) :
    s.op = 0x03 ∧ s.perr = .none ∧ s.plen = 0 ∧ s.cap.flen.toNat ≤ 282 ∧ s.pos.toNat ≤ s.cap.flen.toNat + 1 ∧
      s.rxcnt.toNat = 6 + s.pos.toNat ∧ s.elapsed.toNat < s.timeout.toNat ∧ s.status.hdrOk = true ∧
      s.status.dcsOk = false ∧ s.status.postOk = false := by
  simpa only [State.phaseOk, hp] using h.phase

/-- A 16-bit counter below its top counts by one. -/
theorem toNat_add_one {x : Half} (h : x.toNat < 0xFFFF) : (x + 1).toNat = x.toNat + 1 :=
  BitVec.toNat_add_of_lt (Nat.succ_lt_succ h)

/-! ### Events of the environment and the host's accesses -/

/-- The invariant says nothing of RXQ, of the model's own records and of WIGN. -/
theorem State.Inv.environment (h : s.Inv) (q : List Byte) (r : List (HostAddr × Byte)) (es : List Event) (w : Bool) :
    ({ s with rxq := q, hostReads := r, sched := es, status := { s.status with wign := w } } : State).Inv :=
  ⟨h.memory, h.errFlag, h.running, h.txBound, h.rxBound, h.checks, h.cstatTop, h.noParser, h.phase⟩

theorem State.Inv.ignoreWrite (h : s.Inv) : (ignoreWrite s).Inv := h.environment s.rxq s.hostReads s.sched true

theorem State.Inv.dropRx (h : s.Inv) (q : List Byte) : ({ s with rxq := q } : State).Inv :=
  h.environment q s.hostReads s.sched s.status.wign

/-- The operands that the host may store while the engine is idle (R70). -/
theorem State.Inv.idleOperands (h : s.Inv) (hp : s.phase = .idle) (d : Bool) (w : Word) (n : Half) {m : Memory}
    (hm : m.wf = true) : ({ s with dcsEn := d, timeout := w, plen := n, pbuf := m } : State).Inv :=
  ⟨hm, h.errFlag, h.running, h.txBound, h.rxBound, h.checks, h.cstatTop, h.noParser,
    by simpa only [State.phaseOk, hp] using h.idle hp⟩

theorem State.Inv.hostStore (h : s.Inv) (hp : s.phase = .idle) (a : HostAddr) (v : Byte) : (hostStore a v s).Inv := by
  rcases hostStore_cases a v s with ⟨-, e⟩ | ⟨-, -, e⟩ | ⟨-, -, e⟩ | ⟨-, e⟩ <;> rw [e]
  · exact h.idleOperands hp _ s.timeout s.plen h.memory
  · exact h.idleOperands hp s.dcsEn _ s.plen h.memory
  · exact h.idleOperands hp s.dcsEn s.timeout _ h.memory
  · exact h.idleOperands hp s.dcsEn s.timeout s.plen ((Memory.wf_write _ _ _).trans h.memory)

/-! ### Reset (R210) -/

theorem reset_cstatTop : State.reset.ccid.cstat.getLsbD 7 = false := BitVec.getLsbD_zero

theorem reset_inv : State.reset.Inv :=
  ⟨State.reset_memory_wf, rfl, fun hp => absurd rfl hp, Nat.zero_le _, Nat.zero_le _, by simp [State.reset],
    reset_cstatTop, fun _ => rfl, rfl, rfl⟩

/-- A later Reset draws PBUF anew and keeps the parameter; its registers are those of the reset state. -/
theorem resetBlock_inv (s : State) : (resetBlock s).Inv :=
  { reset_inv with memory := Memory.wf_drawn _, noParser := fun _ => rfl }

/-! ### Acceptance (R120) -/

theorem State.RegistersOk.acceptBegin (h : s.RegistersOk) (v : Byte) : (acceptBegin v s).RegistersOk :=
  ⟨h.memory, h.txBound, h.rxBound, h.checks, h.cstatTop, h.noParser⟩

/-- A command that waits for its Finish, in a form that acceptance can show. -/
theorem toCompute_inv {e : ErrorCode} (h : s.RegistersOk) (hf : s.FlagsClear) (hpos : s.pos = 0)
    (hc : (toCompute e s).computeOk) : (toCompute e s).Inv :=
  State.RegistersOk.running ⟨h.memory, h.txBound, h.rxBound, h.checks, h.cstatTop, h.noParser⟩ hf ⟨hpos, hc⟩

/-- The range check leaves a length in range without an error and a longer one with PLEN_RANGE: what COMPUTE may wait with
for CKSUM and, with a parser, the parser's commands (R122). -/
theorem computeOk_plenCheck (ho : s.op = 0x01 ∨ (s.hasCcid = true ∧ (s.op = 0x04 ∨ s.op = 0x05))) :
    (toCompute (plenCheck s) s).computeOk := by
  rcases Nat.lt_or_ge 282 s.plen.toNat with hl | hl
  · rw [plenCheck_long hl]
    exact .inr (.inl ⟨rfl, hl, ho.imp_right .inr⟩)
  · rw [plenCheck_ok hl]
    exact .inl ⟨rfl, .inr ⟨ho, hl⟩⟩

theorem ccidAccept_inv (h : s.RegistersOk) (hf : s.FlagsClear) (hpos : s.pos = 0) (ho : s.op = 0x04 ∨ s.op = 0x05) :
    (ccidAccept s).Inv := by
  cases hc : s.hasCcid with
  | true =>
    rw [ccidAccept_parser hc]
    exact toCompute_inv h hf hpos (computeOk_plenCheck (.inr ⟨hc, ho⟩))
  | false =>
    rw [ccidAccept_absent hc]
    exact toCompute_inv h hf hpos (.inr (.inr ⟨rfl, .inr ⟨hc, ho⟩⟩))

theorem encodeAccept_inv (h : s.RegistersOk) (hf : s.FlagsClear) (hpos : s.pos = 0) (hperr : s.perr = .none)
    (ho : s.op = 0x02) : (encodeAccept s).Inv := by
  have hr : ({ s with txcnt := 0 } : State).RegistersOk := { h with txBound := Nat.zero_le _ }
  simp only [encodeAccept]
  split
  case isTrue hl => exact toCompute_inv hr hf hpos (.inr (.inl ⟨rfl, hl, .inr (.inl ho)⟩))
  case isFalse hl =>
    exact State.RegistersOk.running { hr with } hf ⟨ho, hperr, Nat.le_of_not_lt hl, Nat.zero_le _, rfl⟩

/-- Entering an RX phase fails at once or starts the phase at POS = 0 within its time (R164). -/
theorem enterRx_inv {ph : Phase} (h : s.RegistersOk) (hf : s.FlagsClear)
    (hp : 0 < s.timeout.toNat → ({ s with phase := ph, pos := 0, elapsed := 0 } : State).phaseOk) : (enterRx ph s).Inv := by
  have hr : ({ s with phase := ph, pos := 0, elapsed := 0 } : State).RegistersOk := { h with }
  by_cases ht : s.timeout = 0
  · rw [enterRx_zero ph ht]; exact complete_inv hr
  · rw [enterRx_pos ph (timeout_pos ht)]; exact hr.running hf (hp (timeout_pos ht))

theorem decodeAccept_inv (h : s.RegistersOk) (hf : s.FlagsClear) (hperr : s.perr = .none) (ho : s.op = 0x03) :
    (decodeAccept s).Inv :=
  enterRx_inv { h with rxBound := Nat.zero_le _, checks := by simp } hf
    fun ht => ⟨ho, hperr, rfl, Nat.zero_le _, rfl, ht, rfl, rfl⟩

/-- Acceptance of any command byte in IDLE (R120, R127). -/
theorem accept_inv (h : s.Inv) (hp : s.phase = .idle) (v : Byte) : ∃ t, accept v s = .next t ∧ t.Inv := by
  obtain ⟨hpos, hperr⟩ := h.idle hp
  have hr := h.registersOk.acceptBegin v
  have hf := acceptBegin_flagsClear v s
  rcases decodeByte_cases v with ⟨i, rfl⟩ | ⟨hv, -⟩
  · refine ⟨_, (accept_ok rfl).trans (exec_idle i hp), ?_⟩
    cases i with
    | nop => exact toCompute_inv hr hf hpos (.inl ⟨rfl, .inl rfl⟩)
    | cksum => exact toCompute_inv hr hf hpos (computeOk_plenCheck (.inl rfl))
    | encode => exact encodeAccept_inv hr hf hpos hperr rfl
    | decode => exact decodeAccept_inv hr hf hperr rfl
    | ccidparse => exact ccidAccept_inv hr hf hpos (.inl rfl)
    | ccidchk => exact ccidAccept_inv hr hf hpos (.inr rfl)
  · exact ⟨_, accept_illegal hv, toCompute_inv hr hf hpos (.inr (.inr ⟨rfl, .inl hv⟩))⟩

/-- A host write, while idle or busy (R70, R121). -/
theorem hostWrite_inv (h : s.Inv) (a : HostAddr) (v : Byte) : ∃ t, hostWrite a v s = .next t ∧ t.Inv := by
  unfold hostWrite
  cases hb : s.busy with
  | true =>
    split
    · exact ⟨_, rfl, h.ignoreWrite⟩
    · split
      · exact ⟨_, rfl, h.ignoreWrite⟩
      · exact ⟨_, rfl, h⟩
  | false =>
    have hp := busy_eq_false.1 hb
    split
    · exact accept_inv h hp v
    · split
      · exact ⟨_, rfl, h.hostStore hp a v⟩
      · exact ⟨_, rfl, h⟩

/-! ### Finish (R124) -/

/-- A bit of a byte that is there under a condition. -/
theorem getLsbD_ite_zero (p : Prop) [Decidable p] (x : Byte) (k : Nat) :
    (if p then x else 0x00).getLsbD k = (decide p && x.getLsbD k) := by
  by_cases h : p <;> simp [h]

/-- CSTAT bit by bit: each condition counts at the bits of its own mask. -/
theorem ccidFlags_getLsbD (c : CcidRegs) (plen : Half) (k : Nat) :
    (ccidFlags c plen).getLsbD k =
      ((0x01 : Byte).getLsbD k || (decide (c.slot = 0x00) && (0x02 : Byte).getLsbD k) ||
        (decide (c.clen.toNat = plen.toNat - 10) && (0x04 : Byte).getLsbD k) ||
        (decide (c.mtype = 0x83 ∧ c.msg7 = 0x02) && (0x08 : Byte).getLsbD k) ||
        (decide (c.mtype = 0x6B) && (0x10 : Byte).getLsbD k) ||
        (decide (c.mtype = 0x72) && (0x20 : Byte).getLsbD k) ||
        (decide (c.mtype = 0x83) && (0x40 : Byte).getLsbD k)) := by
  simp only [ccidFlags, BitVec.getLsbD_or, getLsbD_ite_zero]

/-- CSTAT bit 7 is no flag of a parse (R33, R182). -/
theorem ccidFlags_top (c : CcidRegs) (n : Half) : (ccidFlags c n).getLsbD 7 = false := by
  simp only [ccidFlags_getLsbD]
  simp

/-- A parse of a payload that PBUF has, in a block with a parser (R180, R181). -/
theorem ccidExtract_inv {f : CcidRegs → ErrorCode} (h : s.RegistersOk) (hc : s.hasCcid = true) :
    ∃ t, ccidExtract f s = .next t ∧ t.Inv := by
  rcases Nat.lt_or_ge s.plen.toNat 10 with hn | hn
  · exact ⟨_, ccidExtract_short hn, complete_inv { h with cstatTop := reset_cstatTop, noParser := fun _ => rfl }⟩
  · obtain ⟨v, hv, -⟩ := ccidHeader_some h.memory
    refine ⟨_, ccidExtract_header hn hv, complete_inv { h with cstatTop := ?_, noParser := ?_ }⟩
    · exact ccidFlags_top _ _
    · exact fun hn => absurd (hc.symm.trans hn) (by decide)

theorem cksumBody_inv (h : s.RegistersOk) (hl : s.plen.toNat ≤ 282) : ∃ t, cksumBody s = .next t ∧ t.Inv := by
  obtain ⟨p, hp⟩ := payload_some h.memory hl
  refine ⟨complete .none { s with cksum := cks p }, by simp only [cksumBody, hp], complete_inv { h with }⟩

theorem finish_inv (h : s.Inv) (hp : s.phase = .compute) : ∃ t, finish s = .next t ∧ t.Inv := by
  have hr := h.registersOk
  by_cases he : s.perr = .none
  · obtain ⟨-, ⟨-, ho⟩ | ⟨he', -⟩ | ⟨he', -⟩⟩ := h.compute hp
    · rcases ho with ho | ⟨ho | ⟨hc, ho | ho⟩, hl⟩
      · exact ⟨_, finish_body (i := .nop) hp ho he, complete_inv hr⟩
      · rw [finish_body (i := .cksum) hp ho he]; exact cksumBody_inv hr hl
      · rw [finish_body (i := .ccidparse) hp ho he, finishBody, ccidparseBody]; exact ccidExtract_inv hr hc
      · rw [finish_body (i := .ccidchk) hp ho he, finishBody, ccidchkBody]; exact ccidExtract_inv hr hc
    · rw [he] at he'; cases he'
    · rw [he] at he'; cases he'
  · exact ⟨_, finish_pending hp he, complete_inv hr⟩

/-! ### TxAccept (R157) -/

theorem txAccept_inv (h : s.Inv) (hp : s.phase = .enc) : ∃ t, txAccept s = .next t ∧ t.Inv := by
  obtain ⟨hop, hperr, hlen, hpos, hcnt⟩ := h.enc hp
  obtain ⟨p, hpay⟩ := payload_some h.memory hlen
  have hpl : p.length = s.plen.toNat := (payload_eq_some.1 hpay).1
  have hlt : s.pos.toNat < (frame p).length := by rw [frame_length]; omega
  have hsucc : (s.pos + 1).toNat = s.pos.toNat + 1 := toNat_add_one (by omega)
  have hr : ({ s with
      txlog := s.txlog ++ [(frame p)[s.pos.toNat]], txcnt := s.txcnt + 1, pos := s.pos + 1 } : State).RegistersOk :=
    { h.registersOk with txBound := by simp only [hcnt, hsucc]; omega }
  refine ⟨_, txAccept_next hpay (List.getElem?_eq_getElem hlt), ?_⟩
  split
  case isTrue => exact complete_inv { hr with }
  case isFalse hmore =>
    refine hr.running (h.flagsClear (by simp [hp])) ?_
    simp only [State.phaseOk, hp]
    exact ⟨hop, hperr, hlen, by omega, by rw [hcnt]⟩

/-! ### The RX phases (R166, R167, R171) -/

theorem rxTick_inv (h : s.Inv) (hp : s.phase = .decHdr ∨ s.phase = .decBody) : (rxTick s).Inv := by
  have hr : ({ s with elapsed := s.elapsed + 1 } : State).RegistersOk := { h.registersOk with }
  rcases rxTick_cases s with ⟨-, e⟩ | ⟨ht, e⟩ <;> rw [e]
  · exact complete_inv hr
  · refine hr.running (h.flagsClear (by rcases hp with hp | hp <;> simp [hp])) ?_
    rcases hp with hp | hp
    · obtain ⟨hop, hperr, hlen, hpos, hcnt, -, hhdr, hflen⟩ := h.decHdr hp
      simp only [State.phaseOk, hp]
      exact ⟨hop, hperr, hlen, hpos, hcnt, ht, hhdr, hflen⟩
    · obtain ⟨hop, hperr, hlen, hflen, hpos, hcnt, -, hhdr⟩ := h.decBody hp
      simp only [State.phaseOk, hp]
      exact ⟨hop, hperr, hlen, hflen, hpos, hcnt, ht, hhdr⟩

/-- The sixth header byte: an error, or the body phase with FLEN in range (R168). -/
theorem headerDone_inv (h : s.RegistersOk) (hf : s.FlagsClear) (hop : s.op = 0x03) (hperr : s.perr = .none)
    (hlen : s.plen = 0) (hcnt : s.rxcnt.toNat = 6) (hhdr : s.status.hdrOk = false) : (headerDone s).Inv := by
  have hchecks : s.status.dcsOk = false ∧ s.status.postOk = false := by simpa [hhdr] using h.checks
  rcases headerDone_cases s with ⟨-, e⟩ | ⟨-, -, e⟩ | ⟨-, -, -, e⟩ | ⟨-, -, hflen, e⟩ <;> rw [e]
  · exact complete_inv { h with }
  · exact complete_inv { h with }
  · exact complete_inv { h with }
  · refine enterRx_inv { h with checks := fun _ => rfl } hf fun ht => ?_
    exact ⟨hop, hperr, hlen, hflen, Nat.zero_le _, hcnt, ht, rfl, hchecks⟩

theorem pullHeader_inv (h : s.Inv) (hp : s.phase = .decHdr) (b : Byte) : ∃ t, pullHeader b s = .next t ∧ t.Inv := by
  obtain ⟨hop, hperr, hlen, hpos, hcnt, ht, hhdr, hflen⟩ := h.decHdr hp
  have hf := h.flagsClear (by simp [hp])
  have hsucc : (s.pos + 1).toNat = s.pos.toNat + 1 := toNat_add_one (by omega)
  have hcnt' : (s.rxcnt + 1).toNat = s.pos.toNat + 1 := by rw [hcnt, hsucc]
  rcases pullHeader_cases b s with ⟨h6, hc⟩ | ⟨h6, -⟩
  · have hr : ({ s with
        cap := { s.cap with hdr := s.cap.hdr.set s.pos.toNat b h6 }, pos := s.pos + 1, rxcnt := s.rxcnt + 1 } :
          State).RegistersOk := { h.registersOk with rxBound := by simp only [hcnt']; omega }
    rcases hc with ⟨hlast, e⟩ | ⟨hmore, e⟩
    · exact ⟨_, e, headerDone_inv hr hf hop hperr hlen (by simp only [hcnt']; omega) hhdr⟩
    · refine ⟨_, e, hr.running hf ?_⟩
      simp only [State.phaseOk, hp]
      exact ⟨hop, hperr, hlen, by omega, by rw [hcnt], ht, hhdr, hflen⟩
  · omega

/-- A body byte has a place: PBUF below FLEN, which is in range, or a capture register; FLEN stays (R171, R172). -/
theorem storeBody_inv (h : s.Inv) (hp : s.phase = .decBody) (b : Byte) :
    ∃ m c, storeBody b s = some { s with pbuf := m, cap := c } ∧ m.wf = true ∧ c.flen = s.cap.flen := by
  obtain ⟨-, -, -, hflen, -⟩ := h.decBody hp
  rcases Nat.lt_trichotomy s.pos.toNat s.cap.flen.toNat with hk | hk | hk
  · exact ⟨_, s.cap, storeBody_payload h.memory hk (by omega), (Memory.wf_write _ _ _).trans h.memory, rfl⟩
  · exact ⟨s.pbuf, _, storeBody_dcs hk, h.memory, rfl⟩
  · exact ⟨s.pbuf, _, storeBody_post hk, h.memory, rfl⟩

theorem bodyDone_inv (h : s.RegistersOk) (hhdr : s.status.hdrOk = true) (q : List Byte) : (bodyDone q s).Inv := by
  rcases bodyDone_cases q s with ⟨-, -, e⟩ | ⟨-, e⟩ <;> rw [e]
  · exact complete_inv { h with checks := fun _ => hhdr }
  · exact complete_inv { h with checks := fun _ => hhdr }

theorem pullBody_inv (h : s.Inv) (hp : s.phase = .decBody) (b : Byte) : ∃ t, pullBody b s = .next t ∧ t.Inv := by
  obtain ⟨hop, hperr, hlen, hflen, hpos, hcnt, ht, hhdr, hdcs, hpost⟩ := h.decBody hp
  obtain ⟨m, c, hs, hm, hc⟩ := storeBody_inv h hp b
  obtain ⟨q, hq⟩ := payload_some hm (n := c.flen.toNat) (by rw [hc]; exact hflen)
  have hsucc : (s.pos + 1).toNat = s.pos.toNat + 1 := toNat_add_one (by omega)
  have hcnt' : (s.rxcnt + 1).toNat = s.rxcnt.toNat + 1 := toNat_add_one (by omega)
  have hr : ({ s with pbuf := m, cap := c, pos := s.pos + 1, rxcnt := s.rxcnt + 1 } : State).RegistersOk :=
    { h.registersOk with memory := hm, rxBound := by simp only [hcnt']; omega }
  refine ⟨_, pullBody_of_storeBody hs hq, ?_⟩
  split
  case isTrue => exact bodyDone_inv hr hhdr q
  case isFalse hmore =>
    refine hr.running (h.flagsClear (by simp [hp])) ?_
    simp only [State.phaseOk, hp, hc, hsucc, hcnt'] at hmore ⊢
    exact ⟨hop, hperr, hlen, hflen, by omega, by omega, ht, hhdr, hdcs, hpost⟩

/-- The pull of an RX phase (R24). -/
theorem rxPull_inv (h : s.Inv) (hp : s.phase = .decHdr ∨ s.phase = .decBody) (hq : s.rxq ≠ []) :
    ∃ t, exec .decode s = .next t ∧ t.Inv := by
  obtain ⟨b, q, hbq⟩ := List.exists_cons_of_ne_nil hq
  rcases hp with hp | hp
  · rw [exec_decode_header hp hbq]; exact pullHeader_inv (h.dropRx q) hp b
  · rw [exec_decode_body hp hbq]; exact pullBody_inv (h.dropRx q) hp b

/-! ### Events and steps -/

/-- Every enabled event of a state that meets the invariant gives a next state that meets it. -/
theorem applyEvent_inv {e : Event} (h : s.Inv) (he : enabled e s = true) : ∃ t, applyEvent e s = .next t ∧ t.Inv := by
  rw [applyEvent_enabled he]
  cases e with
  | hostWrite a v => exact hostWrite_inv h a v
  | hostRead a => exact ⟨_, rfl, h.environment s.rxq _ s.sched s.status.wign⟩
  | rxArrive b => exact ⟨_, rfl, h.dropRx _⟩
  | rxPull =>
    obtain ⟨hp, hq⟩ := enabled_rxPull.1 he
    exact rxPull_inv h hp hq
  | txAccept =>
    have hp := enabled_txAccept.1 he
    rw [effect, exec_encode_enc hp]
    exact txAccept_inv h hp
  | tick =>
    cases hr : s.inRx with
    | false => exact ⟨s, by simp [effect, hr], h⟩
    | true =>
      have hp := inRx_eq_true.1 hr
      have hq : s.rxq = [] := by simpa [hp] using enabled_tick.1 he
      exact ⟨_, by simp only [effect, hr, if_true]; exact exec_decode_tick hp hq, rxTick_inv h hp⟩
  | finish => exact finish_inv h (enabled_finish.1 he)
  | reset => exact ⟨_, rfl, resetBlock_inv s⟩

/-- What an event can be in a state that meets the invariant: a next state that meets it, or a refusal. -/
theorem applyEvent_outcome (h : s.Inv) (e : Event) :
    (∃ t, applyEvent e s = .next t ∧ t.Inv) ∨ applyEvent e s = .refused (.notEnabled e) := by
  cases he : enabled e s with
  | true => exact .inl (applyEvent_inv h he)
  | false => exact .inr (applyEvent_disabled he)

/-- What a step can be in a state that meets the invariant: a next state that meets it, or a refusal. -/
theorem step_outcome (h : s.Inv) : (∃ t, step s = .next t ∧ t.Inv) ∨ ∃ r, step s = .refused r := by
  rcases step_cases (s := s) rfl with ⟨e, rest, -, hs⟩ | ⟨e, -, -, hs⟩ | ⟨-, -, hs⟩
  · rw [← hs]
    exact (applyEvent_outcome (h.environment s.rxq s.hostReads rest s.status.wign) e).imp_right fun hr => ⟨_, hr⟩
  · rw [← hs]
    exact (applyEvent_outcome h e).imp_right fun hr => ⟨_, hr⟩
  · exact .inl ⟨s, hs, h⟩

/-- Settles O52: a step is an event, and every enabled event keeps the invariant. -/
theorem stepKeepsTheInvariant : Obligations.StepKeepsTheInvariant := by
  intro s t h hs
  rcases step_outcome h with ⟨u, hu, hi⟩ | ⟨r, hr⟩
  · cases hs.symm.trans hu; exact hi
  · cases hs.symm.trans hr

/-- Settles O53: under the invariant every enabled event has a next state, and the others are refused. -/
theorem noEngineAccessOutsideItsRange : Obligations.NoEngineAccessOutsideItsRange := by
  intro s h r hs
  rcases step_outcome h with ⟨u, hu, -⟩ | ⟨r', hr⟩
  · cases hs.symm.trans hu
  · cases hs.symm.trans hr

/-- Settles O51: the reset state is idle with every register at its reset value. -/
theorem resetMeetsTheInvariant : Obligations.ResetMeetsTheInvariant := reset_inv

end Sys2Proof.Machine
end

section
/-! PROOFS. Refusals (spec/10_state.md R24): no meaning of a command refuses, so an event is refused exactly where it is not
enabled; and the events that run exec (R17, R120, R124, R157, R166, R167, R171). -/

namespace Sys2Proof.Machine

variable {s t : State}

/-! ### No meaning refuses -/

/-- The outcome is no refusal. -/
def NotRefused (o : Host.Outcome State Fault Refusal) : Prop :=
  ∀ r, o ≠ .refused r

theorem notRefused_next (t : State) : NotRefused (.next t) := nofun

theorem notRefused_fault (f : Fault) : NotRefused (.fault f) := nofun

theorem finishWith_notRefused {body : State → Host.Outcome State Fault Refusal} (hb : NotRefused (body s)) :
    NotRefused (finishWith body s) := by
  unfold finishWith
  split
  · exact hb
  · exact notRefused_next _

theorem runCommand_notRefused {v : Byte} {acc : State → State} {body : State → Host.Outcome State Fault Refusal}
    (hb : NotRefused (body s)) : NotRefused (runCommand v acc body s) := by
  rcases runCommand_cases (s := s) (v := v) (acc := acc) (body := body) with ⟨-, e⟩ | ⟨-, -, e⟩ | ⟨-, -, e⟩ <;> rw [e]
  · exact notRefused_next _
  · exact finishWith_notRefused hb
  · exact notRefused_next _

theorem cksumBody_notRefused (s : State) : NotRefused (cksumBody s) := by
  unfold cksumBody
  split
  · exact notRefused_next _
  · exact notRefused_fault _

theorem ccidExtract_notRefused (f : CcidRegs → ErrorCode) (s : State) : NotRefused (ccidExtract f s) := by
  unfold ccidExtract
  split
  · exact notRefused_next _
  · split
    · exact notRefused_next _
    · exact notRefused_fault _

theorem txAccept_notRefused (s : State) : NotRefused (txAccept s) := by
  unfold txAccept
  split
  · exact notRefused_fault _
  · dsimp only
    split
    · split
      · exact notRefused_next _
      · exact notRefused_fault _
    · exact notRefused_next _

theorem pullHeader_notRefused (b : Byte) (s : State) : NotRefused (pullHeader b s) := by
  rcases pullHeader_cases b s with ⟨h6, ⟨-, e⟩ | ⟨-, e⟩⟩ | ⟨-, e⟩ <;> rw [e]
  · exact notRefused_next _
  · exact notRefused_next _
  · exact notRefused_fault _

theorem pullBody_notRefused (b : Byte) (s : State) : NotRefused (pullBody b s) := by
  unfold pullBody
  split
  · exact notRefused_fault _
  · dsimp only
    split
    · split
      · exact notRefused_next _
      · exact notRefused_fault _
    · exact notRefused_next _

theorem execEncode_notRefused (s : State) : NotRefused (execEncode s) := by
  unfold execEncode
  split
  · exact txAccept_notRefused s
  all_goals exact runCommand_notRefused (notRefused_next _)

theorem execDecode_notRefused (s : State) : NotRefused (execDecode s) := by
  unfold execDecode
  split
  · split
    · exact notRefused_next _
    · exact pullHeader_notRefused _ _
  · split
    · exact notRefused_next _
    · exact pullBody_notRefused _ _
  all_goals exact runCommand_notRefused (notRefused_next _)

/-- Every command has a meaning in every state: exec may fault, but never refuses. -/
theorem exec_notRefused (i : Instr) (s : State) : NotRefused (exec i s) := by
  cases i with
  | nop => exact runCommand_notRefused (notRefused_next _)
  | cksum => exact runCommand_notRefused (cksumBody_notRefused s)
  | encode => exact execEncode_notRefused s
  | decode => exact execDecode_notRefused s
  | ccidparse => exact runCommand_notRefused (ccidExtract_notRefused _ s)
  | ccidchk => exact runCommand_notRefused (ccidExtract_notRefused _ s)

theorem accept_notRefused (v : Byte) (s : State) : NotRefused (accept v s) := by
  unfold accept
  split
  · exact exec_notRefused _ s
  · exact notRefused_next _

theorem hostWrite_notRefused (a : HostAddr) (v : Byte) (s : State) : NotRefused (hostWrite a v s) := by
  unfold hostWrite
  split
  · split
    · exact notRefused_next _
    · exact accept_notRefused v s
  · split
    · split <;> exact notRefused_next _
    · exact notRefused_next _

theorem finish_notRefused (s : State) : NotRefused (finish s) := by
  unfold finish
  split
  · exact exec_notRefused _ s
  · exact finishWith_notRefused (notRefused_next _)

theorem effect_notRefused (e : Event) (s : State) : NotRefused (effect e s) := by
  cases e with
  | hostWrite a v => exact hostWrite_notRefused a v s
  | hostRead a => exact notRefused_next _
  | rxArrive b => exact notRefused_next _
  | rxPull => exact exec_notRefused .decode s
  | txAccept => exact exec_notRefused .encode s
  | tick =>
    simp only [effect]
    split
    · exact exec_notRefused .decode s
    · exact notRefused_next _
  | finish => exact finish_notRefused s
  | reset => exact notRefused_next _

/-- The refusal of an event says that it is not enabled, and is given exactly then (log 2). -/
theorem applyEvent_eq_refused {e : Event} {r : Refusal} :
    applyEvent e s = .refused r ↔ r = .notEnabled e ∧ enabled e s = false := by
  cases he : enabled e s with
  | true => simpa [applyEvent_enabled he] using effect_notRefused e s r
  | false => simp [applyEvent_disabled he, eq_comm]

/-- The events that R24 does not enable, one by one. -/
theorem enabled_eq_false {e : Event} :
    enabled e s = false ↔
      (e = .rxPull ∧ ¬ ((s.phase = .decHdr ∨ s.phase = .decBody) ∧ s.rxq ≠ [])) ∨
      (e = .txAccept ∧ s.phase ≠ .enc) ∨
      (e = .tick ∧ (s.phase = .decHdr ∨ s.phase = .decBody) ∧ s.rxq ≠ []) ∨
      (e = .finish ∧ s.phase ≠ .compute) := by
  rw [← Bool.not_eq_true]
  cases e with
  | rxPull => simp only [enabled_rxPull]; simp
  | txAccept => simp only [enabled_txAccept]; simp
  | tick => simp only [enabled_tick]; simp
  | finish => simp only [enabled_finish]; simp
  | hostWrite a v => simp [enabled]
  | hostRead a => simp [enabled]
  | rxArrive b => simp [enabled]
  | reset => simp [enabled]

/-- Settles O8: a refusal is the answer to an event that is not enabled, and nothing else refuses. -/
theorem eventsAreEnabledExactlyAsListed : Obligations.EventsAreEnabledExactlyAsListed := by
  intro s e r
  rw [applyEvent_eq_refused, enabled_eq_false]

/-! ### The events that run exec -/

/-- Decoding one byte is looking it up in the opcode map (R90, R104). -/
theorem decode_byte_ok {v : Byte} {i : Instr} {l : List Byte} (h : decode [v] = .ok (i, l)) : decodeByte v = .ok i := by
  simp only [decode] at h
  split at h
  · rename_i hd
    cases h
    exact hd
  · cases h

theorem decode_byte_error {v : Byte} {e : DecodeReject} (h : decode [v] = .error e) : decodeByte v = .error e := by
  simp only [decode] at h
  split at h
  · cases h
  · rename_i hd
    cases h
    exact hd

/-- The step that takes a CMD write of an idle engine accepts the command (R17, R120). -/
theorem step_commandWrite {v : Byte} {rest : List Event} (hs : s.sched = .hostWrite 0x000 v :: rest)
    (hp : s.phase = .idle) : step s = accept v { s with sched := rest } := by
  rw [step_cons hs, applyEvent_enabled rfl, effect]
  exact hostWrite_cmd_idle hp

/-- Settles O5: the CMD write of an idle engine is acceptance, which follows the decoder. -/
theorem commandWriteRunsTheDecodedInstruction : Obligations.CommandWriteRunsTheDecodedInstruction := by
  intro s v rest hs hp
  rw [step_commandWrite hs hp]
  refine ⟨fun i hd => ?command, fun hd => ?illegal⟩
  case command => simp only [accept, decode_byte_ok hd]
  case illegal => simp only [accept, decode_byte_error hd]

theorem applyEvent_finish {i : Instr} (hp : s.phase = .compute) (ho : s.op = opcode i) :
    applyEvent .finish s = exec i s :=
  (applyEvent_enabled (enabled_finish.2 hp)).trans (finish_ok ho)

theorem applyEvent_txAccept (hp : s.phase = .enc) : applyEvent .txAccept s = exec .encode s :=
  applyEvent_enabled (enabled_txAccept.2 hp)

theorem applyEvent_rxPull (hp : s.phase = .decHdr ∨ s.phase = .decBody) (hq : s.rxq ≠ []) :
    applyEvent .rxPull s = exec .decode s :=
  applyEvent_enabled (enabled_rxPull.2 ⟨hp, hq⟩)

theorem applyEvent_tick_rx (hp : s.phase = .decHdr ∨ s.phase = .decBody) (hq : s.rxq = []) :
    applyEvent .tick s = exec .decode s :=
  (applyEvent_enabled (enabled_tick.2 fun h => h.2 hq)).trans (if_pos (inRx_eq_true.2 hp))

/-- Settles O6: each event is enabled in its phase, and its effect there is exec of the command that runs. -/
theorem runningCommandMovesByExec : Obligations.RunningCommandMovesByExec := by
  intro s rest
  refine ⟨fun i hs hp hd => ?finish, fun hs hp => ?txAccept, fun hs hp hq => ?rxPull, fun hs hp hq => ?tick⟩
  case finish => exact (step_cons hs).trans (applyEvent_finish hp (decodeByte_eq_ok.1 (decode_byte_ok hd)))
  case txAccept => exact (step_cons hs).trans (applyEvent_txAccept hp)
  case rxPull => exact (step_cons hs).trans (applyEvent_rxPull hp hq)
  case tick => exact (step_cons hs).trans (applyEvent_tick_rx hp hq)

theorem decodeTableWord_some {nbits w : Nat} {i : Instr} (h : decodeTableWord nbits w = some i) :
    decodeByte (tableByte nbits w) = .ok i := by
  simp only [decodeTableWord] at h
  split at h
  · rename_i hd
    cases h
    exact decode_byte_ok hd
  · cases h

/-- Settles O7: the word is a CMD write at the head of an idle engine's schedule, and the step takes it off again. -/
theorem fetchWordRunsTheTableInstruction : Obligations.FetchWordRunsTheTableInstruction := by
  intro s w i hw
  rw [step_commandWrite (s := s.withFetchWord 8 w) rfl rfl]
  exact accept_ok (decodeByte_eq_ok.1 (decodeTableWord_some hw))

end Sys2Proof.Machine
end

section
/-! PROOFS. What each event can change (spec/10_state.md R22, R26, R28, R31, R32, R34): the end of a command, PBUF, CKSUM,
the CCID registers and the two streams. -/

namespace Sys2Proof.Machine

variable {s t : State}

/-! ### What each operation keeps -/

/-- PBUF, PLEN, CKSUM, the CCID registers, both streams and the parameter are the same. -/
structure SameData (s t : State) : Prop where
  pbuf : t.pbuf = s.pbuf
  plen : t.plen = s.plen
  cksum : t.cksum = s.cksum
  ccid : t.ccid = s.ccid
  rxq : t.rxq = s.rxq
  txlog : t.txlog = s.txlog
  hasCcid : t.hasCcid = s.hasCcid

theorem rxTick_sameData (s : State) : SameData s (rxTick s) := by
  rcases rxTick_cases s with ⟨-, e⟩ | ⟨-, e⟩ <;> rw [e]
  · exact ⟨rfl, rfl, rfl, rfl, rfl, rfl, rfl⟩
  · exact ⟨rfl, rfl, rfl, rfl, rfl, rfl, rfl⟩

theorem pullHeader_sameData {b : Byte} (h : pullHeader b s = .next t) : SameData s t := by
  obtain ⟨c, e | ⟨st, er, e⟩ | e⟩ := pullHeader_next h <;> rw [e]
  · exact ⟨rfl, rfl, rfl, rfl, rfl, rfl, rfl⟩
  · exact ⟨rfl, rfl, rfl, rfl, rfl, rfl, rfl⟩
  · exact ⟨rfl, rfl, rfl, rfl, rfl, rfl, rfl⟩

theorem hostStore_keeps (a : HostAddr) (v : Byte) (s : State) :
    (hostStore a v s).cksum = s.cksum ∧ (hostStore a v s).ccid = s.ccid ∧ (hostStore a v s).rxq = s.rxq ∧
      (hostStore a v s).txlog = s.txlog ∧ (hostStore a v s).hasCcid = s.hasCcid := by
  rcases hostStore_cases a v s with ⟨-, e⟩ | ⟨-, -, e⟩ | ⟨-, -, e⟩ | ⟨-, e⟩ <;> rw [e]
  · exact ⟨rfl, rfl, rfl, rfl, rfl⟩
  · exact ⟨rfl, rfl, rfl, rfl, rfl⟩
  · exact ⟨rfl, rfl, rfl, rfl, rfl⟩
  · exact ⟨rfl, rfl, rfl, rfl, rfl⟩

/-- A host write, an accepted command among them, touches no result of a command and neither stream. -/
theorem hostWrite_keeps {a : HostAddr} {v : Byte} (h : hostWrite a v s = .next t) :
    t.cksum = s.cksum ∧ t.ccid = s.ccid ∧ t.rxq = s.rxq ∧ t.txlog = s.txlog ∧ t.hasCcid = s.hasCcid := by
  rcases hostWrite_next h with ⟨hp, -, ha⟩ | ⟨-, -, rfl⟩ | ⟨-, rfl⟩ | rfl
  · obtain ⟨-, -, hcksum, hccid, -, hstreams⟩ := accept_keeps hp ha
    exact ⟨hcksum, hccid, hstreams⟩
  · exact hostStore_keeps a v s
  · exact ⟨rfl, rfl, rfl, rfl, rfl⟩
  · exact ⟨rfl, rfl, rfl, rfl, rfl⟩

theorem finish_keeps (hp : s.phase = .compute) (h : finish s = .next t) :
    t.pbuf = s.pbuf ∧ t.rxq = s.rxq ∧ t.txlog = s.txlog ∧ t.hasCcid = s.hasCcid := by
  rcases finish_next hp h with ⟨-, rfl⟩ | ⟨-, ⟨-, rfl⟩ | ⟨-, p, -, rfl⟩ | ⟨-, rfl⟩ | ⟨-, e, c, rfl⟩⟩
  · exact ⟨rfl, rfl, rfl, rfl⟩
  · exact ⟨rfl, rfl, rfl, rfl⟩
  · exact ⟨rfl, rfl, rfl, rfl⟩
  · exact ⟨rfl, rfl, rfl, rfl⟩
  · exact ⟨rfl, rfl, rfl, rfl⟩

theorem txAccept_keeps (h : txAccept s = .next t) :
    t.pbuf = s.pbuf ∧ t.ccid = s.ccid ∧ t.rxq = s.rxq ∧ t.hasCcid = s.hasCcid ∧ ∃ b, t.txlog = s.txlog ++ [b] := by
  obtain ⟨b, rfl | ⟨p, -, rfl⟩⟩ := txAccept_cases h
  · exact ⟨rfl, rfl, rfl, rfl, b, rfl⟩
  · exact ⟨rfl, rfl, rfl, rfl, b, rfl⟩

/-- Where a body byte goes leaves all but PBUF and the capture registers, and FLEN (R171). -/
theorem storeBody_keeps {b : Byte} (h : storeBody b s = some t) :
    t = { s with pbuf := t.pbuf, cap := t.cap } ∧ t.cap.flen = s.cap.flen := by
  rcases storeBody_next h with ⟨-, -, e⟩ | ⟨-, c, rfl, hc⟩
  · exact ⟨e.trans (by rw [e]), by rw [e]⟩
  · exact ⟨rfl, hc⟩

theorem pullBody_keeps {b : Byte} (h : pullBody b s = .next t) :
    t.ccid = s.ccid ∧ t.rxq = s.rxq ∧ t.txlog = s.txlog ∧ t.hasCcid = s.hasCcid := by
  obtain ⟨s1, hs, e⟩ := pullBody_next h
  have hk := (storeBody_keeps hs).1
  rcases e with rfl | ⟨q, er, st, n, -, rfl, -⟩ <;> rw [hk]
  · exact ⟨rfl, rfl, rfl, rfl⟩
  · exact ⟨rfl, rfl, rfl, rfl⟩

/-! ### The end of a command (R123) -/

/-- What completion leaves: DONE, ERRF as ERR says, and the engine registers at rest (R123). -/
def State.Reported (s : State) : Prop :=
  s.status.done = true ∧ s.status.errf = decide (s.err ≠ .none) ∧ s.pos = 0 ∧ s.perr = .none

theorem complete_reported (e : ErrorCode) (s : State) : (complete e s).Reported := ⟨rfl, rfl, rfl, rfl⟩

theorem hostWrite_running {a : HostAddr} {v : Byte} (hp : s.phase ≠ .idle) (h : hostWrite a v s = .next t) :
    t.phase = s.phase := by
  rcases hostWrite_next h with ⟨hi, -, -⟩ | ⟨hi, -, -⟩ | ⟨-, rfl⟩ | rfl
  · exact absurd hi hp
  · exact absurd hi hp
  · rfl
  · rfl

theorem finish_ends (hp : s.phase = .compute) (h : finish s = .next t) (ht : t.phase = .idle) : t.Reported := by
  rcases finish_next hp h with ⟨-, rfl⟩ | ⟨-, ⟨-, rfl⟩ | ⟨-, p, -, rfl⟩ | ⟨-, rfl⟩ | ⟨-, e, c, rfl⟩⟩
  · exact complete_reported _ _
  · exact complete_reported _ _
  · exact complete_reported _ _
  · cases hp.symm.trans ht
  · exact complete_reported _ _

theorem txAccept_ends (hp : s.phase = .enc) (h : txAccept s = .next t) (ht : t.phase = .idle) : t.Reported := by
  obtain ⟨b, rfl | ⟨p, -, rfl⟩⟩ := txAccept_cases h
  · cases hp.symm.trans ht
  · exact complete_reported _ _

theorem rxTick_ends (hp : s.phase ≠ .idle) (ht : (rxTick s).phase = .idle) : (rxTick s).Reported := by
  rcases rxTick_cases s with ⟨-, e⟩ | ⟨-, e⟩ <;> rw [e] at ht ⊢
  · exact complete_reported _ _
  · exact absurd ht hp

theorem pullHeader_ends {b : Byte} (hp : s.phase ≠ .idle) (h : pullHeader b s = .next t) (ht : t.phase = .idle) :
    t.Reported := by
  obtain ⟨c, rfl | ⟨st, er, e⟩ | e⟩ := pullHeader_next h
  · exact absurd ht hp
  · rw [e]; exact complete_reported _ _
  · rw [e] at ht; cases ht

theorem pullBody_ends {b : Byte} (hp : s.phase ≠ .idle) (h : pullBody b s = .next t) (ht : t.phase = .idle) :
    t.Reported := by
  obtain ⟨s1, hs, rfl | ⟨q, er, st, n, -, rfl, -⟩⟩ := pullBody_next h
  · rw [(storeBody_keeps hs).1] at ht
    exact absurd ht hp
  · exact complete_reported _ _

/-- Settles O13: of the events of a running command only its own moves can complete it, and Reset clears it. -/
theorem commandsEndOnlyByTheirOwnEvents : Obligations.CommandsEndOnlyByTheirOwnEvents := by
  intro s t e hp h ht
  rcases applyEvent_cases h with ⟨a, v, -, hw⟩ | ⟨a, -, rfl⟩ | ⟨b, -, rfl⟩ | ⟨rfl, b, q, -, ⟨hr, hf⟩ | ⟨hr, hf⟩⟩ |
    ⟨rfl, hr, hf⟩ | ⟨rfl, ⟨rfl, -⟩ | ⟨hr, rfl⟩⟩ | ⟨rfl, hr, hf⟩ | ⟨rfl, rfl⟩
  · exact absurd ((hostWrite_running hp hw).symm.trans ht) hp
  · exact absurd ht hp
  · exact absurd ht hp
  · exact .inr ⟨.inr (.inr ⟨.inl rfl, .inl hr⟩), pullHeader_ends (s := { s with rxq := q }) hp hf ht⟩
  · exact .inr ⟨.inr (.inr ⟨.inl rfl, .inr hr⟩), pullBody_ends (s := { s with rxq := q }) hp hf ht⟩
  · exact .inr ⟨.inr (.inl ⟨rfl, hr⟩), txAccept_ends hr hf ht⟩
  · exact absurd ht hp
  · exact .inr ⟨.inr (.inr ⟨.inr rfl, hr⟩), rxTick_ends hp ht⟩
  · exact .inr ⟨.inl ⟨rfl, hr⟩, finish_ends hr hf ht⟩
  · exact .inl ⟨rfl, rfl, rfl⟩

/-! ### A failed DECODE (R191) -/

/-- Acceptance of a DECODE clears PLEN, whether or not it fails at once (R163, R164). -/
theorem decodeAccept_plen (s : State) : (decodeAccept s).plen = 0 := by
  simp only [decodeAccept, enterRx]
  split <;> rfl

/-- Only a body that completes with NONE stores PLEN (R174). -/
theorem pullBody_failed {b : Byte} (hp : s.phase ≠ .idle) (h : pullBody b s = .next t) (ht : t.phase = .idle)
    (he : t.err ≠ .none) : t.plen = s.plen := by
  obtain ⟨s1, hs, rfl | ⟨q, er, st, n, -, rfl, hn⟩⟩ := pullBody_next h
  · rw [(storeBody_keeps hs).1] at ht
    exact absurd ht hp
  · exact (hn he).trans (by rw [(storeBody_keeps hs).1])

/-- Every way a running DECODE ends with an error leaves PLEN as it was. -/
theorem decode_failed_plen {e : Event} (hp : s.phase = .decHdr ∨ s.phase = .decBody) (h : applyEvent e s = .next t)
    (ht : t.phase = .idle) (he : t.err ≠ .none) : t.plen = s.plen := by
  have hrun : s.phase ≠ .idle := by rcases hp with hp | hp <;> simp [hp]
  rcases applyEvent_cases h with ⟨a, v, -, hw⟩ | ⟨a, -, rfl⟩ | ⟨b, -, rfl⟩ | ⟨-, b, q, -, ⟨-, hf⟩ | ⟨-, hf⟩⟩ |
    ⟨-, hr, -⟩ | ⟨-, ⟨rfl, -⟩ | ⟨-, rfl⟩⟩ | ⟨-, hr, -⟩ | ⟨-, rfl⟩
  · exact absurd ((hostWrite_running hrun hw).symm.trans ht) hrun
  · exact absurd ht hrun
  · exact absurd ht hrun
  · exact (pullHeader_sameData hf).plen
  · exact pullBody_failed (s := { s with rxq := q }) hrun hf ht he
  · simp [hr] at hp
  · exact absurd ht hrun
  · exact (rxTick_sameData s).plen
  · simp [hr] at hp
  · exact absurd rfl he

/-- Settles O14: acceptance clears PLEN, it is 0 in both RX phases, and only success sets it. -/
theorem failedDecodeLeavesLengthZero : Obligations.FailedDecodeLeavesLengthZero := by
  intro s t e h hcase hev ht he
  rcases hcase with ⟨hp, rfl⟩ | hp
  · have hacc : applyEvent (.hostWrite 0x000 0x03) s = .next (decodeAccept (acceptBegin 0x03 s)) :=
      (hostWrite_cmd_idle hp).trans ((accept_ok (i := .decode) rfl).trans (exec_idle .decode hp))
    cases hacc.symm.trans hev
    exact decodeAccept_plen _
  · rw [decode_failed_plen hp hev ht he]
    rcases hp with hp | hp
    · obtain ⟨-, -, hlen, -⟩ := h.decHdr hp
      exact hlen
    · obtain ⟨-, -, hlen, -⟩ := h.decBody hp
      exact hlen

/-! ### PBUF (R31) -/

/-- A write of memory changes no other byte, and leaves its own value where it changes one. -/
theorem Memory.read_write_changed {m : Memory} {a b : Nat} {v : Byte} (h : (m.write a v).read b ≠ m.read b) :
    b = a ∧ (m.write a v).read b = some v := by
  have hb : b = a := Classical.not_not.1 fun hb => h (Memory.read_write_other v hb)
  subst hb
  refine ⟨rfl, Memory.read_write_same v ?_⟩
  by_contra hn
  have hn' : ¬ ((m.write b v).read b).isSome = true := by rwa [Memory.read_isSome, Memory.write_keys, ← Memory.read_isSome]
  rw [Option.not_isSome_iff_eq_none] at hn hn'
  exact h (hn'.trans hn.symm)

theorem pbufRead_write_changed {m : Memory} {a k : Nat} {v : Byte} (h : pbufRead (m.write a v) k ≠ pbufRead m k) :
    a = Config.pbufBase + k ∧ pbufRead (m.write a v) k = some v :=
  (Memory.read_write_changed h).imp_left Eq.symm

theorem hostWrite_pbuf {a : HostAddr} {v : Byte} (h : hostWrite a v s = .next t) :
    t.pbuf = s.pbuf ∨ (s.phase = .idle ∧ t.pbuf = s.pbuf.write a.toNat v) := by
  rcases hostWrite_next h with ⟨hp, -, ha⟩ | ⟨hp, -, rfl⟩ | ⟨-, rfl⟩ | rfl
  · obtain ⟨-, -, -, -, hpbuf, -⟩ := accept_keeps hp ha
    exact .inl hpbuf
  · rcases hostStore_cases a v s with ⟨-, e⟩ | ⟨-, -, e⟩ | ⟨-, -, e⟩ | ⟨-, e⟩ <;> rw [e]
    · exact .inl rfl
    · exact .inl rfl
    · exact .inl rfl
    · exact .inr ⟨hp, rfl⟩
  · exact .inl rfl
  · exact .inl rfl

theorem storeBody_pbuf {b : Byte} (h : storeBody b s = some t) :
    t.pbuf = s.pbuf ∨
      (s.pos.toNat < s.cap.flen.toNat ∧ t.pbuf = s.pbuf.write (Config.pbufBase + s.pos.toNat) b) := by
  rcases storeBody_next h with ⟨hlt, hw, -⟩ | ⟨-, c, rfl, -⟩
  · exact .inr ⟨hlt, (pbufWrite_eq_some.1 hw).2⟩
  · exact .inl rfl

theorem pullBody_pbuf {b : Byte} (h : pullBody b s = .next t) :
    t.pbuf = s.pbuf ∨
      (s.pos.toNat < s.cap.flen.toNat ∧ t.pbuf = s.pbuf.write (Config.pbufBase + s.pos.toNat) b) := by
  obtain ⟨s1, hs, rfl | ⟨q, er, st, n, -, rfl, -⟩⟩ := pullBody_next h
  · exact storeBody_pbuf (t := s1) hs
  · exact storeBody_pbuf (t := s1) hs

/-- Settles O54: the only writes of PBUF are the host's store, the DECODE's store and Reset's draw. -/
theorem pbufIsStableUntilWritten : Obligations.PbufIsStableUntilWritten := by
  intro s t e k h hne
  have same : t.pbuf ≠ s.pbuf := fun hs => hne (by rw [hs])
  rcases applyEvent_cases h with ⟨a, v, rfl, hw⟩ | ⟨a, -, rfl⟩ | ⟨b, -, rfl⟩ | ⟨rfl, b, q, hq, ⟨-, hf⟩ | ⟨hp, hf⟩⟩ |
    ⟨-, -, hf⟩ | ⟨-, ⟨rfl, -⟩ | ⟨-, rfl⟩⟩ | ⟨-, hp, hf⟩ | ⟨rfl, -⟩
  · obtain hs | ⟨hp, hs⟩ := hostWrite_pbuf hw
    · exact absurd hs same
    · rw [hs] at hne ⊢
      obtain ⟨ha, hv⟩ := pbufRead_write_changed hne
      exact .inr (.inl ⟨a, v, rfl, ha, hp, hv⟩)
  · exact absurd rfl same
  · exact absurd rfl same
  · exact absurd (pullHeader_sameData hf).pbuf same
  · obtain hs | ⟨hlt, hs⟩ := pullBody_pbuf hf
    · exact absurd hs same
    · rw [hs] at hne ⊢
      obtain ⟨ha, hv⟩ := pbufRead_write_changed hne
      have hk : s.pos.toNat = k := Nat.add_left_cancel ha
      exact .inr (.inr ⟨b, q, rfl, hp, hq, hk, hk ▸ hlt, hv⟩)
  · exact absurd (txAccept_keeps hf).1 same
  · exact absurd rfl same
  · exact absurd (rxTick_sameData s).pbuf same
  · exact absurd (finish_keeps hp hf).1 same
  · exact .inl rfl

/-! ### CKSUM (R26) -/

theorem txAccept_cksum (h : txAccept s = .next t) :
    t.cksum = s.cksum ∨ ∃ p, payload s.pbuf s.plen.toNat = some p ∧ t.cksum = cks p ∧ t.phase = .idle := by
  obtain ⟨b, rfl | ⟨p, hp, rfl⟩⟩ := txAccept_cases h
  · exact .inl rfl
  · exact .inr ⟨p, hp, rfl, rfl⟩

theorem pullBody_cksum {b : Byte} (h : pullBody b s = .next t) :
    t.cksum = s.cksum ∨ ∃ p, payload t.pbuf s.cap.flen.toNat = some p ∧ t.cksum = cks p ∧ t.phase = .idle := by
  obtain ⟨s1, hs, e⟩ := pullBody_next h
  obtain ⟨hk, hflen⟩ := storeBody_keeps hs
  rcases e with rfl | ⟨q, er, st, n, hq, rfl, -⟩
  · exact .inl (by rw [hk])
  · exact .inr ⟨q, hflen ▸ hq, rfl, rfl⟩

theorem finish_cksum (hp : s.phase = .compute) (h : finish s = .next t) :
    t.cksum = s.cksum ∨
      (s.op = 0x01 ∧ s.perr = .none ∧
        ∃ p, payload s.pbuf s.plen.toNat = some p ∧ t.cksum = cks p ∧ t.phase = .idle) := by
  rcases finish_next hp h with ⟨-, rfl⟩ | ⟨he, ⟨-, rfl⟩ | ⟨ho, p, hq, rfl⟩ | ⟨-, rfl⟩ | ⟨-, e, c, rfl⟩⟩
  · exact .inl rfl
  · exact .inl rfl
  · exact .inr ⟨ho, he, p, hq, rfl, rfl⟩
  · exact .inl rfl
  · exact .inl rfl

/-- Settles O55: CKSUM is written by the Finish of CKSUM, the last TxAccept, the last RxPull and Reset. -/
theorem cksumHoldsTheLastChecksum : Obligations.CksumHoldsTheLastChecksum := by
  intro s t e h hne
  rcases applyEvent_cases h with ⟨a, v, -, hw⟩ | ⟨a, -, rfl⟩ | ⟨b, -, rfl⟩ | ⟨rfl, b, q, -, ⟨-, hf⟩ | ⟨hp, hf⟩⟩ |
    ⟨rfl, -, hf⟩ | ⟨-, ⟨rfl, -⟩ | ⟨-, rfl⟩⟩ | ⟨rfl, hp, hf⟩ | ⟨rfl, -⟩
  · exact absurd (hostWrite_keeps hw).1 hne
  · exact absurd rfl hne
  · exact absurd rfl hne
  · exact absurd (pullHeader_sameData hf).cksum hne
  · exact .inr (.inr (.inr ⟨rfl, hp, (pullBody_cksum hf).resolve_left hne⟩))
  · exact .inr (.inr (.inl ⟨rfl, (txAccept_cksum hf).resolve_left hne⟩))
  · exact absurd rfl hne
  · exact absurd (rxTick_sameData s).cksum hne
  · exact .inr (.inl ⟨rfl, (finish_cksum hp hf).resolve_left hne⟩)
  · exact .inl rfl

/-! ### The CCID registers (R32, R186) -/

/-- A Finish that changes the CCID registers is a parse without pending error, and changes otherwise only the registers of
completion. -/
theorem finish_ccid (hp : s.phase = .compute) (h : finish s = .next t) :
    t.ccid = s.ccid ∨
      ((s.op = 0x04 ∨ s.op = 0x05) ∧ s.perr = .none ∧ ∃ e c, t = complete e { s with ccid := c }) := by
  rcases finish_next hp h with ⟨-, rfl⟩ | ⟨he, ⟨-, rfl⟩ | ⟨-, p, -, rfl⟩ | ⟨-, rfl⟩ | ⟨ho, e, c, rfl⟩⟩
  · exact .inl rfl
  · exact .inl rfl
  · exact .inl rfl
  · exact .inl rfl
  · exact .inr ⟨ho, he, e, c, rfl⟩

/-- Settles O56: only a parse and Reset write the CCID registers, and a parse completes over the registers it wrote. -/
theorem ccidRegistersChangeByParsesOnly : Obligations.CcidRegistersChangeByParsesOnly := by
  intro s t e h hne
  rcases applyEvent_cases h with ⟨a, v, -, hw⟩ | ⟨a, -, rfl⟩ | ⟨b, -, rfl⟩ | ⟨-, b, q, -, ⟨-, hf⟩ | ⟨-, hf⟩⟩ |
    ⟨-, -, hf⟩ | ⟨-, ⟨rfl, -⟩ | ⟨-, rfl⟩⟩ | ⟨rfl, hp, hf⟩ | ⟨rfl, -⟩
  · obtain ⟨-, hccid, -⟩ := hostWrite_keeps hw
    exact absurd hccid hne
  · exact absurd rfl hne
  · exact absurd rfl hne
  · exact absurd (pullHeader_sameData hf).ccid hne
  · exact absurd (pullBody_keeps hf).1 hne
  · obtain ⟨-, hccid, -⟩ := txAccept_keeps hf
    exact absurd hccid hne
  · exact absurd rfl hne
  · exact absurd (rxTick_sameData s).ccid hne
  · obtain ⟨ho, he, er, c, rfl⟩ := (finish_ccid hp hf).resolve_left hne
    exact .inr ⟨rfl, ho, he, by simp [complete, he], rfl⟩
  · exact .inl rfl

/-! ### The streams (R28, R34, R62) -/

/-- Settles O57: only an arrival, a pull and a TxAccept touch a stream, each by one byte. -/
theorem streamsKeepTheirOrder : Obligations.StreamsKeepTheirOrder := by
  intro s t e h
  rcases applyEvent_cases h with ⟨a, v, rfl, hw⟩ | ⟨a, rfl, rfl⟩ | ⟨b, rfl, rfl⟩ | ⟨rfl, b, q, hq, ⟨-, hf⟩ | ⟨-, hf⟩⟩ |
    ⟨rfl, -, hf⟩ | ⟨rfl, ⟨rfl, -⟩ | ⟨-, rfl⟩⟩ | ⟨rfl, hp, hf⟩ | ⟨rfl, rfl⟩
  · obtain ⟨-, -, hrxq, htxlog, hccid⟩ := hostWrite_keeps hw
    exact ⟨.inr (.inr ⟨nofun, nofun, hrxq⟩), .inr ⟨nofun, htxlog⟩, hccid⟩
  · exact ⟨.inr (.inr ⟨nofun, nofun, rfl⟩), .inr ⟨nofun, rfl⟩, rfl⟩
  · exact ⟨.inl ⟨b, rfl, rfl⟩, .inr ⟨nofun, rfl⟩, rfl⟩
  · obtain ⟨-, -, -, -, hrxq, htxlog, hccid⟩ := pullHeader_sameData hf
    exact ⟨.inr (.inl ⟨rfl, b, by rw [hq, hrxq]⟩), .inr ⟨nofun, htxlog⟩, hccid⟩
  · obtain ⟨-, hrxq, htxlog, hccid⟩ := pullBody_keeps hf
    exact ⟨.inr (.inl ⟨rfl, b, by rw [hq, hrxq]⟩), .inr ⟨nofun, htxlog⟩, hccid⟩
  · obtain ⟨-, -, hrxq, hccid, htxlog⟩ := txAccept_keeps hf
    exact ⟨.inr (.inr ⟨nofun, nofun, hrxq⟩), .inl ⟨rfl, htxlog⟩, hccid⟩
  · exact ⟨.inr (.inr ⟨nofun, nofun, rfl⟩), .inr ⟨nofun, rfl⟩, rfl⟩
  · obtain ⟨-, -, -, -, hrxq, htxlog, hccid⟩ := rxTick_sameData s
    exact ⟨.inr (.inr ⟨nofun, nofun, hrxq⟩), .inr ⟨nofun, htxlog⟩, hccid⟩
  · obtain ⟨-, hrxq, htxlog, hccid⟩ := finish_keeps hp hf
    exact ⟨.inr (.inr ⟨nofun, nofun, hrxq⟩), .inr ⟨nofun, htxlog⟩, hccid⟩
  · exact ⟨.inr (.inr ⟨nofun, nofun, rfl⟩), .inr ⟨nofun, rfl⟩, rfl⟩

end Sys2Proof.Machine
end

section
/-! PROOFS. The host's view (spec/10_state.md R18-R21, R33; spec/20_memory.md R67, R70, R71): which registers a host read
depends on, the store of an idle write, the bits of STATUS and CSTAT, and the error codes. -/

namespace Sys2Proof.Machine

variable {s : State}

/-! ### What a host read depends on -/

theorem hostReadByte_cfg {a : HostAddr} (h : a.toNat = 3) : hostReadByte s a = cfgByte s := by
  simp [hostReadByte, h]

theorem hostReadByte_timeout {a : HostAddr} (h1 : 4 ≤ a.toNat) (h2 : a.toNat ≤ 7) :
    hostReadByte s a = byteOf s.timeout (a.toNat - 4) := by
  have hn (k : Nat) (hk : k < 4) : ¬ a.toNat = k := by omega
  simp [hostReadByte, hn, h2]

theorem hostReadByte_plen {a : HostAddr} (h1 : 8 ≤ a.toNat) (h2 : a.toNat ≤ 9) :
    hostReadByte s a = byteOf s.plen (a.toNat - 8) := by
  have hn (k : Nat) (hk : k < 8) : ¬ a.toNat = k := by omega
  have h7 : ¬ a.toNat ≤ 7 := by omega
  simp [hostReadByte, hn, h7, h2]

/-- CFG is read at its own address only. -/
theorem hostReadByte_dcsEn_other {b : HostAddr} (hb : b.toNat ≠ 3) (d : Bool) :
    hostReadByte { s with dcsEn := d } b = hostReadByte s b := by
  simp only [hostReadByte, hb, if_false]
  rfl

/-- A read that TIMEOUT does not reach, or at which its byte is the same, is the same. -/
theorem hostReadByte_timeout_other {b : HostAddr} {w : Word}
    (hb : 4 ≤ b.toNat → byteOf w (b.toNat - 4) = byteOf s.timeout (b.toNat - 4)) :
    hostReadByte { s with timeout := w } b = hostReadByte s b := by
  rcases Nat.lt_or_ge b.toNat 4 with h4 | h4
  · have : b.toNat = 0 ∨ b.toNat = 1 ∨ b.toNat = 2 ∨ b.toNat = 3 := by omega
    rcases this with h | h | h | h <;> simp only [hostReadByte, h] <;> rfl
  · simp only [hostReadByte, hb h4]
    rfl

/-- A read that PLEN does not reach, or at which its byte is the same, is the same. -/
theorem hostReadByte_plen_other {b : HostAddr} {n : Half}
    (hb : 8 ≤ b.toNat → byteOf n (b.toNat - 8) = byteOf s.plen (b.toNat - 8)) :
    hostReadByte { s with plen := n } b = hostReadByte s b := by
  rcases Nat.lt_or_ge b.toNat 8 with h8 | h8
  · have h7 : b.toNat ≤ 7 := by omega
    simp only [hostReadByte, h7, if_true]
    rfl
  · simp only [hostReadByte, hb h8]
    rfl

/-- A read at whose address memory holds the same byte is the same. -/
theorem hostReadByte_pbuf_other {b : HostAddr} {m : Memory} (hb : m.read b.toNat = s.pbuf.read b.toNat) :
    hostReadByte { s with pbuf := m } b = hostReadByte s b := by
  simp only [hostReadByte, hb]
  rfl

/-! ### The store of an idle write (R67, R70) -/

/-- Bit 0 of a byte, as CFG stores and reads it (R20). -/
theorem flagBit_zero_getLsbD (v : Byte) : flagBit (v.getLsbD 0) 0 = v &&& 0x01 := by
  revert v; decide

/-- The written address reads the byte written, CFG its bit 0 alone. -/
theorem hostReadByte_hostStore_same (hm : s.pbuf.wf = true) {a : HostAddr} (ha : storable a = true) (v : Byte) :
    hostReadByte (hostStore a v s) a = if a = 0x003 then v &&& 0x01 else v := by
  have ha' := (storable_iff a).1 ha
  have ne3 (h : a.toNat ≠ 3) : a ≠ 0x003 := fun e => h (by rw [e]; rfl)
  rcases hostStore_cases a v s with ⟨h, e⟩ | ⟨h3, h7, e⟩ | ⟨h7, h9, e⟩ | ⟨h9, e⟩ <;> rw [e]
  · rw [hostReadByte_cfg h, if_pos (BitVec.eq_of_toNat_eq h)]
    exact flagBit_zero_getLsbD v
  · rw [hostReadByte_timeout (by omega) h7, if_neg (ne3 h3)]
    exact byteOf_putByte_same _ _ _ (by omega)
  · rw [hostReadByte_plen (by omega) h9, if_neg (ne3 (by omega))]
    exact byteOf_putByte_same _ _ _ (by omega)
  · have hl : a.toNat ∈ s.pbuf.map Prod.fst := (Memory.mem_keys_of_wf hm _).2 (by omega)
    rw [hostReadByte_memory _ _ (by omega), if_neg (ne3 (by omega)), Memory.read_write_same v (Memory.read_isSome.2 hl)]
    rfl

/-- Every other address reads as before. -/
theorem hostReadByte_hostStore_other {a b : HostAddr} (ha : storable a = true) (hb : b ≠ a) (v : Byte) :
    hostReadByte (hostStore a v s) b = hostReadByte s b := by
  have ha' := (storable_iff a).1 ha
  have hne : b.toNat ≠ a.toNat := fun h => hb (BitVec.eq_of_toNat_eq h)
  rcases hostStore_cases a v s with ⟨h3, e⟩ | ⟨h3, h7, e⟩ | ⟨h7, h9, e⟩ | ⟨h9, e⟩ <;> rw [e]
  · exact hostReadByte_dcsEn_other (by omega) _
  · exact hostReadByte_timeout_other fun hb4 => byteOf_putByte_other _ _ _ _ (by omega)
  · exact hostReadByte_plen_other fun hb8 => byteOf_putByte_other _ _ _ _ (by omega)
  · exact hostReadByte_pbuf_other (Memory.read_write_other v hne)

theorem hostStore_frame (a : HostAddr) (v : Byte) (s : State) :
    let t := hostStore a v s
    t = { s with dcsEn := t.dcsEn, timeout := t.timeout, plen := t.plen, pbuf := t.pbuf } := by
  rcases hostStore_cases a v s with ⟨-, e⟩ | ⟨-, -, e⟩ | ⟨-, -, e⟩ | ⟨-, e⟩ <;> simp only [e]

theorem hostStore_wf (a : HostAddr) (v : Byte) (s : State) : (hostStore a v s).pbuf.wf = s.pbuf.wf := by
  rcases hostStore_cases a v s with ⟨-, e⟩ | ⟨-, -, e⟩ | ⟨-, -, e⟩ | ⟨-, e⟩ <;> simp only [e, Memory.wf_write]

/-- A host write to an idle engine that is no command: the store, or nothing (R70). -/
theorem hostWrite_idle {a : HostAddr} {v : Byte} (hp : s.phase = .idle) (ha : a ≠ 0x000) :
    hostWrite a v s = .next (if storable a then hostStore a v s else s) := by
  have ha' : a.toNat ≠ 0 := fun h => ha (BitVec.eq_of_toNat_eq h)
  simp only [hostWrite, ha', busy_eq_false.2 hp, if_false, Bool.false_eq_true]
  split <;> rfl

/-- Settles O15: an idle write is the store of one byte, whose address alone reads differently, or nothing. -/
theorem idleWritesStoreOneByte : Obligations.IdleWritesStoreOneByte := by
  intro s a v hm hp ha
  have hw : applyEvent (.hostWrite a v) s = .next (if storable a then hostStore a v s else s) :=
    (applyEvent_enabled rfl).trans (hostWrite_idle hp ha)
  refine ⟨fun hs => ?stored, fun hs => ?ignored⟩
  case stored =>
    have hst := (storable_iff a).2 hs
    exact ⟨hostStore a v s, by rw [hw, if_pos hst], hostReadByte_hostStore_same hm hst v,
      fun b hb => hostReadByte_hostStore_other hst hb v, hostStore_frame a v s, (hostStore_wf a v s).trans hm⟩
  case ignored => rw [hw, if_neg (mt (storable_iff a).1 hs)]

/-! ### The bits of STATUS and CSTAT (R18, R33), and the error codes (R190) -/

/-- A flag at bit `k` is at that bit and at no other. -/
theorem getLsbD_flagBit (f : Bool) {k i : Nat} (hi : i < 8) : (flagBit f k).getLsbD i = (decide (i = k) && f) := by
  cases f with
  | false => simp [flagBit]
  | true =>
    simp only [flagBit, if_true, BitVec.getLsbD_shiftLeft, hi, BitVec.getLsbD_one]
    by_cases h : i < k
    · have : i ≠ k := by omega
      simp [h, this]
    · simp [h]; omega

/-- STATUS bit by bit: each flag counts at its own bit alone. -/
theorem statusByte_getLsbD (s : State) {k : Nat} (hk : k < 8) :
    (statusByte s).getLsbD k =
      (decide (k = 0) && s.busy || decide (k = 1) && s.status.done || decide (k = 2) && s.status.errf ||
        decide (k = 3) && s.status.dcsOk || decide (k = 4) && s.status.postOk || decide (k = 5) && s.status.wign ||
        decide (k = 6) && s.status.hdrOk) := by
  simp only [statusByte, BitVec.getLsbD_or, getLsbD_flagBit _ hk]

/-- Settles O18: address 0x001 reads STATUS, whose flags have a bit of their own each. -/
theorem statusBitsAreTheFlags : Obligations.StatusBitsAreTheFlags := by
  intro s b
  have hb : b = statusByte s := rfl
  simp (disch := omega) only [hb, statusByte_getLsbD]
  simp [State.busy]

/-- The codes are numbered in the order of R190. -/
theorem errorCode_code_toNat (e : ErrorCode) : e.code.toNat = e.ctorIdx := by cases e <;> rfl

theorem errorCode_code_injective {e f : ErrorCode} (h : e.code = f.code) : e = f := by
  have hi : e.ctorIdx = f.ctorIdx := by rw [← errorCode_code_toNat, ← errorCode_code_toNat, h]
  rw [← ErrorCode.ofNat_ctorIdx e, hi, ErrorCode.ofNat_ctorIdx]

theorem errorCode_code_lt (e : ErrorCode) : e.code.toNat < 9 := by cases e <;> decide

/-- Settles O19: address 0x002 reads the code of ERR. -/
theorem errorCodesAreNumbered : Obligations.ErrorCodesAreNumbered :=
  ⟨rfl, fun _ _ => errorCode_code_injective, fun s => errorCode_code_lt s.err⟩

/-- Settles O45: each flag's mask has its own bit alone. -/
theorem cstatFlagsClassifyTheHeader : Obligations.CstatFlagsClassifyTheHeader := by
  intro c plen _ f
  have hf : f = ccidFlags c plen := rfl
  simp only [hf, ccidFlags_getLsbD]
  simp

end Sys2Proof.Machine
end

section
/-! PROOFS. What every host address reads, and the reserved addresses (spec/20_memory.md R64, R66, R71). -/

namespace Sys2Proof.Machine

variable {s : State}

/-! ### The bytes of a register (R64, R67) -/

theorem byteOf_toNat {w : Nat} (v : BitVec w) (k : Nat) : (byteOf v k).toNat = v.toNat / 2 ^ (8 * k) % 256 := by
  simp [byteOf, Nat.shiftRight_eq_div_pow]

/-- A 16-bit register is its two bytes, low byte first (R64(c)). -/
theorem half_eq_bytes (v : Half) : (byteOf v 0).toNat + (byteOf v 1).toNat * 2 ^ 8 = v.toNat := by
  simp only [byteOf_toNat]
  omega

/-- A 32-bit register is its four bytes, low byte first (R64(c)). -/
theorem word_eq_bytes (v : Word) :
    (byteOf v 0).toNat + (byteOf v 1).toNat * 2 ^ 8 + ((byteOf v 2).toNat + (byteOf v 3).toNat * 2 ^ 8) * 2 ^ 16 =
      v.toNat := by
  simp only [byteOf_toNat]
  omega

/-- Two registers with the same bytes are the same. -/
theorem eq_of_byteOf_eq {w : Nat} {u v : BitVec w} (h : ∀ k, 8 * k < w → byteOf u k = byteOf v k) : u = v := by
  apply BitVec.eq_of_getLsbD_eq
  intro i hi
  have hb := congrArg (·.getLsbD (i % 8)) (h (i / 8) (by omega))
  have hm : i % 8 < 8 := by omega
  simpa [byteOf, hm, Nat.div_add_mod] using hb

/-! ### What every address reads (R66, R71) -/

theorem hostReadByte_hdr {a : HostAddr} {k : Nat} (hk : k < 6) (ha : a.toNat = 0x010 + k) :
    hostReadByte s a = s.cap.hdr[k] := by
  have hn (j : Nat) (hj : j < 0x010) : ¬ 0x010 + k = j := by omega
  have hl (j : Nat) (hj : j < 0x010) : ¬ 0x010 + k ≤ j := by omega
  have hh : 0x010 ≤ 0x010 + k ∧ 0x010 + k ≤ 0x015 := by omega
  simp only [hostReadByte, ha, hn, hl, Nat.reduceLT, if_false, dif_pos hh, Nat.add_sub_cancel_left]

/-- The reserved addresses after FLEN. -/
theorem hostReadByte_after_flen {a : HostAddr} (h1 : 0x01A ≤ a.toNat) (h2 : a.toNat ≤ 0x01F) :
    hostReadByte s a = 0x00 := by
  have hn (j : Nat) (hj : j < 0x01A) : ¬ a.toNat = j := by omega
  have hl (j : Nat) (hj : j < 0x01A) : ¬ a.toNat ≤ j := by omega
  simp only [hostReadByte, hn, hl, h2, Nat.reduceLT, if_false, if_true, and_false, dite_false]

theorem ccidReading_parser (hc : s.hasCcid = true) (v : Byte) : ccidReading s v = v := by simp [ccidReading, hc]

theorem ccidReading_absent (hc : s.hasCcid = false) (v : Byte) : ccidReading s v = 0x00 := by simp [ccidReading, hc]

theorem hostReadByte_clen (hc : s.hasCcid = true) {a : HostAddr} {k : Nat} (hk : k < 4) (ha : a.toNat = 0x021 + k) :
    hostReadByte s a = byteOf s.ccid.clen k := by
  have hn (j : Nat) (hj : j < 0x021) : ¬ 0x021 + k = j := by omega
  have hl (j : Nat) (hj : j < 0x021) : ¬ 0x021 + k ≤ j := by omega
  have h24 : 0x021 + k ≤ 0x024 := by omega
  simp only [hostReadByte, ha, hn, hl, h24, Nat.reduceLT, if_false, if_true, and_false, dite_false, ccidReading_parser hc,
    Nat.add_sub_cancel_left]

/-- Without a parser its addresses read 0x00, whatever its registers hold (R183). -/
theorem hostReadByte_parser_absent (hc : s.hasCcid = false) {a : HostAddr} (h1 : 0x020 ≤ a.toNat) (h2 : a.toNat ≤ 0x02A) :
    hostReadByte s a = 0x00 := by
  have hn (j : Nat) (hj : j < 0x020) : ¬ a.toNat = j := by omega
  have hl (j : Nat) (hj : j < 0x020) : ¬ a.toNat ≤ j := by omega
  simp only [hostReadByte, hn, hl, Nat.reduceLT, if_false, and_false, dite_false, ccidReading_absent hc]
  have haddr : a.toNat = 0x020 ∨ a.toNat ≤ 0x024 ∨ a.toNat = 0x025 ∨ a.toNat = 0x026 ∨ a.toNat = 0x027 ∨ a.toNat = 0x028 ∨
    a.toNat = 0x029 ∨ a.toNat = 0x02A := by omega
  rcases haddr with h | h | h | h | h | h | h | h <;> simp [h]

/-- Outside PBUF memory holds no byte. -/
theorem hostReadByte_outside_pbuf (hm : s.pbuf.wf = true) {a : HostAddr} (h1 : 0x02B ≤ a.toNat)
    (h2 : ¬ (0x100 ≤ a.toNat ∧ a.toNat < 0x100 + 282)) : hostReadByte s a = 0x00 := by
  have hr : ¬ (s.pbuf.read a.toNat).isSome = true := by rwa [Memory.read_isSome, Memory.mem_keys_of_wf hm]
  rw [hostReadByte_memory _ _ h1, Option.not_isSome_iff_eq_none.1 hr]
  rfl

/-- PBUF reads its bytes, whatever PLEN is. -/
theorem hostReadByte_pbuf (hm : s.pbuf.wf = true) {k : Nat} (hk : k < 282) :
    pbufRead s.pbuf k = some (hostReadByte s (BitVec.ofNat 10 (0x100 + k))) := by
  have ha : (BitVec.ofNat 10 (0x100 + k)).toNat = 0x100 + k := by
    rw [BitVec.toNat_ofNat]; omega
  obtain ⟨b, hb⟩ := pbufRead_some hm hk
  rw [hostReadByte_memory _ _ (by omega), ha, hb]
  simp only [pbufRead, Config.pbufBase] at hb
  simp [hb]

/-- A reserved address reads 0x00 (R66, R183). -/
theorem hostReadByte_reserved (hm : s.pbuf.wf = true) {a : HostAddr} (ha : reservedAddress s.hasCcid a) :
    hostReadByte s a = 0x00 := by
  rcases ha with h | ⟨h1, h2⟩ | ⟨h1, h2⟩ | ⟨h1, h2⟩ | ⟨hc, h1, h2⟩
  · simp [hostReadByte, h]
  · exact hostReadByte_after_flen h1 h2
  · exact hostReadByte_outside_pbuf hm h1 (by omega)
  · exact hostReadByte_outside_pbuf hm (by omega) (by omega)
  · exact hostReadByte_parser_absent hc h1 h2

theorem cfgByte_toNat (s : State) : (cfgByte s).toNat = s.dcsEn.toNat := by
  cases h : s.dcsEn <;> simp [cfgByte, flagBit, h]

/-- The parser's registers at their addresses, CLEN low byte first (R71). -/
theorem hostReads_ccid (hc : s.hasCcid = true) :
    let rd := hostReadByte s
    rd 0x020 = s.ccid.mtype ∧
      (rd 0x021).toNat + (rd 0x022).toNat * 2 ^ 8 + ((rd 0x023).toNat + (rd 0x024).toNat * 2 ^ 8) * 2 ^ 16 =
        s.ccid.clen.toNat ∧
      rd 0x025 = s.ccid.slot ∧ rd 0x026 = s.ccid.seq ∧ rd 0x027 = s.ccid.msg7 ∧ rd 0x028 = s.ccid.msg8 ∧
      rd 0x029 = s.ccid.msg9 ∧ rd 0x02A = s.ccid.cstat := by
  have hr := ccidReading_parser hc
  refine ⟨hr _, ?clen, hr _, hr _, hr _, hr _, hr _, hr _⟩
  case clen =>
    rw [hostReadByte_clen hc (k := 0) (by decide) rfl, hostReadByte_clen hc (k := 1) (by decide) rfl,
      hostReadByte_clen hc (k := 2) (by decide) rfl, hostReadByte_clen hc (k := 3) (by decide) rfl]
    exact word_eq_bytes s.ccid.clen

/-- Settles O16: a fixed address picks its line of R71's table, a multi-byte register is the sum of its bytes, and the
header bytes, PBUF, the parser and the reserved addresses have a lemma each. -/
theorem hostReadsReturnTheRegisters : Obligations.HostReadsReturnTheRegisters := by
  intro s hm rd word16 word32
  refine ⟨fun a => rfl, rfl, rfl, rfl, cfgByte_toNat s, word_eq_bytes s.timeout, half_eq_bytes s.plen, rfl,
    half_eq_bytes s.txcnt, half_eq_bytes s.rxcnt, fun k hk => hostReadByte_hdr hk ?hdr, rfl, rfl,
    half_eq_bytes s.cap.flen, hostReads_ccid, fun k hk => hostReadByte_pbuf hm hk, fun a => hostReadByte_reserved hm⟩
  case hdr => rw [BitVec.toNat_ofNat]; omega

/-- Settles O17: a reserved address is neither CMD nor storable, and it reads as no register or memory. -/
theorem reservedAddressesDoNothing : Obligations.ReservedAddressesDoNothing := by
  intro s a v hm ha
  have h0 : a.toNat ≠ 0 := by unfold reservedAddress at ha; omega
  have hs : ¬ storable a = true := by rw [storable_iff]; unfold reservedAddress at ha; omega
  refine ⟨hostReadByte_reserved hm ha, ?write⟩
  case write => rw [applyEvent_enabled rfl, effect, hostWrite, if_neg h0, if_neg hs]

end Sys2Proof.Machine
end

section
/-! PROOFS. The ports and the cycles, the block's place in the platform, and the multi-byte writes of test programs
(spec/20_memory.md R65, R67, R72; spec/30_encoding.md R110). -/

namespace Sys2Proof.Machine

variable {s : State}

/-! ### The ports (R65, R156) -/

/-- What every cycle without Reset ends with: the Tick, then the host access (R65, D32). -/
def Cycle.tickAndHost (c : Cycle) : List Event :=
  (if c.tick = true then [.tick] else []) ++ (c.host.map HostAccess.event).toList

/-- Of the engine's and the transport's events a cycle has those that are offered and enabled. -/
theorem Cycle.events_running {c : Cycle} (hr : c.rst = false) :
    c.events s =
      (if c.rxOffer && enabled .rxPull s then [.rxPull] else []) ++
        ((if c.txReady && enabled .txAccept s then [.txAccept] else []) ++
          ((if c.finish && enabled .finish s then [.finish] else []) ++ c.tickAndHost)) := by
  cases h : c.host <;> simp [Cycle.events, Cycle.tickAndHost, hr, h]

theorem optional_append (p : Prop) [Decidable p] (e : Event) (es : List Event) :
    (if p then [e] else []) ++ es = if p then e :: es else es := by
  split <;> rfl

/-- Settles O20: of RxPull, TxAccept and Finish only the phase's own is enabled, so a cycle has at most that one. -/
theorem portsFollowThePhase : Obligations.PortsFollowThePhase := by
  refine ⟨fun s => ⟨inRx_eq_true, enabled_txAccept, ?valid⟩, fun s p hp => frameByte_eq hp _, fun s c hr => ?reset,
    fun s c hr => ?running⟩
  case valid => simp [rxValid]
  case reset => rw [Cycle.events, if_pos hr]
  case running =>
    intro rest
    have hrest : c.tickAndHost = rest := rfl
    rw [Cycle.events_running hr, hrest]
    simp only [optional_append, Bool.and_eq_true, enabled_rxPull, enabled_txAccept, enabled_finish]
    refine ⟨fun hp => ?idle, fun hp => ?compute, fun hp => ?enc, fun hp => ?rx⟩
    case idle => simp [hp]
    case compute => simp [hp]
    case enc => simp [hp]
    case rx =>
      have henc : s.phase ≠ .enc := by rcases hp with hp | hp <;> simp [hp]
      have hcompute : s.phase ≠ .compute := by rcases hp with hp | hp <;> simp [hp]
      simp [hp, henc, hcompute]

/-! ### The platform's address space (R72) -/

/-- Settles O21: a host address is less than 1024, so the offset can be taken off again. -/
theorem platformAddressesAreOffset : Obligations.PlatformAddressesAreOffset := by
  refine ⟨fun a => ⟨rfl, ?undone⟩, fun p a h => ?only⟩
  case undone =>
    have ha := a.isLt
    rw [hostAddressOf, if_pos (by unfold platformAddress; omega), platformAddress, Nat.add_sub_cancel_left,
      BitVec.ofNat_toNat, BitVec.setWidth_eq]
  case only =>
    unfold hostAddressOf at h
    split at h
    · cases h
      rw [platformAddress, BitVec.toNat_ofNat]
      omega
    · cases h

/-! ### Multi-byte writes (R110) -/

/-- An idle engine has no event of its own to take (R108). -/
theorem drain_idle (hp : s.phase = .idle) : drain s = some s := by
  simp [drain, drainFor, engineEvent_none.2 (.inl hp)]

theorem hostStore_phase (a : HostAddr) (v : Byte) (s : State) : (hostStore a v s).phase = s.phase := by
  rw [hostStore_frame]

/-- A test program's write to an idle engine stores its byte, and no engine event follows (R108). -/
theorem run_wr_idle {a : HostAddr} {v : Byte} (hp : s.phase = .idle) (ha : storable a = true) :
    CoreStmt.run (.wr a v) s = some (hostStore a v s) := by
  have h0 : a ≠ 0x000 := by rintro rfl; cases ha
  have hw : applyEvent (.hostWrite a v) s = .next (hostStore a v s) := by
    rw [applyEvent_enabled rfl, effect, hostWrite_idle hp h0, if_pos ha]
  rw [CoreStmt.run, hw, nextState?, Option.bind_some, drain_idle ((hostStore_phase a v s).trans hp)]

/-- The stores of consecutive bytes from host address `a` on, first byte first. -/
def storesFrom (a : Nat) : List Byte → State → State
  | [], s => s
  | b :: bs, s => storesFrom (a + 1) bs (hostStore (BitVec.ofNat 10 a) b s)

/-- Consecutive writes to the writable registers of an idle engine are their stores (R110). -/
theorem runCore_writesFrom {a : Nat} {bs : List Byte} (hp : s.phase = .idle) (h1 : 3 ≤ a) (h2 : a + bs.length ≤ 10) :
    runCore (writesFrom a bs) s = some (storesFrom a bs s) := by
  induction bs generalizing a s with
  | nil => rfl
  | cons b bs ih =>
    simp only [List.length_cons] at h2
    have ha : storable (BitVec.ofNat 10 a) = true := by
      rw [storable_iff, BitVec.toNat_ofNat]; omega
    rw [writesFrom, runCore, run_wr_idle hp ha]
    exact ih ((hostStore_phase _ _ s).trans hp) (by omega) (by omega)

/-- Putting all bytes of a value puts the value, whatever the register held. -/
theorem putBytes_half (n v : Half) : putByte (putByte n 0 (byteOf v 0)) 1 (byteOf v 1) = v := by
  apply eq_of_byteOf_eq
  intro k hk
  have hbyte : k = 0 ∨ k = 1 := by omega
  rcases hbyte with rfl | rfl <;> simp [byteOf_putByte_other, byteOf_putByte_same]

theorem putBytes_word (n v : Word) :
    putByte (putByte (putByte (putByte n 0 (byteOf v 0)) 1 (byteOf v 1)) 2 (byteOf v 2)) 3 (byteOf v 3) = v := by
  apply eq_of_byteOf_eq
  intro k hk
  have hbyte : k = 0 ∨ k = 1 ∨ k = 2 ∨ k = 3 := by omega
  rcases hbyte with rfl | rfl | rfl | rfl <;> simp [byteOf_putByte_other, byteOf_putByte_same]


/-- Settles O22: the writes are the stores of the value's bytes, which together are the value. -/
theorem multiByteWritesSetTheRegister : Obligations.MultiByteWritesSetTheRegister := by
  intro s hp
  refine ⟨fun v => ?half, fun v => ?word⟩
  case half =>
    calc runCore (expand (.wr16 0x008 v)) s
      _ = some (storesFrom 0x008 [byteOf v 0, byteOf v 1] s) := runCore_writesFrom hp (by decide) (by simp)
      _ = some { s with plen := putByte (putByte s.plen 0 (byteOf v 0)) 1 (byteOf v 1) } := rfl
      _ = some { s with plen := v } := by rw [putBytes_half]
  case word =>
    calc runCore (expand (.wr32 0x004 v)) s
      _ = some (storesFrom 0x004 [byteOf v 0, byteOf v 1, byteOf v 2, byteOf v 3] s) :=
        runCore_writesFrom hp (by decide) (by simp)
      _ = some { s with
            timeout := putByte (putByte (putByte (putByte s.timeout 0 (byteOf v 0)) 1 (byteOf v 1)) 2 (byteOf v 2)) 3
              (byteOf v 3) } := rfl
      _ = some { s with timeout := v } := by rw [putBytes_word]

end Sys2Proof.Machine
end

section
/-! PROOFS. Which registers an event can change, while the engine is idle and while a command runs (spec/20_memory.md R68,
R76; spec/40_command.md R121; spec/60_exceptions.md R197, R203). -/

namespace Sys2Proof.Machine

variable {s t : State}

/-! ### While no command runs (R68, R197, R203) -/

/-- The store of a host write changes only the register its address names (R70). -/
theorem hostStore_changes {a : HostAddr} (ha : storable a = true) (v : Byte) (s : State) :
    let t := hostStore a v s
    (t.dcsEn ≠ s.dcsEn → a = 0x003) ∧ (t.timeout ≠ s.timeout → 0x004 ≤ a.toNat ∧ a.toNat ≤ 0x007) ∧
      (t.plen ≠ s.plen → 0x008 ≤ a.toNat ∧ a.toNat ≤ 0x009) ∧
      (t.pbuf ≠ s.pbuf → 0x100 ≤ a.toNat ∧ a.toNat ≤ 0x219) ∧
      ∀ k, pbufRead t.pbuf k ≠ pbufRead s.pbuf k → a.toNat = 0x100 + k := by
  have ha' := (storable_iff a).1 ha
  rcases hostStore_cases a v s with ⟨h3, e⟩ | ⟨h3, h7, e⟩ | ⟨h7, h9, e⟩ | ⟨h9, e⟩ <;> rw [e]
  · exact ⟨fun _ => BitVec.eq_of_toNat_eq h3, absurd rfl, absurd rfl, absurd rfl, fun _ => absurd rfl⟩
  · exact ⟨absurd rfl, fun _ => by omega, absurd rfl, absurd rfl, fun _ => absurd rfl⟩
  · exact ⟨absurd rfl, absurd rfl, fun _ => by omega, absurd rfl, fun _ => absurd rfl⟩
  · exact ⟨absurd rfl, absurd rfl, absurd rfl, fun _ => by omega, fun _ h => (pbufRead_write_changed h).1⟩

/-- What an event of an idle engine can be, a CMD write and Reset excepted: a store, or no change but of RXQ by an arrival and
of the record of readings by a host read. -/
theorem idleEvent_cases {e : Event} (hp : s.phase = .idle) (hr : e ≠ .reset) (hc : ∀ v, e ≠ .hostWrite 0x000 v)
    (h : applyEvent e s = .next t) :
    (∃ a v, e = .hostWrite a v ∧ storable a = true ∧ t = hostStore a v s) ∨
      (t = { s with rxq := t.rxq, hostReads := t.hostReads } ∧ ((∀ b, e ≠ .rxArrive b) → t.rxq = s.rxq) ∧
        ((∀ a, e ≠ .hostRead a) → t.hostReads = s.hostReads)) := by
  rcases applyEvent_cases h with ⟨a, v, rfl, hw⟩ | ⟨a, rfl, rfl⟩ | ⟨b, rfl, rfl⟩ | ⟨-, b, q, -, ⟨hf, -⟩ | ⟨hf, -⟩⟩ |
    ⟨-, hf, -⟩ | ⟨-, ⟨rfl, -⟩ | ⟨hf, -⟩⟩ | ⟨-, hf, -⟩ | ⟨he, -⟩
  · rcases hostWrite_next hw with ⟨-, rfl, -⟩ | ⟨-, hs, rfl⟩ | ⟨hn, -⟩ | rfl
    · exact absurd rfl (hc v)
    · exact .inl ⟨a, v, rfl, hs, rfl⟩
    · exact absurd hp hn
    · exact .inr ⟨rfl, fun _ => rfl, fun _ => rfl⟩
  · exact .inr ⟨rfl, fun _ => rfl, fun hn => absurd rfl (hn a)⟩
  · exact .inr ⟨rfl, fun hn => absurd rfl (hn b), fun _ => rfl⟩
  · simp [hp] at hf
  · simp [hp] at hf
  · simp [hp] at hf
  · exact .inr ⟨rfl, fun _ => rfl, fun _ => rfl⟩
  · simp [hp] at hf
  · simp [hp] at hf
  · exact absurd he hr

/-- Settles O23: an event of an idle engine is a store, which changes the register it names, or it changes none. -/
theorem idleRegistersStay : Obligations.IdleRegistersStay := by
  intro s t e hp hr hc h
  rcases idleEvent_cases hp hr hc h with ⟨a, v, rfl, hs, rfl⟩ | ⟨ht, hrxq, hreads⟩
  · obtain ⟨hcfg, htimeout, hplen, hpbuf, hbyte⟩ := hostStore_changes hs v s
    have hf := hostStore_frame a v s
    exact ⟨by rw [hf], fun h => ⟨v, by rw [hcfg h]⟩, fun h => ⟨a, v, rfl, htimeout h⟩, fun h => ⟨a, v, rfl, hplen h⟩,
      fun h => ⟨a, v, rfl, hpbuf h⟩, fun k h => ⟨a, v, rfl, hbyte k h⟩, fun _ => by rw [hf], fun _ => by rw [hf]⟩
  · rw [ht] at hrxq hreads ⊢
    exact ⟨rfl, absurd rfl, absurd rfl, absurd rfl, absurd rfl, fun _ => absurd rfl, hrxq, hreads⟩

/-! ### While a command runs (R76, R121) -/

/-- A host write while a command runs sets WIGN or does nothing (R121). -/
theorem hostWrite_busy {a : HostAddr} {v : Byte} (hp : s.phase ≠ .idle) (h : hostWrite a v s = .next t) :
    t = ignoreWrite s ∨ t = s := by
  rcases hostWrite_next h with ⟨hi, -⟩ | ⟨hi, -⟩ | ⟨-, e⟩ | e
  · exact absurd hi hp
  · exact absurd hi hp
  · exact .inl e
  · exact .inr e

/-- The operands a command reads are the same (R76). -/
structure SameOperands (s t : State) : Prop where
  timeout : t.timeout = s.timeout
  dcsEn : t.dcsEn = s.dcsEn
  op : t.op = s.op
  plen : t.plen = s.plen
  pbuf : t.pbuf = s.pbuf

theorem hostWrite_sameOperands {a : HostAddr} {v : Byte} (hp : s.phase ≠ .idle) (h : hostWrite a v s = .next t) :
    SameOperands s t := by
  rcases hostWrite_busy hp h with rfl | rfl
  · exact ⟨rfl, rfl, rfl, rfl, rfl⟩
  · exact ⟨rfl, rfl, rfl, rfl, rfl⟩

theorem finish_sameOperands (hp : s.phase = .compute) (h : finish s = .next t) : SameOperands s t := by
  rcases finish_next hp h with ⟨-, rfl⟩ | ⟨-, ⟨-, rfl⟩ | ⟨-, p, -, rfl⟩ | ⟨-, rfl⟩ | ⟨-, e, c, rfl⟩⟩
  · exact ⟨rfl, rfl, rfl, rfl, rfl⟩
  · exact ⟨rfl, rfl, rfl, rfl, rfl⟩
  · exact ⟨rfl, rfl, rfl, rfl, rfl⟩
  · exact ⟨rfl, rfl, rfl, rfl, rfl⟩
  · exact ⟨rfl, rfl, rfl, rfl, rfl⟩

theorem txAccept_sameOperands (h : txAccept s = .next t) : SameOperands s t := by
  obtain ⟨b, rfl | ⟨p, -, rfl⟩⟩ := txAccept_cases h
  · exact ⟨rfl, rfl, rfl, rfl, rfl⟩
  · exact ⟨rfl, rfl, rfl, rfl, rfl⟩

theorem rxTick_sameOperands (s : State) : SameOperands s (rxTick s) := by
  rcases rxTick_cases s with ⟨-, e⟩ | ⟨-, e⟩ <;> rw [e]
  · exact ⟨rfl, rfl, rfl, rfl, rfl⟩
  · exact ⟨rfl, rfl, rfl, rfl, rfl⟩

theorem pullHeader_sameOperands {b : Byte} (h : pullHeader b s = .next t) : SameOperands s t := by
  obtain ⟨c, e | ⟨st, er, e⟩ | e⟩ := pullHeader_next h <;> rw [e]
  · exact ⟨rfl, rfl, rfl, rfl, rfl⟩
  · exact ⟨rfl, rfl, rfl, rfl, rfl⟩
  · exact ⟨rfl, rfl, rfl, rfl, rfl⟩

/-- A pull of a body byte writes PBUF, and PLEN when it completes, but no other operand (R171, R174). -/
theorem pullBody_operands {b : Byte} (h : pullBody b s = .next t) :
    t.timeout = s.timeout ∧ t.dcsEn = s.dcsEn ∧ t.op = s.op ∧ (t.plen ≠ s.plen → t.phase = .idle) := by
  obtain ⟨s1, hs, rfl | ⟨q, er, st, n, -, rfl, -⟩⟩ := pullBody_next h
  · rw [(storeBody_keeps hs).1]
    exact ⟨rfl, rfl, rfl, absurd rfl⟩
  · rw [(storeBody_keeps hs).1]
    exact ⟨rfl, rfl, rfl, fun _ => rfl⟩

/-- What an event of a running command does to the operands, Reset excepted: nothing, or it is a pull of a body byte. -/
theorem runningEvent_operands {e : Event} (hp : s.phase ≠ .idle) (hr : e ≠ .reset) (h : applyEvent e s = .next t) :
    SameOperands s t ∨
      (e = .rxPull ∧ s.phase = .decBody ∧ ∃ b q, pullBody b { s with rxq := q } = .next t) := by
  rcases applyEvent_cases h with ⟨a, v, -, hw⟩ | ⟨a, -, rfl⟩ | ⟨b, -, rfl⟩ | ⟨he, b, q, -, ⟨-, hf⟩ | ⟨hb, hf⟩⟩ |
    ⟨-, -, hf⟩ | ⟨-, ⟨rfl, -⟩ | ⟨-, rfl⟩⟩ | ⟨-, hc, hf⟩ | ⟨he, -⟩
  · exact .inl (hostWrite_sameOperands hp hw)
  · exact .inl ⟨rfl, rfl, rfl, rfl, rfl⟩
  · exact .inl ⟨rfl, rfl, rfl, rfl, rfl⟩
  · exact .inl { pullHeader_sameOperands hf with }
  · exact .inr ⟨he, hb, b, q, hf⟩
  · exact .inl (txAccept_sameOperands hf)
  · exact .inl ⟨rfl, rfl, rfl, rfl, rfl⟩
  · exact .inl (rxTick_sameOperands s)
  · exact .inl (finish_sameOperands hc hf)
  · exact absurd he hr

/-- Settles O58: a pull of a body byte is the only event of a running command that writes an operand. -/
theorem runningCommandSeesItsOperands : Obligations.RunningCommandSeesItsOperands := by
  intro s t e hp hr h
  rcases runningEvent_operands hp hr h with ⟨htimeout, hdcsEn, hop, hplen, hpbuf⟩ | ⟨he, hb, b, q, hf⟩
  · exact ⟨htimeout, hdcsEn, hop, absurd hplen, absurd hpbuf⟩
  · obtain ⟨htimeout, hdcsEn, hop, hplen⟩ := pullBody_operands hf
    exact ⟨htimeout, hdcsEn, hop, fun hn => ⟨he, hb, hplen hn⟩, fun _ => ⟨he, hb⟩⟩

end Sys2Proof.Machine
end

section
/-! PROOFS. The bytes a DECODE has pulled (spec/20_memory.md R62; spec/43_decode.md R163-R176): byte `i` of the stream has one
place, in the header, PBUF or a capture register; a pull fills the next place, and no other event of the DECODE changes one. -/

namespace Sys2Proof.Machine

variable {s t : State}

/-! ### The place of a pulled byte -/

/-- The byte at the place of pulled byte `i`: HDRi for the header, then PBUF up to FLEN, RX_DCS and RX_POST (R167, R171). -/
def State.pulledPlace (s : State) (i : Nat) : Option Byte :=
  if h : i < 6 then some s.cap.hdr[i]
  else if i - 6 < s.cap.flen.toNat then pbufRead s.pbuf (i - 6)
  else if i - 6 = s.cap.flen.toNat then some s.cap.rxDcs else some s.cap.rxPost

theorem pulledPlace_header {i : Nat} (h : i < 6) : s.pulledPlace i = some s.cap.hdr[i] := dif_pos h

theorem pulledPlace_body (s : State) (k : Nat) :
    s.pulledPlace (6 + k) =
      if k < s.cap.flen.toNat then pbufRead s.pbuf k
      else if k = s.cap.flen.toNat then some s.cap.rxDcs else some s.cap.rxPost := by
  have h : ¬ 6 + k < 6 := by omega
  simp only [State.pulledPlace, dif_neg h, Nat.add_sub_cancel_left]

/-- The places of body bytes below `n` and of the header are the same where the header and those body bytes are. -/
theorem pulledPlace_before {n : Nat} (hhdr : t.cap.hdr = s.cap.hdr)
    (hbody : ∀ k, k < n → t.pulledPlace (6 + k) = s.pulledPlace (6 + k)) :
    ∀ i, i < 6 + n → t.pulledPlace i = s.pulledPlace i := by
  intro i hi
  rcases Nat.lt_or_ge i 6 with h6 | h6
  · rw [pulledPlace_header h6, pulledPlace_header h6, hhdr]
  · obtain ⟨k, rfl⟩ := Nat.exists_eq_add_of_le h6
    exact hbody k (by omega)

/-- The capture registers, PBUF and RXCNT are the same: no byte is pulled and no place changes. -/
structure SameCaptured (s t : State) : Prop where
  pbuf : t.pbuf = s.pbuf
  cap : t.cap = s.cap
  rxcnt : t.rxcnt = s.rxcnt

theorem pulledPlace_congr (hpbuf : t.pbuf = s.pbuf) (hcap : t.cap = s.cap) : t.pulledPlace = s.pulledPlace := by
  funext i
  simp only [State.pulledPlace, hpbuf, hcap]

/-- The bytes `pulled` are RXCNT many and each is at its place. -/
def State.Keeps (s : State) (pulled : List Byte) : Prop :=
  pulled.length = s.rxcnt.toNat ∧ ∀ i, i < s.rxcnt.toNat → pulled[i]? = s.pulledPlace i

/-- One more byte is pulled, `s` having it already removed from RXQ: `b` fills the next place, and the places before it stay. -/
structure PullsByte (b : Byte) (s t : State) : Prop where
  rxq : t.rxq = s.rxq
  count : t.rxcnt.toNat = s.rxcnt.toNat + 1
  filled : t.pulledPlace s.rxcnt.toNat = some b
  before : ∀ i, i < s.rxcnt.toNat → t.pulledPlace i = s.pulledPlace i

theorem State.Keeps.same {pulled : List Byte} (h : s.Keeps pulled) (hs : SameCaptured s t) : t.Keeps pulled := by
  unfold State.Keeps
  rw [hs.rxcnt, pulledPlace_congr hs.pbuf hs.cap]
  exact h

theorem State.Keeps.pull {pulled : List Byte} {b : Byte} (h : s.Keeps pulled) (hp : PullsByte b s t) :
    t.Keeps (pulled ++ [b]) := by
  obtain ⟨hlen, hbytes⟩ := h
  refine ⟨by rw [List.length_append, hlen, hp.count]; rfl, fun i hi => ?_⟩
  rw [hp.count] at hi
  rcases Nat.lt_succ_iff_lt_or_eq.1 hi with hlt | rfl
  · rw [List.getElem?_append_left (by omega), hbytes i hlt, hp.before i hlt]
  · rw [← hlen, List.getElem?_concat_length, hlen, hp.filled]

/-! ### A pull fills the next place -/

/-- Entering an RX phase, or failing at once, keeps what was captured (R164). -/
theorem enterRx_keeps (ph : Phase) (s : State) :
    (enterRx ph s).cap = s.cap ∧ (enterRx ph s).rxcnt = s.rxcnt ∧ (enterRx ph s).rxq = s.rxq ∧
      ((enterRx ph s).phase = ph ∨ (enterRx ph s).phase = .idle) := by
  by_cases ht : s.timeout = 0
  · rw [enterRx_zero ph ht]
    exact ⟨rfl, rfl, rfl, .inr rfl⟩
  · rw [enterRx_pos ph (timeout_pos ht)]
    exact ⟨rfl, rfl, rfl, .inl rfl⟩

/-- The end of the header changes no header byte (R168). -/
theorem headerDone_keeps (s : State) :
    (headerDone s).cap.hdr = s.cap.hdr ∧ (headerDone s).rxcnt = s.rxcnt ∧ (headerDone s).rxq = s.rxq := by
  rcases headerDone_cases s with ⟨-, e⟩ | ⟨-, -, e⟩ | ⟨-, -, -, e⟩ | ⟨-, -, -, e⟩ <;> rw [e]
  · exact ⟨rfl, rfl, rfl⟩
  · exact ⟨rfl, rfl, rfl⟩
  · exact ⟨rfl, rfl, rfl⟩
  · obtain ⟨hcap, hcnt, hrxq, -⟩ := enterRx_keeps .decBody
      { s with
        cap := { s.cap with flen := lengthField s.cap.hdr[3] s.cap.hdr[4] }
        status := { s.status with hdrOk := true } }
    exact ⟨by rw [hcap], hcnt, hrxq⟩

/-- What a pull of a header byte captures (R167). -/
theorem pullHeader_captures {b : Byte} (h : pullHeader b s = .next t) :
    ∃ hpos : s.pos.toNat < 6, t.cap.hdr = s.cap.hdr.set s.pos.toNat b hpos ∧ t.rxcnt = s.rxcnt + 1 ∧ t.rxq = s.rxq := by
  rcases pullHeader_cases b s with ⟨hpos, ⟨-, e⟩ | ⟨-, e⟩⟩ | ⟨-, e⟩ <;> cases e.symm.trans h
  · exact ⟨hpos, headerDone_keeps _⟩
  · exact ⟨hpos, rfl, rfl, rfl⟩

theorem pullHeader_pullsByte {b : Byte} (hi : s.Inv) (hp : s.phase = .decHdr) (h : pullHeader b s = .next t) :
    PullsByte b s t := by
  obtain ⟨-, -, -, -, hcnt, -⟩ := hi.decHdr hp
  obtain ⟨hpos, hhdr, hrxcnt, hrxq⟩ := pullHeader_captures h
  refine ⟨hrxq, by rw [hrxcnt, toNat_add_one (Nat.lt_of_le_of_lt hi.rxBound (by decide))], ?filled, fun i hlt => ?before⟩
  case filled =>
    rw [hcnt, pulledPlace_header hpos, hhdr]
    simp
  case before =>
    rw [hcnt] at hlt
    have h6 : i < 6 := by omega
    have hne : s.pos.toNat ≠ i := by omega
    simp [pulledPlace_header h6, hhdr, hne]

/-- A pull of a body byte stores it, counts it, and, when it completes, keeps what was stored (R171, R174). -/
theorem pullBody_stores {b : Byte} (h : pullBody b s = .next t) :
    ∃ s1, storeBody b s = some s1 ∧ t.pbuf = s1.pbuf ∧ t.cap = s1.cap ∧ t.rxcnt = s.rxcnt + 1 := by
  obtain ⟨s1, hs, rfl | ⟨q, er, st, n, -, rfl, -⟩⟩ := pullBody_next h
  · exact ⟨s1, hs, rfl, rfl, by rw [(storeBody_keeps hs).1]⟩
  · exact ⟨s1, hs, rfl, rfl, by rw [(storeBody_keeps hs).1]; rfl⟩

/-- A body byte that is stored is at the place of body byte POS, and the places before it stay (R171). -/
theorem storeBody_place {b : Byte} (hi : s.Inv) (hp : s.phase = .decBody) (h : storeBody b s = some t) :
    t.pulledPlace (6 + s.pos.toNat) = some b ∧ ∀ i, i < 6 + s.pos.toNat → t.pulledPlace i = s.pulledPlace i := by
  obtain ⟨-, -, -, hflen, hpos, -⟩ := hi.decBody hp
  rcases Nat.lt_trichotomy s.pos.toNat s.cap.flen.toNat with hk | hk | hk
  case inl =>
    cases (storeBody_payload hi.memory hk (by omega)).symm.trans h
    have hread := pbufRead_write hi.memory (i := s.pos.toNat) (by omega) b
    refine ⟨?_, pulledPlace_before rfl fun k hlt => ?_⟩
    · simp [pulledPlace_body, hk, hread]
    · have hne : k ≠ s.pos.toNat := by omega
      simp [pulledPlace_body, hread, hne]
  case inr.inl =>
    cases (storeBody_dcs hk).symm.trans h
    refine ⟨?_, pulledPlace_before rfl fun k hlt => ?_⟩
    · simp [pulledPlace_body, hk]
    · have hpay : k < s.cap.flen.toNat := by omega
      simp [pulledPlace_body, hpay]
  case inr.inr =>
    cases (storeBody_post hk).symm.trans h
    refine ⟨?_, pulledPlace_before rfl fun k hlt => ?_⟩
    · have h1 : ¬ s.pos.toNat < s.cap.flen.toNat := by omega
      have h2 : ¬ s.pos.toNat = s.cap.flen.toNat := by omega
      simp [pulledPlace_body, h1, h2]
    · have hdcs : k ≤ s.cap.flen.toNat := by omega
      rcases Nat.lt_or_eq_of_le hdcs with hpay | rfl
      · simp [pulledPlace_body, hpay]
      · simp [pulledPlace_body]

theorem pullBody_pullsByte {b : Byte} (hi : s.Inv) (hp : s.phase = .decBody) (h : pullBody b s = .next t) :
    PullsByte b s t := by
  obtain ⟨-, -, -, -, -, hcnt, -⟩ := hi.decBody hp
  obtain ⟨s1, hs, hpbuf, hcap, hrxcnt⟩ := pullBody_stores h
  obtain ⟨-, hrxq, -⟩ := pullBody_keeps h
  have hplace := pulledPlace_congr hpbuf hcap
  refine ⟨hrxq, by rw [hrxcnt, toNat_add_one (Nat.lt_of_le_of_lt hi.rxBound (by decide))], ?filled, ?before⟩
  case filled => rw [hcnt, hplace]; exact (storeBody_place hi hp hs).1
  case before => rw [hcnt, hplace]; exact (storeBody_place hi hp hs).2

/-! ### The events from the acceptance of a DECODE on -/

/-- The engine is at rest or in an RX phase, as it is from the acceptance of a DECODE until another command. -/
def State.InDecode (s : State) : Prop :=
  s.phase = .idle ∨ s.phase = .decHdr ∨ s.phase = .decBody

theorem rxTick_captures (s : State) :
    SameCaptured s (rxTick s) ∧ ((rxTick s).phase = .idle ∨ (rxTick s).phase = s.phase) := by
  rcases rxTick_cases s with ⟨-, e⟩ | ⟨-, e⟩ <;> rw [e]
  · exact ⟨⟨rfl, rfl, rfl⟩, .inl rfl⟩
  · exact ⟨⟨rfl, rfl, rfl⟩, .inr rfl⟩

theorem pullHeader_inDecode {b : Byte} (hp : s.phase = .decHdr) (h : pullHeader b s = .next t) : t.InDecode := by
  obtain ⟨c, rfl | ⟨st, er, e⟩ | e⟩ := pullHeader_next h
  · exact .inr (.inl hp)
  · rw [e]; exact .inl rfl
  · rw [e]; exact .inr (.inr rfl)

theorem pullBody_inDecode {b : Byte} (hp : s.phase = .decBody) (h : pullBody b s = .next t) : t.InDecode := by
  obtain ⟨s1, hs, rfl | ⟨q, er, st, n, -, rfl, -⟩⟩ := pullBody_next h
  · rw [(storeBody_keeps hs).1]; exact .inr (.inr hp)
  · exact .inl rfl

/-- What an event of a DECODE does to the stream: it pulls nothing and RXQ grows by what arrives, or it pulls RXQ's head. -/
def StreamMove (e : Event) (s t : State) : Prop :=
  (SameCaptured s t ∧ t.rxq = s.rxq ++ (arrivedByte e).toList) ∨
    (arrivedByte e = none ∧ ∃ b q, s.rxq = b :: q ∧ PullsByte b { s with rxq := q } t)

/-- Every event around a DECODE is such a move, and the engine stays in the DECODE or at rest. -/
theorem decodeEvent_moves {e : Event} (hi : s.Inv) (hd : s.InDecode) (hr : e ≠ .reset)
    (hidle : s.phase = .idle → passiveEvent e) (h : applyEvent e s = .next t) : t.InDecode ∧ StreamMove e s t := by
  rcases applyEvent_cases h with ⟨a, v, rfl, hw⟩ | ⟨a, rfl, rfl⟩ | ⟨b, rfl, rfl⟩ | ⟨rfl, b, q, hq, ⟨hp, hf⟩ | ⟨hp, hf⟩⟩ |
    ⟨-, hp, -⟩ | ⟨rfl, ⟨rfl, -⟩ | ⟨-, rfl⟩⟩ | ⟨-, hp, -⟩ | ⟨he, -⟩
  · have hp : s.phase ≠ .idle := fun hp => by simpa [passiveEvent] using hidle hp
    rcases hostWrite_busy hp hw with rfl | rfl
    · exact ⟨hd, .inl ⟨⟨rfl, rfl, rfl⟩, (List.append_nil _).symm⟩⟩
    · exact ⟨hd, .inl ⟨⟨rfl, rfl, rfl⟩, (List.append_nil _).symm⟩⟩
  · exact ⟨hd, .inl ⟨⟨rfl, rfl, rfl⟩, (List.append_nil _).symm⟩⟩
  · exact ⟨hd, .inl ⟨⟨rfl, rfl, rfl⟩, rfl⟩⟩
  · exact ⟨pullHeader_inDecode (s := { s with rxq := q }) hp hf,
      .inr ⟨rfl, b, q, hq, pullHeader_pullsByte (hi.dropRx q) hp hf⟩⟩
  · exact ⟨pullBody_inDecode (s := { s with rxq := q }) hp hf,
      .inr ⟨rfl, b, q, hq, pullBody_pullsByte (hi.dropRx q) hp hf⟩⟩
  · rcases hd with hd | hd | hd <;> cases hp.symm.trans hd
  · exact ⟨hd, .inl ⟨⟨rfl, rfl, rfl⟩, (List.append_nil _).symm⟩⟩
  · obtain ⟨hsame, hp⟩ := rxTick_captures s
    refine ⟨?_, .inl ⟨hsame, ?_⟩⟩
    · rcases hp with hp | hp
      · exact .inl hp
      · rw [State.InDecode, hp]; exact hd
    · exact (rxTick_sameData s).rxq.trans (List.append_nil _).symm
  · rcases hd with hd | hd | hd <;> cases hp.symm.trans hd
  · exact absurd he hr

/-! ### The stream -/

/-- The stream is the pulled bytes, each at its place, and then RXQ (R62). -/
def State.KeepsStream (s : State) (stream : List Byte) : Prop :=
  ∃ pulled, pulled ++ s.rxq = stream ∧ s.Keeps pulled

theorem StreamMove.keepsStream {e : Event} {stream : List Byte} (h : StreamMove e s t) (hk : s.KeepsStream stream) :
    t.KeepsStream (stream ++ (arrivedByte e).toList) := by
  obtain ⟨pulled, rfl, hkeep⟩ := hk
  rcases h with ⟨hs, hrxq⟩ | ⟨he, b, q, hq, hpull⟩
  · exact ⟨pulled, by rw [hrxq, List.append_assoc], hkeep.same hs⟩
  · refine ⟨pulled ++ [b], ?_, State.Keeps.pull (s := { s with rxq := q }) hkeep hpull⟩
    rw [hpull.rxq, he, hq]
    simp

theorem arrived_cons (e : Event) (es : List Event) : arrived (e :: es) = (arrivedByte e).toList ++ arrived es := by
  cases h : arrivedByte e <;> simp [arrived, h]

/-- A sequence of events that gives a next state passes through the state after its first event. -/
theorem applyEvents_cons_split {e : Event} {es : List Event} (h : applyEvents (e :: es) s = .next t) :
    ∃ u, applyEvent e s = .next u ∧ applyEvents es u = .next t := by
  unfold applyEvents at h
  split at h
  · exact ⟨_, ‹_›, h⟩
  · cases h
  · cases h

theorem applyEvent_next_inv {e : Event} (hi : s.Inv) (h : applyEvent e s = .next t) : t.Inv := by
  rcases applyEvent_outcome hi e with ⟨u, hu, hui⟩ | hr
  · cases hu.symm.trans h; exact hui
  · cases hr.symm.trans h

theorem undisturbed_keepsStream {es : List Event} {stream : List Byte} (hi : s.Inv) (hd : s.InDecode)
    (hk : s.KeepsStream stream) (hes : undisturbed es s) (h : applyEvents es s = .next t) :
    t.KeepsStream (stream ++ arrived es) := by
  induction es generalizing s stream with
  | nil => cases h; rwa [arrived, List.filterMap_nil, List.append_nil]
  | cons e es ih =>
    obtain ⟨hr, hidle, hrest⟩ := hes
    obtain ⟨u, hu, hut⟩ := applyEvents_cons_split h
    obtain ⟨hud, hmove⟩ := decodeEvent_moves hi hd hr hidle hu
    rw [arrived_cons, ← List.append_assoc]
    exact ih (applyEvent_next_inv hi hu) hud (hmove.keepsStream hk) (hrest u hu) hut

/-- The write of DECODE to an idle engine is its acceptance (R17, R163). -/
theorem applyEvent_decode_idle (hp : s.phase = .idle) :
    applyEvent (.hostWrite 0x000 0x03) s = .next (decodeAccept (acceptBegin 0x03 s)) :=
  (hostWrite_cmd_idle hp).trans ((accept_ok (i := .decode) rfl).trans (exec_idle .decode hp))

/-- Acceptance pulls nothing: RXCNT is 0 and RXQ is the stream (R163, R164). -/
theorem decodeAccept_starts (s : State) : (decodeAccept s).InDecode ∧ (decodeAccept s).KeepsStream s.rxq := by
  obtain ⟨-, hcnt, hrxq, hp⟩ := enterRx_keeps .decHdr _
  refine ⟨hp.elim (fun h => .inr (.inl h)) .inl, [], hrxq, ?_⟩
  rw [State.Keeps, decodeAccept, hcnt]
  exact ⟨rfl, fun i hi => absurd hi (Nat.not_lt_zero i)⟩

/-- Settles O43: the DECODE starts with nothing pulled, and each event keeps the stream. -/
theorem pulledBytesAreAllKept : Obligations.PulledBytesAreAllKept := by
  intro s u t es hi hp hu hes ht
  have hui := applyEvent_next_inv hi hu
  cases (applyEvent_decode_idle hp).symm.trans hu
  obtain ⟨hd, hk⟩ := decodeAccept_starts (acceptBegin 0x03 s)
  obtain ⟨pulled, hstream, hlen, hbytes⟩ := undisturbed_keepsStream hui hd hk hes ht
  refine ⟨pulled, hstream, hlen, fun k hk hlt => ?header, fun k hlt => ?body⟩
  case header => rw [hbytes k hlt, pulledPlace_header hk]
  case body => rw [hbytes (6 + k) hlt, pulledPlace_body]

end Sys2Proof.Machine
end

section
/-! PROOFS. The frame of a payload (spec/30_encoding.md R92-R97): its six header bytes, what the decoder reads from them, and
both checksum invariants. -/

namespace Sys2Proof.Machine

/-- The six bytes before the payload of a frame: preamble, length field, LCS (R92). -/
def frameHeader (p : List Byte) : Vector Byte 6 :=
  let hi : Byte := BitVec.ofNat 8 (p.length / 256)
  let lo : Byte := BitVec.ofNat 8 p.length
  #v[0x00, 0x00, 0xFF, hi, lo, lcs hi lo]

theorem frame_eq (p : List Byte) : frame p = (frameHeader p).toList ++ (p ++ [cks p, 0x00]) := by
  simp [frame, frameHeader]

theorem frameHeader_preambleOk (p : List Byte) : preambleOk (frameHeader p) = true := rfl

/-- The length field's two bytes, high byte first, are the payload's length (R95). -/
theorem frameHeader_length {p : List Byte} (hp : p.length ≤ 282) :
    (frameHeader p)[3].toNat * 256 + (frameHeader p)[4].toNat = p.length ∧ (frameHeader p)[3].toNat ≤ 1 := by
  simp only [frameHeader, Vector.getElem_mk, List.getElem_toArray, List.getElem_cons_succ, List.getElem_cons_zero,
    BitVec.toNat_ofNat]
  omega

/-- The length field and its checksum add up to 0 (R93, R97). -/
theorem frameHeader_sum (p : List Byte) :
    ((frameHeader p)[3].toNat + (frameHeader p)[4].toNat + (frameHeader p)[5].toNat) % 256 = 0 := by
  have h (hi lo : Byte) : (hi.toNat + lo.toNat + (lcs hi lo).toNat) % 256 = 0 := by
    have := add_neg8 (Nat.mod_lt (hi.toNat + lo.toNat) (show 256 > 0 by decide))
    rw [lcs_toNat]
    omega
  exact h _ _

theorem frameHeader_lcsOk (p : List Byte) : lcsOk (frameHeader p) = true := by
  simp only [lcsOk, frameHeader_sum, beq_self_eq_true]

/-- The decoder reads the payload's length from the header (R95, R168). -/
theorem frameHeader_lengthField {p : List Byte} (hp : p.length ≤ 282) :
    (lengthField (frameHeader p)[3] (frameHeader p)[4]).toNat = p.length := by
  rw [lengthField, (frameHeader_length hp).1, BitVec.toNat_ofNat]
  omega

/-- A payload and its checksum add up to 0 (R97). -/
theorem sum_add_cks (p : List Byte) : ((p.map BitVec.toNat).sum + (cks p).toNat) % 256 = 0 := by
  have := add_neg8 (sum8_lt p)
  rw [cks_toNat]
  unfold sum8 at *
  omega

/-- The DCS validator accepts a payload's own checksum (R173). -/
theorem dcsGood_cks (p : List Byte) : dcsGood p (cks p) = true := by
  simp only [dcsGood, cks_toNat, add_neg8 (sum8_lt p), beq_self_eq_true]

/-- Settles O50: the header's bytes and the checksum are those of the frame's definition. -/
theorem framesAreWellFormed : Obligations.FramesAreWellFormed := by
  intro p hp
  obtain ⟨hlen, hhi⟩ := frameHeader_length hp
  exact ⟨_, _, _, _, rfl, hlen, hhi, frameHeader_sum p, sum_add_cks p, frame_length p⟩

end Sys2Proof.Machine
end

section
/-! PROOFS. A DECODE of a whole stream of bytes (spec/43_decode.md R163-R178): what a run of pulls does in the header and in
the body, said for every header and every body, and then for the bytes of a frame. -/

namespace Sys2Proof.Machine

variable {s : State}

/-- A 16-bit counter that counts `n + 1` counts once and then `n`. -/
theorem half_add_succ (x : Half) (n : Nat) : x + 1 + BitVec.ofNat 16 n = x + BitVec.ofNat 16 (n + 1) := by
  rw [BitVec.add_assoc, Nat.add_comm, BitVec.ofNat_add]
  rfl

/-! ### PBUF after a run of stores -/

/-- Memory with consecutive bytes of PBUF stored from index `i` on (R171). -/
def pbufStore (m : Memory) (i : Nat) : List Byte → Memory
  | [] => m
  | b :: bs => pbufStore (m.write (Config.pbufBase + i) b) (i + 1) bs

@[simp] theorem pbufStore_wf (m : Memory) (i : Nat) (l : List Byte) : (pbufStore m i l).wf = m.wf := by
  induction l generalizing m i with
  | nil => rfl
  | cons b bs ih => rw [pbufStore, ih, Memory.wf_write]

/-- PBUF after the stores, index by index. -/
theorem pbufRead_pbufStore {m : Memory} (hm : m.wf = true) {i : Nat} {l : List Byte} (hl : i + l.length ≤ 282)
    (j : Nat) :
    pbufRead (pbufStore m i l) j = if i ≤ j ∧ j < i + l.length then l[j - i]? else pbufRead m j := by
  induction l generalizing m i with
  | nil =>
    have hj : ¬ (i ≤ j ∧ j < i + 0) := by omega
    rw [pbufStore, List.length_nil, if_neg hj]
  | cons b bs ih =>
    rw [List.length_cons] at hl ⊢
    rw [pbufStore, ih ((Memory.wf_write _ _ _).trans hm) (by omega), pbufRead_write hm (by omega)]
    by_cases hj : j = i
    · subst hj; simp
    · have hrange : (i + 1 ≤ j ∧ j < i + 1 + bs.length) ↔ (i ≤ j ∧ j < i + (bs.length + 1)) := by omega
      simp only [hrange, hj, if_false]
      split
      case isTrue hin => rw [List.getElem?_cons, if_neg (by omega), Nat.sub_sub]
      case isFalse => rfl

/-- The stored bytes are the payload of their length. -/
theorem payload_pbufStore {m : Memory} (hm : m.wf = true) {l : List Byte} (hl : l.length ≤ 282) :
    payload (pbufStore m 0 l) l.length = some l := by
  refine payload_eq_some.2 ⟨rfl, fun k hk => ?_⟩
  rw [pbufRead_pbufStore hm (by omega), if_pos (by omega), Nat.sub_zero, List.getElem?_eq_getElem hk]

/-! ### The pulls of the header (R167, R168) -/

theorem applyEvent_pull_header {b : Byte} {q : List Byte} (hp : s.phase = .decHdr) (hq : s.rxq = b :: q) :
    applyEvent .rxPull s = pullHeader b { s with rxq := q } :=
  (applyEvent_rxPull (.inl hp) (by simp [hq])).trans (exec_decode_header hp hq)

/-- Byte `b` captured as the header byte at POS, and counted (R167). -/
def captureHeader (s : State) (b : Byte) : State :=
  { s with
    cap := { s.cap with hdr := s.cap.hdr.setIfInBounds s.pos.toNat b }, pos := s.pos + 1, rxcnt := s.rxcnt + 1 }

theorem setIfInBounds_eq_set {v : Vector Byte 6} {k : Nat} (h : k < 6) (b : Byte) :
    v.setIfInBounds k b = v.set k b h := by
  ext i hi
  simp [Vector.getElem_set, Vector.getElem_setIfInBounds]

/-- A pull of the header captures its byte, and the sixth ends the header (R167). -/
theorem applyEvent_captureHeader {b : Byte} {q : List Byte} (hp : s.phase = .decHdr) (hpos : s.pos.toNat < 6)
    (hq : s.rxq = b :: q) :
    applyEvent .rxPull s =
      .next (if s.pos.toNat = 5 then headerDone (captureHeader { s with rxq := q } b)
        else captureHeader { s with rxq := q } b) := by
  have hsucc : (s.pos + 1).toNat = s.pos.toNat + 1 := toNat_add_one (by omega)
  rw [applyEvent_pull_header hp hq, captureHeader, setIfInBounds_eq_set hpos]
  rcases pullHeader_cases b { s with rxq := q } with ⟨h6, ⟨hlast, e⟩ | ⟨hmore, e⟩⟩ | ⟨h6, -⟩
  · rw [e, if_pos (Nat.succ.inj (hsucc.symm.trans hlast))]
  · rw [e, if_neg fun h5 => hmore (hsucc.trans (congrArg (· + 1) h5))]
  · exact absurd hpos (Nat.not_lt.2 h6)

/-- The rest of the header: its bytes are captured one after the other, and then checked (R167, R168). -/
theorem applyEvents_captureHeader {l q : List Byte} {b : Byte} (hp : s.phase = .decHdr)
    (hl : s.pos.toNat + l.length = 5) (hq : s.rxq = l ++ b :: q) :
    applyEvents (List.replicate (l.length + 1) .rxPull) s =
      .next (headerDone ((l ++ [b]).foldl captureHeader { s with rxq := q })) := by
  induction l generalizing s with
  | nil =>
    have hlast : s.pos.toNat = 5 := hl
    exact applyEvents_cons_next ((applyEvent_captureHeader hp (by omega) hq).trans (congrArg _ (if_pos hlast)))
  | cons c l ih =>
    rw [List.length_cons] at hl ⊢
    have hsucc : (s.pos + 1).toNat = s.pos.toNat + 1 := toNat_add_one (by omega)
    have hmore : ¬ s.pos.toNat = 5 := by omega
    rw [List.replicate_succ, applyEvents_cons_next (applyEvent_captureHeader hp (by omega) hq), if_neg hmore]
    exact ih hp (by simp only [captureHeader]; omega) rfl

theorem toList_header (h : Vector Byte 6) : h.toList = [h[0], h[1], h[2], h[3], h[4]] ++ [h[5]] := by
  refine List.ext_getElem (by simp) fun i hi _ => ?_
  have hi6 : i < 6 := by simpa using hi
  interval_cases i <;> simp

/-- Six header bytes set in order are the header, whatever was there before. -/
theorem set_all_header (v h : Vector Byte 6) :
    (((((v.setIfInBounds 0 h[0]).setIfInBounds 1 h[1]).setIfInBounds 2 h[2]).setIfInBounds 3 h[3]).setIfInBounds 4
      h[4]).setIfInBounds 5 h[5] = h := by
  ext i hi
  interval_cases i <;> simp

/-- A whole header: its six bytes are captured and then checked (R168). -/
theorem applyEvents_header {h : Vector Byte 6} {q : List Byte} (hp : s.phase = .decHdr) (hpos : s.pos = 0)
    (hq : s.rxq = h.toList ++ q) :
    applyEvents (List.replicate 6 .rxPull) s =
      .next (headerDone
        { s with rxq := q, cap := { s.cap with hdr := h }, pos := 6, rxcnt := s.rxcnt + 6 }) := by
  rw [toList_header, List.append_assoc] at hq
  have hpulls := applyEvents_captureHeader hp (by simp [hpos]) hq
  simpa [captureHeader, hpos, set_all_header, BitVec.add_assoc] using hpulls

/-! ### The pulls of the body (R171, R174) -/

theorem applyEvent_pull_body {b : Byte} {q : List Byte} (hp : s.phase = .decBody) (hq : s.rxq = b :: q) :
    applyEvent .rxPull s = pullBody b { s with rxq := q } :=
  (applyEvent_rxPull (.inr hp) (by simp [hq])).trans (exec_decode_body hp hq)

/-- A payload byte goes to PBUF at POS (R171). -/
theorem applyEvent_pull_payload {b : Byte} {q : List Byte} (hp : s.phase = .decBody) (hm : s.pbuf.wf = true)
    (hflen : s.cap.flen.toNat ≤ 282) (hpos : s.pos.toNat < s.cap.flen.toNat) (hq : s.rxq = b :: q) :
    applyEvent .rxPull s =
      .next { s with
        rxq := q, pbuf := s.pbuf.write (Config.pbufBase + s.pos.toNat) b, pos := s.pos + 1, rxcnt := s.rxcnt + 1 } := by
  obtain ⟨r, hr⟩ := payload_some ((Memory.wf_write s.pbuf (Config.pbufBase + s.pos.toNat) b).trans hm) hflen
  have hsucc : (s.pos + 1).toNat = s.pos.toNat + 1 := toNat_add_one (by omega)
  rw [applyEvent_pull_body hp hq,
    pullBody_of_storeBody (storeBody_payload (b := b) (s := { s with rxq := q }) hm hpos (by simp only; omega)) hr]
  simp only [hsucc]
  rw [if_neg (by omega)]

/-- Payload bytes go to PBUF one after the other, from POS on (R171). -/
theorem applyEvents_pull_payload {l q : List Byte} (hp : s.phase = .decBody) (hm : s.pbuf.wf = true)
    (hflen : s.cap.flen.toNat ≤ 282) (hl : s.pos.toNat + l.length ≤ s.cap.flen.toNat) (hq : s.rxq = l ++ q) :
    applyEvents (List.replicate l.length .rxPull) s =
      .next { s with
        rxq := q, pbuf := pbufStore s.pbuf s.pos.toNat l, pos := s.pos + BitVec.ofNat 16 l.length
        rxcnt := s.rxcnt + BitVec.ofNat 16 l.length } := by
  induction l generalizing s with
  | nil => rw [List.nil_append] at hq; simp [applyEvents, pbufStore, ← hq]
  | cons b l ih =>
    rw [List.length_cons] at hl ⊢
    have hsucc : (s.pos + 1).toNat = s.pos.toNat + 1 := toNat_add_one (by omega)
    rw [List.replicate_succ, applyEvents_cons_next (applyEvent_pull_payload hp hm hflen (by omega) hq), ← half_add_succ,
      ← half_add_succ, pbufStore, ← hsucc]
    exact ih hp ((Memory.wf_write _ _ _).trans hm) hflen (by simp only; omega) rfl

/-- The byte after the payload goes to RX_DCS (R171). -/
theorem applyEvent_pull_dcs {b : Byte} {q : List Byte} (hp : s.phase = .decBody) (hm : s.pbuf.wf = true)
    (hflen : s.cap.flen.toNat ≤ 282) (hpos : s.pos = s.cap.flen) (hq : s.rxq = b :: q) :
    applyEvent .rxPull s =
      .next { s with rxq := q, cap := { s.cap with rxDcs := b }, pos := s.pos + 1, rxcnt := s.rxcnt + 1 } := by
  obtain ⟨r, hr⟩ := payload_some hm hflen
  have hsucc : (s.cap.flen + 1).toNat = s.cap.flen.toNat + 1 := toNat_add_one (by omega)
  rw [applyEvent_pull_body hp hq,
    pullBody_of_storeBody (storeBody_dcs (b := b) (s := { s with rxq := q }) (congrArg BitVec.toNat hpos)) hr]
  simp only [hpos, hsucc]
  rw [if_neg (by omega)]

/-- The byte after that goes to RX_POST and completes (R171, R174). -/
theorem applyEvent_pull_post {b : Byte} {p q : List Byte} (hp : s.phase = .decBody)
    (hpay : payload s.pbuf s.cap.flen.toNat = some p) (hflen : s.cap.flen.toNat ≤ 282) (hpos : s.pos = s.cap.flen + 1)
    (hq : s.rxq = b :: q) :
    applyEvent .rxPull s =
      .next (bodyDone p
        { s with rxq := q, cap := { s.cap with rxPost := b }, pos := s.pos + 1, rxcnt := s.rxcnt + 1 }) := by
  have hsucc : (s.cap.flen + 1).toNat = s.cap.flen.toNat + 1 := toNat_add_one (by omega)
  have hsucc' : (s.cap.flen + 1 + 1).toNat = s.cap.flen.toNat + 2 := by rw [toNat_add_one (by omega), hsucc]
  rw [applyEvent_pull_body hp hq,
    pullBody_of_storeBody (storeBody_post (b := b) (s := { s with rxq := q }) (by simp only [hpos]; omega)) hpay]
  simp only [hpos, hsucc', if_true]

/-- The two bytes after the payload: they are captured, and the second completes (R171, R174). -/
theorem applyEvents_trailer {p q : List Byte} {dcs post : Byte} (hp : s.phase = .decBody) (hm : s.pbuf.wf = true)
    (hpay : payload s.pbuf s.cap.flen.toNat = some p) (hflen : s.cap.flen.toNat ≤ 282) (hpos : s.pos = s.cap.flen)
    (hq : s.rxq = dcs :: post :: q) :
    applyEvents [.rxPull, .rxPull] s =
      .next (bodyDone p
        { s with
          rxq := q, cap := { s.cap with rxDcs := dcs, rxPost := post }, pos := s.pos + 1 + 1
          rxcnt := s.rxcnt + 1 + 1 }) := by
  rw [applyEvents_cons_next (applyEvent_pull_dcs hp hm hflen hpos hq)]
  exact applyEvents_cons_next (applyEvent_pull_post hp hpay hflen (congrArg (· + 1) hpos) rfl)

/-- A whole body: the payload is in PBUF, its two trailing bytes are captured, and the last completes (R171, R174). -/
theorem applyEvents_body {p q : List Byte} {dcs post : Byte} (hp : s.phase = .decBody) (hm : s.pbuf.wf = true)
    (hpos : s.pos = 0) (hflen : s.cap.flen.toNat = p.length) (hlen : p.length ≤ 282)
    (hq : s.rxq = p ++ dcs :: post :: q) :
    applyEvents (List.replicate (p.length + 2) .rxPull) s =
      .next (bodyDone p
        { s with
          rxq := q, pbuf := pbufStore s.pbuf 0 p, cap := { s.cap with rxDcs := dcs, rxPost := post }
          pos := s.cap.flen + 1 + 1, rxcnt := s.rxcnt + s.cap.flen + 1 + 1 }) := by
  have hof : BitVec.ofNat 16 p.length = s.cap.flen := by rw [← hflen, BitVec.ofNat_toNat, BitVec.setWidth_eq]
  have hfits : s.pos.toNat + p.length ≤ s.cap.flen.toNat := by rw [hpos, hflen]; exact Nat.le_of_eq (Nat.zero_add _)
  have hpayload := applyEvents_pull_payload hp hm (by omega) hfits hq
  rw [hpos, hof, show (0 : Half) + s.cap.flen = s.cap.flen from BitVec.zero_add _] at hpayload
  rw [List.replicate_add, applyEvents_append_next hpayload]
  exact applyEvents_trailer hp ((pbufStore_wf _ _ _).trans hm) (by rw [hflen]; exact payload_pbufStore hm hlen)
    (hflen.trans_le hlen) rfl rfl

/-! ### The pulls of a frame (R178) -/

/-- A frame's header passes its checks and starts the body with the payload's length (R168). -/
theorem headerDone_frame {p : List Byte} (hhdr : s.cap.hdr = frameHeader p) (hlen : p.length ≤ 282)
    (ht : s.timeout ≠ 0) :
    headerDone s =
      { s with
        cap := { s.cap with flen := lengthField s.cap.hdr[3] s.cap.hdr[4] }
        status := { s.status with hdrOk := true }, phase := .decBody, pos := 0, elapsed := 0 } := by
  have hpre : preambleOk s.cap.hdr = true := by rw [hhdr, frameHeader_preambleOk]
  have hlcs : lcsOk s.cap.hdr = true := by rw [hhdr, frameHeader_lcsOk]
  have hfield : (lengthField s.cap.hdr[3] s.cap.hdr[4]).toNat = p.length := by
    simp only [hhdr, frameHeader_lengthField hlen]
  rcases headerDone_cases s with ⟨h, -⟩ | ⟨-, h, -⟩ | ⟨-, -, h, -⟩ | ⟨-, -, -, e⟩
  · cases hpre.symm.trans h
  · cases hlcs.symm.trans h
  · omega
  · rw [e]
    exact enterRx_pos _ (timeout_pos ht)

/-- A body whose DCS is the payload's checksum completes with NONE, whatever CFG.DCS_EN is (R174). -/
theorem bodyDone_good {p : List Byte} (hd : s.cap.rxDcs = cks p) :
    bodyDone p s =
      complete .none
        { s with
          cksum := cks p, plen := s.cap.flen
          status := { s.status with dcsOk := true, postOk := s.cap.rxPost == 0x00 } } := by
  have hgood : dcsGood p s.cap.rxDcs = true := by rw [hd, dcsGood_cks]
  rcases bodyDone_cases p s with ⟨-, hbad, -⟩ | ⟨-, e⟩
  · cases hgood.symm.trans hbad
  · rw [e, hgood]

/-- The header of a frame: captured, checked, and the body begins (R168). -/
theorem applyEvents_frameHeader {p q : List Byte} (hp : s.phase = .decHdr) (hpos : s.pos = 0) (ht : s.timeout ≠ 0)
    (hlen : p.length ≤ 282) (hq : s.rxq = (frameHeader p).toList ++ q) :
    applyEvents (List.replicate 6 .rxPull) s =
      .next { s with
        rxq := q, cap := { s.cap with hdr := frameHeader p, flen := BitVec.ofNat 16 p.length }, rxcnt := s.rxcnt + 6
        status := { s.status with hdrOk := true }, phase := .decBody, pos := 0, elapsed := 0 } := by
  have hflen : lengthField (frameHeader p)[3] (frameHeader p)[4] = BitVec.ofNat 16 p.length :=
    BitVec.eq_of_toNat_eq (by rw [frameHeader_lengthField hlen, BitVec.toNat_ofNat]; omega)
  rw [applyEvents_header hp hpos hq, headerDone_frame _ hlen _]
  · simp only [hflen]
  · rfl
  · exact ht

/-- The rest of a frame: stored, and completed with NONE (R174). -/
theorem applyEvents_frameBody {p q : List Byte} (hp : s.phase = .decBody) (hm : s.pbuf.wf = true) (hpos : s.pos = 0)
    (hflen : s.cap.flen = BitVec.ofNat 16 p.length) (hlen : p.length ≤ 282) (hq : s.rxq = p ++ cks p :: 0x00 :: q) :
    applyEvents (List.replicate (p.length + 2) .rxPull) s =
      .next (complete .none
        { s with
          rxq := q, pbuf := pbufStore s.pbuf 0 p, cksum := cks p, plen := BitVec.ofNat 16 p.length
          cap := { s.cap with rxDcs := cks p, rxPost := 0x00 }, rxcnt := s.rxcnt + BitVec.ofNat 16 p.length + 1 + 1
          status := { s.status with dcsOk := true, postOk := true } }) := by
  have hflen' : s.cap.flen.toNat = p.length := by rw [hflen, BitVec.toNat_ofNat]; omega
  rw [applyEvents_body hp hm hpos hflen' hlen hq, bodyDone_good rfl, hflen]
  rfl

/-- A whole frame, pulled from the start of a DECODE on. -/
theorem applyEvents_frame {p q : List Byte} (hp : s.phase = .decHdr) (hm : s.pbuf.wf = true) (hpos : s.pos = 0)
    (ht : s.timeout ≠ 0) (hlen : p.length ≤ 282) (hq : s.rxq = frame p ++ q) :
    applyEvents (List.replicate (p.length + 8) .rxPull) s =
      .next (complete .none
        { s with
          rxq := q, pbuf := pbufStore s.pbuf 0 p, elapsed := 0, cksum := cks p, plen := BitVec.ofNat 16 p.length
          cap := { hdr := frameHeader p, rxDcs := cks p, rxPost := 0x00, flen := BitVec.ofNat 16 p.length }
          rxcnt := s.rxcnt + 6 + BitVec.ofNat 16 p.length + 1 + 1
          status := { s.status with hdrOk := true, dcsOk := true, postOk := true } }) := by
  have hstream : s.rxq = (frameHeader p).toList ++ (p ++ cks p :: 0x00 :: q) := by simp [hq, frame_eq]
  have hsplit : p.length + 8 = 6 + (p.length + 2) := by omega
  rw [hsplit, List.replicate_add, applyEvents_append_next (applyEvents_frameHeader hp hpos ht hlen hstream)]
  exact applyEvents_frameBody rfl hm rfl rfl hlen rfl

/-- Settles O41: acceptance clears RXCNT and enters the header phase, and the frame's bytes are pulled from there. -/
theorem decodeReadsAFrame : Obligations.DecodeReadsAFrame := by
  intro s p rest hp hm hlen ht hq
  have haccept : applyEvent (.hostWrite 0x000 0x03) s = .next _ :=
    (applyEvent_decode_idle hp).trans (congrArg _ (enterRx_pos .decHdr (timeout_pos ht)))
  have htoNat : (BitVec.ofNat 16 p.length).toNat = p.length := by rw [BitVec.toNat_ofNat]; omega
  have hrun := (applyEvents_cons_next haccept).trans (applyEvents_frame rfl hm rfl ht hlen hq)
  refine ⟨_, hrun, rfl, rfl, rfl, rfl, rfl, rfl, rfl, htoNat, payload_pbufStore hm hlen, fun k hk => ?rest, ?count, rfl, rfl,
    rfl, rfl, ?header, rfl, rfl⟩
  case rest => exact (pbufRead_pbufStore hm (by omega) k).trans (if_neg (by omega))
  case count =>
    have hcount : ((0 : Half) + 6 + BitVec.ofNat 16 p.length + 1 + 1).toNat = p.length + 8 := by bv_omega
    exact hcount
  case header => simp [frame_eq]

end Sys2Proof.Machine
end

section
/-! PROOFS. An ENCODE of a whole payload (spec/42_encode.md R150-R157): what a run of TxAccepts sends, said for every part of
a frame, and then for all of it. -/

namespace Sys2Proof.Machine

variable {s : State}

theorem applyEvent_txAccept_frame {p : List Byte} {b : Byte} {r : List Byte} (hp : s.phase = .enc)
    (hpay : payload s.pbuf s.plen.toNat = some p) (hr : (frame p).drop s.pos.toNat = b :: r) :
    applyEvent .txAccept s =
      .next
        (let s1 : State := { s with txlog := s.txlog ++ [b], txcnt := s.txcnt + 1, pos := s.pos + 1 }
         if (s.pos + 1).toNat = s.plen.toNat + 8 then complete .none { s1 with cksum := cks p } else s1) := by
  have hb : (frame p)[s.pos.toNat]? = some b := by rw [← List.head?_drop, hr, List.head?_cons]
  rw [applyEvent_txAccept hp, exec_encode_enc hp, txAccept_next hpay hb]

/-- The frame's bytes go out one after the other, from POS on, while a byte is left (R157). -/
theorem applyEvents_txAccept {p l r : List Byte} {b : Byte} (hp : s.phase = .enc)
    (hpay : payload s.pbuf s.plen.toNat = some p) (hlen : s.plen.toNat ≤ 282)
    (hl : (frame p).drop s.pos.toNat = l ++ b :: r) :
    applyEvents (List.replicate l.length .txAccept) s =
      .next { s with
        txlog := s.txlog ++ l, txcnt := s.txcnt + BitVec.ofNat 16 l.length, pos := s.pos + BitVec.ofNat 16 l.length } := by
  induction l generalizing s with
  | nil => simp [applyEvents]
  | cons c l ih =>
    have hpl : p.length = s.plen.toNat := (payload_eq_some.1 hpay).1
    have hleft := congrArg List.length hl
    simp only [List.length_drop, frame_length, hpl, List.length_append, List.length_cons] at hleft
    have hsucc : (s.pos + 1).toNat = s.pos.toNat + 1 := toNat_add_one (by omega)
    have hmore : ¬ (s.pos + 1).toNat = s.plen.toNat + 8 := by omega
    have hrest : (frame p).drop (s.pos + 1).toNat = l ++ b :: r := by
      rw [hsucc, ← List.drop_drop, hl]
      rfl
    rw [List.length_cons, List.replicate_succ, applyEvents_cons_next (applyEvent_txAccept_frame hp hpay hl), 
      ← half_add_succ, ← half_add_succ, List.append_cons s.txlog c l]
    simp only [hmore, if_false]
    exact ih hp hpay hlen hrest

/-- The rest of a frame: its bytes go out, and the last one completes with the DCS in CKSUM (R150, R157). -/
theorem applyEvents_txAccept_last {p l : List Byte} {b : Byte} (hp : s.phase = .enc)
    (hpay : payload s.pbuf s.plen.toNat = some p) (hlen : s.plen.toNat ≤ 282) (hl : (frame p).drop s.pos.toNat = l ++ [b]) :
    applyEvents (List.replicate (l.length + 1) .txAccept) s =
      .next (complete .none
        { s with
          txlog := s.txlog ++ (l ++ [b]), txcnt := s.txcnt + BitVec.ofNat 16 l.length + 1, cksum := cks p }) := by
  have hpl : p.length = s.plen.toNat := (payload_eq_some.1 hpay).1
  have hleft := congrArg List.length hl
  simp only [List.length_drop, frame_length, hpl, List.length_append, List.length_singleton] at hleft
  have hpos : (s.pos + BitVec.ofNat 16 l.length).toNat = s.pos.toNat + l.length := by
    rw [BitVec.toNat_add, BitVec.toNat_ofNat]; omega
  have hdrop : (frame p).drop (s.pos + BitVec.ofNat 16 l.length).toNat = [b] := by
    rw [hpos, ← List.drop_drop, hl, List.drop_left]
  have hlast : (s.pos + BitVec.ofNat 16 l.length + 1).toNat = s.plen.toNat + 8 := by
    rw [toNat_add_one (by omega), hpos]; omega
  have hstep := applyEvent_txAccept_frame
    (s := { s with
      txlog := s.txlog ++ l, txcnt := s.txcnt + BitVec.ofNat 16 l.length, pos := s.pos + BitVec.ofNat 16 l.length })
    hp hpay hdrop
  simp only [hlast, if_true] at hstep
  rw [List.replicate_succ', applyEvents_append_next (applyEvents_txAccept hp hpay hlen hl), ← List.append_assoc]
  exact applyEvents_cons_next hstep

/-- ENCODE of a length in range, written to an idle engine, starts its frame (R120, R150). -/
theorem applyEvent_encode_idle (hp : s.phase = .idle) (hlen : s.plen.toNat ≤ 282) :
    applyEvent (.hostWrite 0x000 0x02) s = .next { acceptBegin 0x02 s with txcnt := 0, phase := .enc, pos := 0 } := by
  have hmove : encodeAccept (acceptBegin 0x02 s) = { acceptBegin 0x02 s with txcnt := 0, phase := .enc, pos := 0 } :=
    if_neg (Nat.not_lt.2 hlen)
  rw [← hmove]
  exact (hostWrite_cmd_idle hp).trans ((accept_ok (i := .encode) rfl).trans (exec_idle .encode hp))

/-- Settles O30: acceptance starts the frame at POS = 0, and the last of its bytes is the postamble. -/
theorem encodeSendsTheWholeFrame : Obligations.EncodeSendsTheWholeFrame := by
  intro s p hp hlen hpay
  have hpl : p.length = s.plen.toNat := (payload_eq_some.1 hpay).1
  have hframe : frame p = ((frameHeader p).toList ++ (p ++ [cks p])) ++ [0x00] := by simp [frame_eq]
  refine ⟨by rw [frame_length, hpl], frameHeader_sum p, ?dcs, ?run⟩
  case dcs =>
    have hd : (frame p)[6 + p.length]? = some (cks p) := by simp [frame_eq]
    rw [hd]
    exact sum_add_cks p
  case run =>
    have hl : ((frameHeader p).toList ++ (p ++ [cks p])).length = s.plen.toNat + 7 := by
      simp only [List.length_append, Vector.length_toList, List.length_singleton, hpl]; omega
    have hcount : (0 : Half) + BitVec.ofNat 16 (s.plen.toNat + 7) + 1 = s.plen + 8 := by bv_omega
    have hsend := applyEvents_txAccept_last (s := { acceptBegin 0x02 s with txcnt := 0, phase := .enc, pos := 0 })
      rfl hpay hlen hframe
    rw [← hframe, hl, hcount] at hsend
    rw [applyEvents_cons_next (applyEvent_encode_idle hp hlen), hp]
    exact hsend

end Sys2Proof.Machine
end

section
/-! PROOFS. Command bytes and transaction words (spec/30_encoding.md R90, R104, R105, R109). -/

namespace Sys2Proof

open Machine

/-! ### Command bytes (R104, R105) -/

/-- Decoding undoes encoding, whatever follows (R90, R104). -/
theorem decode_encode (i : Instr) (rest : List Byte) : decode (encode i ++ rest) = .ok (i, rest) := by
  cases i with
  | nop => exact Laws.Encoding.nop.2.2 rest
  | cksum => exact Laws.Encoding.cksum.2.2 rest
  | encode => exact Laws.Encoding.encode.2.2 rest
  | decode => exact Laws.Encoding.decode.2.2 rest
  | ccidparse => exact Laws.Encoding.ccidparse.2.2 rest
  | ccidchk => exact Laws.Encoding.ccidchk.2.2 rest

/-- A byte is rejected exactly when it is no opcode (R105). -/
theorem decodeByte_illegal_iff (v : Byte) : 6 ≤ v.toNat ↔ decodeByte v = .error (.illegalOpcode v) := by
  refine ⟨decodeByte_illegal, fun h => ?_⟩
  rcases decodeByte_cases v with ⟨i, hi⟩ | ⟨hv, -⟩
  · cases (decodeByte_eq_ok.2 hi).symm.trans h
  · exact hv

theorem decode_illegal {v : Byte} (h : 6 ≤ v.toNat) (rest : List Byte) :
    decode (v :: rest) = .error (.illegalOpcode v) := by
  simp only [decode, decodeByte_illegal h]

/-- Settles O2: the rows of the opcode map, and the bytes that no row has. -/
theorem opcodeMapIsOneToOne : Obligations.OpcodeMapIsOneToOne :=
  ⟨decode_encode, fun _ _ => decodeByte_eq_ok, decodeByte_illegal_iff⟩

/-- Settles O1: each of the six bytes is an opcode, and the other two are 6 or more. -/
theorem commandBytesDecode : Obligations.CommandBytesDecode :=
  ⟨decode_encode .nop [], decode_encode .cksum [], decode_encode .encode [], decode_encode .decode [],
    decode_encode .ccidparse [], decode_encode .ccidchk [], decode_illegal (by decide) [], decode_illegal (by decide) []⟩

/-! ### Transaction words (R109) -/

theorem accessWord_write_toNat (a : HostAddr) (v : Byte) :
    (accessWord (.write a v)).toNat = 2 ^ 18 + a.toNat * 2 ^ 8 + v.toNat := by
  have ha : (1#1 ++ a).toNat = 2 ^ 10 + a.toNat := by
    rw [BitVec.toNat_append, ← Nat.shiftLeft_add_eq_or_of_lt a.isLt, Nat.shiftLeft_eq]; rfl
  rw [accessWord, BitVec.toNat_append, ← Nat.shiftLeft_add_eq_or_of_lt v.isLt, Nat.shiftLeft_eq, ha]
  omega

theorem accessWord_read_toNat (a : HostAddr) : (accessWord (.read a)).toNat = a.toNat * 2 ^ 8 := by
  have ha : (0#1 ++ a).toNat = a.toNat := by rw [BitVec.toNat_append]; exact Nat.zero_or _
  rw [accessWord, BitVec.toNat_append, ← Nat.shiftLeft_add_eq_or_of_lt (0#8).isLt, Nat.shiftLeft_eq, ha, BitVec.toNat_zero,
    Nat.add_zero]

/-- The field DATA of a word, as a number. -/
theorem word_data (w : BitVec 19) : (w.extractLsb' 0 8).toNat = w.toNat % 2 ^ 8 := by
  rw [BitVec.extractLsb'_toNat, Nat.shiftRight_zero]

/-- The field ADDR of a word, as a number. -/
theorem word_addr (w : BitVec 19) : (w.extractLsb' 8 10).toNat = w.toNat / 2 ^ 8 % 2 ^ 10 := by
  rw [BitVec.extractLsb'_toNat, Nat.shiftRight_eq_div_pow]

/-- The field WE of a word is its top bit. -/
theorem word_we (w : BitVec 19) : w.getLsbD 18 = true ↔ 2 ^ 18 ≤ w.toNat := by
  have h : w.getLsbD 18 = w.msb := by simp [BitVec.msb_eq_getLsbD_last]
  rw [h, BitVec.msb_eq_decide, decide_eq_true_iff]

theorem wordWellFormed_iff (w : BitVec 19) : wordWellFormed w = true ↔ 2 ^ 18 ≤ w.toNat ∨ w.toNat % 2 ^ 8 = 0 := by
  have h : w.setWidth 8 = 0 ↔ w.toNat % 2 ^ 8 = 0 := by rw [← BitVec.toNat_inj, BitVec.toNat_setWidth]; rfl
  rw [wordWellFormed, Bool.or_eq_true, word_we, beq_iff_eq, h]

theorem decodeAccessWord_write {w : BitVec 19} (h : 2 ^ 18 ≤ w.toNat) :
    decodeAccessWord w = .ok (.write (w.extractLsb' 8 10) (w.extractLsb' 0 8)) := by
  rw [decodeAccessWord, if_pos ((word_we w).2 h)]

theorem decodeAccessWord_read {w : BitVec 19} (h : w.toNat < 2 ^ 18) (h0 : w.toNat % 2 ^ 8 = 0) :
    decodeAccessWord w = .ok (.read (w.extractLsb' 8 10)) := by
  have hwe : ¬ w.getLsbD 18 = true := by rw [word_we]; omega
  have hdata : w.extractLsb' 0 8 = 0 := BitVec.eq_of_toNat_eq ((word_data w).trans h0)
  rw [decodeAccessWord, if_neg hwe, if_pos hdata]

/-- Decoding undoes encoding: the fields of the word are those of the access. -/
theorem decodeAccessWord_accessWord (x : HostAccess) : decodeAccessWord (accessWord x) = .ok x := by
  cases x with
  | write a v =>
    have hw := accessWord_write_toNat a v
    rw [decodeAccessWord_write (by omega)]
    have ha : (accessWord (.write a v)).extractLsb' 8 10 = a := BitVec.eq_of_toNat_eq (by rw [word_addr]; omega)
    have hv : (accessWord (.write a v)).extractLsb' 0 8 = v := BitVec.eq_of_toNat_eq (by rw [word_data]; omega)
    rw [ha, hv]
  | read a =>
    have hw := accessWord_read_toNat a
    rw [decodeAccessWord_read (by omega) (by omega)]
    have ha : (accessWord (.read a)).extractLsb' 8 10 = a := BitVec.eq_of_toNat_eq (by rw [word_addr]; omega)
    rw [ha]

/-- A word that an access encodes is well formed. -/
theorem accessWord_wellFormed (x : HostAccess) : wordWellFormed (accessWord x) = true := by
  rw [wordWellFormed_iff]
  cases x with
  | write a v => rw [accessWord_write_toNat]; omega
  | read a => rw [accessWord_read_toNat]; omega

/-- A well-formed word encodes an access. -/
theorem exists_accessWord {w : BitVec 19} (h : wordWellFormed w = true) : ∃ x, accessWord x = w := by
  rcases Nat.lt_or_ge w.toNat (2 ^ 18) with hlt | hge
  · have h0 : w.toNat % 2 ^ 8 = 0 := ((wordWellFormed_iff w).1 h).resolve_left (Nat.not_le.2 hlt)
    exact ⟨.read (w.extractLsb' 8 10), BitVec.eq_of_toNat_eq (by rw [accessWord_read_toNat, word_addr]; omega)⟩
  · refine ⟨.write (w.extractLsb' 8 10) (w.extractLsb' 0 8), BitVec.eq_of_toNat_eq ?_⟩
    rw [accessWord_write_toNat, word_addr, word_data]
    omega

/-- Settles O3: a word is its fields, so decoding undoes encoding, and the well-formed words are the encodings. -/
theorem transactionWordsRoundTrip : Obligations.TransactionWordsRoundTrip := by
  refine ⟨accessWord_write_toNat, accessWord_read_toNat, decodeAccessWord_accessWord, fun w => ⟨fun h => ?_, ?_⟩, rfl, rfl⟩
  · obtain ⟨x, rfl⟩ := exists_accessWord h
    exact ⟨x, decodeAccessWord_accessWord x, rfl⟩
  · rintro ⟨x, -, rfl⟩
    exact accessWord_wellFormed x

end Sys2Proof
end

section
/-! PROOFS. A block without a parser (spec/30_encoding.md R118; spec/44_ccid.md R183). -/

namespace Sys2Proof.Machine

variable {s : State}

/-- Without a parser the write of 0x04 or 0x05 to an idle engine is accepted as an illegal command (R118, R120). -/
theorem applyEvent_parserCommand_absent (hc : s.hasCcid = false) (hp : s.phase = .idle) {v : Byte}
    (hv : v = 0x04 ∨ v = 0x05) : applyEvent (.hostWrite 0x000 v) s = .next (toCompute .illegalCommand (acceptBegin v s)) := by
  have hmove : ccidAccept (acceptBegin v s) = toCompute .illegalCommand (acceptBegin v s) := ccidAccept_absent hc
  rw [← hmove]
  rcases hv with rfl | rfl
  · exact (hostWrite_cmd_idle hp).trans ((accept_ok (i := .ccidparse) rfl).trans (exec_idle .ccidparse hp))
  · exact (hostWrite_cmd_idle hp).trans ((accept_ok (i := .ccidchk) rfl).trans (exec_idle .ccidchk hp))

/-- Settles O48: the parser's commands wait with ILLEGAL_COMMAND, which their Finish reports, and its addresses are reserved. -/
theorem withoutParserItsCommandsAreIllegal : Obligations.WithoutParserItsCommandsAreIllegal := by
  intro s hc hm
  refine ⟨fun hp hpos v hv => ?command, fun a w h1 h2 => ?address⟩
  case command =>
    have hfinish : applyEvent .finish (toCompute .illegalCommand (acceptBegin v s)) =
        .next (complete .illegalCommand (toCompute .illegalCommand (acceptBegin v s))) := finish_pending rfl nofun
    rw [applyEvents_cons_next (applyEvent_parserCommand_absent hc hp hv), applyEvents_cons_next hfinish, hp, hpos]
    rfl
  case address => exact reservedAddressesDoNothing s a w hm (.inr (.inr (.inr (.inr ⟨hc, h1, h2⟩))))

end Sys2Proof.Machine
end

section
/-! PROOFS. The engine's own events come to an end under the eager schedule (spec/30_encoding.md R108). -/

namespace Sys2Proof.Machine

variable {s t : State}

theorem drainFor_settled (n : Nat) (h : engineEvent s = none) : drainFor n s = some s := by
  cases n with
  | zero => rfl
  | succ n => simp only [drainFor, h]

theorem drainFor_next {e : Event} (n : Nat) (he : engineEvent s = some e) (h : applyEvent e s = .next t) :
    drainFor (n + 1) s = drainFor n t := by
  simp only [drainFor, he, h]

/-- Under the invariant a Finish ends its command (R124). -/
theorem finish_idle (hi : s.Inv) (hp : s.phase = .compute) (h : finish s = .next t) : t.phase = .idle := by
  rcases finish_next hp h with ⟨-, rfl⟩ | ⟨he, ⟨-, rfl⟩ | ⟨-, p, -, rfl⟩ | ⟨ho, -⟩ | ⟨-, e, c, rfl⟩⟩
  · rfl
  · rfl
  · rfl
  · obtain ⟨-, ⟨-, hop⟩ | ⟨he', -⟩ | ⟨he', -⟩⟩ := hi.compute hp
    · rcases hop with h | ⟨h | ⟨-, h | h⟩, -⟩ <;> simp [h] at ho
    · cases he.symm.trans he'
    · cases he.symm.trans he'
  · rfl

/-- In a DECODE or at rest the engine has no event of its own, or pulls the head of RXQ (R24, R226). -/
theorem engineEvent_inDecode (hd : s.InDecode) :
    engineEvent s = none ∨ (engineEvent s = some .rxPull ∧ s.rxq ≠ []) := by
  rcases hd with hp | hp
  · exact .inl (engineEvent_none.2 (.inl hp))
  · by_cases hq : s.rxq = []
    · exact .inl (engineEvent_none.2 (.inr (.inr ⟨hp, hq⟩)))
    · exact .inr ⟨engineEvent_rx hp hq, hq⟩

/-- In a DECODE or at rest the engine takes at most the bytes of RXQ: each pull removes one. -/
theorem drainFor_inDecode {n : Nat} (hi : s.Inv) (hd : s.InDecode) (hn : s.rxq.length ≤ n) :
    ∃ t, drainFor n s = some t ∧ engineEvent t = none := by
  induction n generalizing s with
  | zero =>
    have hq : s.rxq = [] := List.eq_nil_of_length_eq_zero (Nat.le_zero.1 hn)
    exact ⟨s, rfl, (engineEvent_inDecode hd).resolve_right fun h => h.2 hq⟩
  | succ n ih =>
    rcases engineEvent_inDecode hd with he | ⟨he, -⟩
    · exact ⟨s, drainFor_settled _ he, he⟩
    · obtain ⟨t, ht, hti⟩ := applyEvent_inv hi (engineEvent_enabled he)
      obtain ⟨htd, -⟩ := decodeEvent_moves (e := .rxPull) hi hd (by decide) (fun _ => .inl rfl) ht
      obtain ⟨⟨b, hb, -⟩ | ⟨-, b, hq⟩ | ⟨hne, -⟩, -⟩ := streamsKeepTheirOrder s t .rxPull ht
      · cases hb
      · rw [drainFor_next n he ht]
        exact ih hti htd (by rw [hq, List.length_cons] at hn; omega)
      · exact absurd rfl hne

/-- Settles O59: a Finish leaves the engine at rest, and the pulls of a DECODE are at most the bytes of RXQ. -/
theorem eagerScheduleSettles : Obligations.EagerScheduleSettles := by
  intro s hi
  unfold drain
  cases hp : s.phase with
  | idle => exact drainFor_inDecode hi (.inl hp) (Nat.le_succ _)
  | decHdr => exact drainFor_inDecode hi (.inr (.inl hp)) (Nat.le_succ _)
  | decBody => exact drainFor_inDecode hi (.inr (.inr hp)) (Nat.le_succ _)
  | enc =>
    have he : engineEvent s = none := engineEvent_none.2 (.inr (.inl hp))
    exact ⟨s, drainFor_settled _ he, he⟩
  | compute =>
    have he := engineEvent_compute hp
    obtain ⟨t, ht, -⟩ := applyEvent_inv hi (engineEvent_enabled he)
    have ht' : engineEvent t = none := engineEvent_none.2 (.inl (finish_idle hi hp (applyEvent_next ht).2))
    exact ⟨t, (drainFor_next _ he ht).trans (drainFor_settled _ ht'), ht'⟩

end Sys2Proof.Machine
end

section
/-! PROOFS. Acceptance and completion (spec/40_command.md R120-R124, R126, R127): what a CMD write does to an idle and to a busy
engine, and what it and the Finish after it do together. -/

namespace Sys2Proof.Machine

variable {s t : State}

/-! ### Acceptance by an idle engine (R120) -/

/-- The write of a command's opcode to an idle engine is the command's own acceptance. -/
theorem applyEvent_command_idle (i : Instr) (hp : s.phase = .idle) :
    applyEvent (.hostWrite 0x000 (opcode i)) s = .next (acceptMove i (acceptBegin (opcode i) s)) :=
  (hostWrite_cmd_idle hp).trans ((accept_ok rfl).trans (exec_idle i hp))

/-- An illegal byte is accepted by an idle engine with ILLEGAL_COMMAND pending, whatever makes it illegal (R118, R127). -/
theorem applyEvent_illegal_idle {v : Byte} (hv : 6 ≤ v.toNat ∨ (s.hasCcid = false ∧ (v = 0x04 ∨ v = 0x05)))
    (hp : s.phase = .idle) :
    applyEvent (.hostWrite 0x000 v) s = .next (toCompute .illegalCommand (acceptBegin v s)) := by
  rcases hv with hv | ⟨hc, hv⟩
  · exact (hostWrite_cmd_idle hp).trans (accept_illegal hv)
  · exact applyEvent_parserCommand_absent hc hp hv

/-- CKSUM and, with a parser, its commands are accepted after the range check on PLEN (R120, R122). -/
theorem applyEvent_lengthCommand_idle {v : Byte} (hv : v = 0x01 ∨ (s.hasCcid = true ∧ (v = 0x04 ∨ v = 0x05)))
    (hp : s.phase = .idle) :
    applyEvent (.hostWrite 0x000 v) s = .next (toCompute (plenCheck s) (acceptBegin v s)) := by
  rcases hv with rfl | ⟨hc, rfl | rfl⟩
  · exact applyEvent_command_idle .cksum hp
  · exact (applyEvent_command_idle .ccidparse hp).trans (congrArg _ (ccidAccept_parser hc))
  · exact (applyEvent_command_idle .ccidchk hp).trans (congrArg _ (ccidAccept_parser hc))

/-- ENCODE of a length out of range waits with PLEN_RANGE, TXCNT cleared (R122, R150). -/
theorem applyEvent_encode_long (hp : s.phase = .idle) (hlen : 282 < s.plen.toNat) :
    applyEvent (.hostWrite 0x000 0x02) s = .next (toCompute .plenRange { acceptBegin 0x02 s with txcnt := 0 }) :=
  (applyEvent_command_idle .encode hp).trans (congrArg _ (if_pos hlen))

/-- Settles O9: each byte is illegal or has its command's acceptance, and the length or the timeout decides the rest. -/
theorem commandAcceptance : Obligations.CommandAcceptance := by
  intro s v hp b parser run
  refine ⟨fun hv => ?illegal, fun hv => ?nop, fun hv => ?length, fun hv => ?encode, fun hv => ?decode⟩
  case illegal => exact applyEvent_illegal_idle hv hp
  case nop => subst hv; exact applyEvent_command_idle .nop hp
  case length => exact applyEvent_lengthCommand_idle hv hp
  case encode =>
    subst hv
    by_cases hlen : 282 < s.plen.toNat
    · rw [if_pos hlen]; exact applyEvent_encode_long hp hlen
    · rw [if_neg hlen]; exact applyEvent_encode_idle hp (Nat.le_of_not_lt hlen)
  case decode =>
    subst hv
    intro d
    have hrun : run = .next (decodeAccept (acceptBegin 0x03 s)) := applyEvent_decode_idle hp
    rw [hrun]
    by_cases ht : s.timeout = 0
    · rw [if_pos ht]; exact congrArg _ (enterRx_zero .decHdr (by exact ht))
    · rw [if_neg ht]; exact congrArg _ (enterRx_pos .decHdr (by exact timeout_pos ht))

/-! ### Completion (R123, R124) -/

/-- Settles O12: the equation is completion's definition, and PHASE = IDLE is BUSY = 0. -/
theorem completionReportsTheCode : Obligations.CompletionReportsTheCode :=
  fun _ _ => ⟨rfl, busy_eq_false.2 rfl⟩

/-- A command accepted with a pending error completes with it at the Finish that follows (R124). -/
theorem applyEvents_accept_pending {a : HostAddr} {v : Byte} {e : ErrorCode}
    (hw : applyEvent (.hostWrite a v) s = .next (toCompute e t)) (he : e ≠ .none) :
    applyEvents [.hostWrite a v, .finish] s = .next (complete e t) := by
  have hf : applyEvent .finish (toCompute e t) = .next (complete e (toCompute e t)) := finish_pending rfl he
  rw [applyEvents_cons_next hw, applyEvents_cons_next hf]
  rfl

/-! ### Writes while a command runs (R121) -/

/-- A host write to a busy engine sets WIGN where an idle engine would store or start, and does nothing elsewhere. -/
theorem applyEvent_hostWrite_busy (hp : s.phase ≠ .idle) (a : HostAddr) (v : Byte) :
    applyEvent (.hostWrite a v) s = .next (if a = 0x000 ∨ storable a = true then ignoreWrite s else s) := by
  have ha : a.toNat = 0 ↔ a = 0x000 := ⟨fun h => BitVec.eq_of_toNat_eq h, fun h => congrArg BitVec.toNat h⟩
  rw [applyEvent_enabled rfl, effect, hostWrite]
  simp only [busy_eq_true.2 hp, ha, if_true]
  by_cases h0 : a = 0x000
  · simp only [h0, true_or, if_true]
  · by_cases hs : storable a = true
    · simp only [h0, hs, or_true, if_true, if_false]
    · simp only [h0, hs, if_false, Bool.false_eq_true, or_self]

theorem applyEvent_command_busy (hp : s.phase ≠ .idle) (v : Byte) :
    applyEvent (.hostWrite 0x000 v) s = .next (ignoreWrite s) :=
  (applyEvent_hostWrite_busy hp 0x000 v).trans (congrArg _ (if_pos (.inl rfl)))

/-- Settles O10: the address decides what a busy write does, and of the ways a command ends only Reset leaves DONE = 0. -/
theorem busyWritesAreIgnored : Obligations.BusyWritesAreIgnored := by
  intro s a v hp
  rw [← storable_iff, applyEvent_hostWrite_busy hp]
  refine ⟨fun ha => ?ignored, fun ha => ?nothing, fun e t h ht hd => ?stopped⟩
  case ignored => rw [if_pos ha]; rfl
  case nothing => rw [if_neg ha]
  case stopped =>
    rcases commandsEndOnlyByTheirOwnEvents s t e hp h ht with ⟨he, -⟩ | ⟨-, hdone, -⟩
    · exact he
    · cases hd.symm.trans hdone

theorem runCommand_turnedAway {v : Byte} {acc : State → State} {body : State → Host.Outcome State Fault Refusal}
    (hp : s.phase ≠ .idle) (ho : s.op ≠ v) : runCommand v acc body s = .next (ignoreWrite s) := by
  rcases runCommand_cases (s := s) (v := v) (acc := acc) (body := body) with ⟨hi, -⟩ | ⟨-, hov, -⟩ | ⟨-, -, e⟩
  · exact absurd hi hp
  · exact absurd hov ho
  · exact e

/-- Outside ENC, ENCODE makes the move that every command shares. -/
theorem execEncode_shared (hp : s.phase ≠ .enc) :
    execEncode s = runCommand 0x02 encodeAccept (fun t => .next t) s := by
  unfold execEncode
  split
  · exact absurd ‹_› hp
  all_goals rfl

/-- Outside the RX phases, DECODE makes the move that every command shares. -/
theorem execDecode_shared (hh : s.phase ≠ .decHdr) (hb : s.phase ≠ .decBody) :
    execDecode s = runCommand 0x03 decodeAccept (fun t => .next t) s := by
  unfold execDecode
  split
  · exact absurd ‹_› hh
  · exact absurd ‹_› hb
  all_goals rfl

/-- Settles O11: ENC and the RX phases belong to ENCODE and DECODE, and elsewhere the shared move turns the command away. -/
theorem otherCommandIsTurnedAway : Obligations.OtherCommandIsTurnedAway := by
  intro s i hi hp hd
  have ho : s.op ≠ opcode i := fun h => hd (decodeByte_eq_ok.2 h)
  cases i with
  | nop => exact runCommand_turnedAway hp ho
  | cksum => exact runCommand_turnedAway hp ho
  | encode =>
    have henc : s.phase ≠ .enc := fun h => ho (hi.enc h).1
    exact (execEncode_shared henc).trans (runCommand_turnedAway hp ho)
  | decode =>
    have hhdr : s.phase ≠ .decHdr := fun h => ho (hi.decHdr h).1
    have hbody : s.phase ≠ .decBody := fun h => ho (hi.decBody h).1
    exact (execDecode_shared hhdr hbody).trans (runCommand_turnedAway hp ho)
  | ccidparse => exact runCommand_turnedAway hp ho
  | ccidchk => exact runCommand_turnedAway hp ho

/-! ### NOP, illegal opcodes and lengths out of range (R122, R126, R127) -/

theorem exec_nop_compute (hp : s.phase = .compute) (ho : s.op = 0x00) (he : s.perr = .none) :
    exec .nop s = .next (complete .none s) :=
  (exec_compute (i := .nop) hp ho).trans (finishWith_none he)

/-- Settles O25: NOP waits with NONE pending, and its Finish completes with NONE. -/
theorem nopCompletesWithNone : Obligations.NopCompletesWithNone := by
  refine ⟨fun s hp => exec_idle .nop hp, fun s hp ho he => ?finish, fun s hp => ⟨_, ?both, rfl⟩,
    fun s hp => applyEvent_command_busy hp 0x00⟩
  case finish => rw [exec_nop_compute hp ho he, complete, he]; rfl
  case both =>
    have hf : applyEvent .finish (toCompute .none (acceptBegin 0x00 s)) =
        .next (complete .none (toCompute .none (acceptBegin 0x00 s))) :=
      (applyEvent_finish (i := .nop) rfl rfl).trans (exec_nop_compute rfl rfl rfl)
    have hw : applyEvent (.hostWrite 0x000 0x00) s = .next (toCompute .none (acceptBegin 0x00 s)) :=
      applyEvent_command_idle .nop hp
    rw [applyEvents_cons_next hw, applyEvents_cons_next hf, hp]
    rfl

/-- Settles O26: an illegal byte waits with ILLEGAL_COMMAND, which its Finish reports. -/
theorem illegalOpcodesCompleteWithTheirError : Obligations.IllegalOpcodesCompleteWithTheirError := by
  intro s v hv
  refine ⟨applyEvent_illegal_idle hv, fun hp hpos => ?both, fun hp => applyEvent_command_busy hp v⟩
  case both =>
    rw [applyEvents_accept_pending (applyEvent_illegal_idle hv hp) nofun, hp, hpos]
    rfl

/-- Settles O28: each of the commands waits with PLEN_RANGE, which its Finish reports, and only ENCODE clears TXCNT. -/
theorem lengthOutOfRangeIsRefused : Obligations.LengthOutOfRangeIsRefused := by
  intro s v hp hpos hlen hv
  by_cases h2 : v = 0x02
  · subst h2
    rw [applyEvents_accept_pending (applyEvent_encode_long hp hlen) nofun, hp, hpos]
    rfl
  · have hv' : v = 0x01 ∨ (s.hasCcid = true ∧ (v = 0x04 ∨ v = 0x05)) := hv.imp_right fun h => h.resolve_left h2
    have hw := applyEvent_lengthCommand_idle hv' hp
    rw [plenCheck_long hlen] at hw
    rw [applyEvents_accept_pending hw nofun, if_neg h2, hp, hpos]
    rfl

end Sys2Proof.Machine
end

section
/-! PROOFS. A command in COMPUTE finishes (spec/40_command.md R124; spec/70_reset_and_hazards.md R226): every event but Finish
and Reset leaves COMPUTE, so fairness, or the end of the schedule, brings the Finish. -/

namespace Sys2Proof.Machine

variable {s t : State}

/-! ### One event in COMPUTE -/

/-- Event `e` has ended COMPUTE in state `t`: the Finish, which reports, or a Reset (R123, R211). -/
def ComputeEnds (e : Event) (t : State) : Prop :=
  t.phase = .idle ∧ ((e = .finish ∧ t.status.done = true) ∨ e = .reset)

theorem finish_sched (hp : s.phase = .compute) (h : finish s = .next t) : t.sched = s.sched := by
  rcases finish_next hp h with ⟨-, rfl⟩ | ⟨-, ⟨-, rfl⟩ | ⟨-, p, -, rfl⟩ | ⟨-, rfl⟩ | ⟨-, e, c, rfl⟩⟩
  all_goals rfl

/-- What an event can do in COMPUTE: it leaves the phase as it is, or it ends the command; no event touches the schedule. -/
theorem computeEvent_cases {e : Event} (hi : s.Inv) (hp : s.phase = .compute) (h : applyEvent e s = .next t) :
    t.sched = s.sched ∧ ((t.phase = .compute ∧ e ≠ .finish ∧ e ≠ .reset) ∨ ComputeEnds e t) := by
  have hrun : s.phase ≠ .idle := by simp [hp]
  rcases applyEvent_cases h with ⟨a, v, rfl, hw⟩ | ⟨a, rfl, rfl⟩ | ⟨b, rfl, rfl⟩ | ⟨-, b, q, -, ⟨hf, -⟩ | ⟨hf, -⟩⟩ |
    ⟨-, hf, -⟩ | ⟨rfl, ⟨rfl, -⟩ | ⟨hf, -⟩⟩ | ⟨rfl, -, hf⟩ | ⟨rfl, rfl⟩
  · rcases hostWrite_busy hrun hw with rfl | rfl
    · exact ⟨rfl, .inl ⟨hp, nofun, nofun⟩⟩
    · exact ⟨rfl, .inl ⟨hp, nofun, nofun⟩⟩
  · exact ⟨rfl, .inl ⟨hp, nofun, nofun⟩⟩
  · exact ⟨rfl, .inl ⟨hp, nofun, nofun⟩⟩
  · simp [hp] at hf
  · simp [hp] at hf
  · simp [hp] at hf
  · exact ⟨rfl, .inl ⟨hp, nofun, nofun⟩⟩
  · simp [hp] at hf
  · have ht := finish_idle hi hp hf
    obtain ⟨hdone, -⟩ := finish_ends hp hf ht
    exact ⟨finish_sched hp hf, .inr ⟨ht, .inl ⟨rfl, hdone⟩⟩⟩
  · exact ⟨rfl, .inr ⟨rfl, .inr rfl⟩⟩

/-- An event of COMPUTE that is neither Finish nor Reset keeps the phase and the invariant. -/
theorem computeEvent_stays {e : Event} (hi : s.Inv) (hp : s.phase = .compute) (h : applyEvent e s = .next t)
    (he : ¬ (e = .finish ∨ e = .reset)) : t.Inv ∧ t.phase = .compute := by
  obtain ⟨-, ⟨ht, -⟩ | ⟨-, ⟨hf, -⟩ | hr⟩⟩ := computeEvent_cases hi hp h
  · exact ⟨applyEvent_next_inv hi h, ht⟩
  · exact absurd (.inl hf) he
  · exact absurd (.inr hr) he

/-- Finish and Reset end COMPUTE. -/
theorem computeEvent_ends {e : Event} (hi : s.Inv) (hp : s.phase = .compute) (h : applyEvent e s = .next t)
    (he : e = .finish ∨ e = .reset) : ComputeEnds e t := by
  obtain ⟨-, ⟨-, hf, hr⟩ | hend⟩ := computeEvent_cases hi hp h
  · exact absurd he (not_or.2 ⟨hf, hr⟩)
  · exact hend

/-! ### Runs of events -/

section Runs

variable {st : Nat → State} {ev : Nat → Event}

/-- From moment `n` to moment `m` the run is in COMPUTE. -/
def ComputesUntil (st : Nat → State) (n m : Nat) : Prop :=
  ∀ k, n ≤ k → k ≤ m → (st k).phase = .compute

theorem computesUntil_self {n : Nat} (hp : (st n).phase = .compute) : ComputesUntil st n n :=
  fun _ hn hm => Nat.le_antisymm hm hn ▸ hp

theorem computesUntil_of_succ {n m : Nat} (hp : (st n).phase = .compute) (h : ComputesUntil st (n + 1) m) :
    ComputesUntil st n m := by
  intro k hn hm
  rcases Nat.eq_or_lt_of_le hn with rfl | hlt
  · exact hp
  · exact h k hlt hm

/-- A run that is in COMPUTE stays there while neither Finish nor Reset comes. -/
theorem eventRun_stays {n : Nat} (hr : EventRun st ev) (hi : (st n).Inv) (hp : (st n).phase = .compute)
    (hne : ∀ m, n ≤ m → ¬ (ev m = .finish ∨ ev m = .reset)) (m : Nat) (hm : n ≤ m) :
    (st m).Inv ∧ (st m).phase = .compute := by
  induction m, hm using Nat.le_induction with
  | base => exact ⟨hi, hp⟩
  | succ m hm ih =>
    obtain ⟨him, hpm⟩ := ih
    exact computeEvent_stays him hpm (hr m) (hne m hm)

/-- Fairness brings a Finish unless a Reset comes: a Finish that never came would stay enabled (R226). -/
theorem weaklyFair_ends {n : Nat} (hr : EventRun st ev) (hfair : WeaklyFair st ev) (hi : (st n).Inv)
    (hp : (st n).phase = .compute) : ∃ d, ev (n + d) = .finish ∨ ev (n + d) = .reset := by
  by_contra hno
  have hne : ∀ m, n ≤ m → ¬ (ev m = .finish ∨ ev m = .reset) := by
    intro m hm he
    obtain ⟨d, rfl⟩ := Nat.exists_eq_add_of_le hm
    exact hno ⟨d, he⟩
  obtain ⟨m, hm, hf⟩ := hfair n fun m hm => enabled_finish.2 (eventRun_stays hr hi hp hne m hm).2
  exact hne m hm (.inl hf)

/-- The first Finish or Reset ends COMPUTE, and until then the run is in it. -/
theorem eventRun_ends {n d : Nat} (hr : EventRun st ev) (hi : (st n).Inv) (hp : (st n).phase = .compute)
    (he : ev (n + d) = .finish ∨ ev (n + d) = .reset) :
    ∃ m, n ≤ m ∧ ComputesUntil st n m ∧ ComputeEnds (ev m) (st (m + 1)) := by
  induction d generalizing n with
  | zero => exact ⟨n, Nat.le_refl n, computesUntil_self hp, computeEvent_ends hi hp (hr n) he⟩
  | succ d ih =>
    by_cases hn : ev n = .finish ∨ ev n = .reset
    · exact ⟨n, Nat.le_refl n, computesUntil_self hp, computeEvent_ends hi hp (hr n) hn⟩
    · obtain ⟨hi', hp'⟩ := computeEvent_stays hi hp (hr n) hn
      obtain ⟨m, hm, hc, hend⟩ := ih hi' hp' (by rwa [Nat.add_right_comm])
      exact ⟨m, Nat.le_of_succ_le hm, computesUntil_of_succ hp hc, hend⟩

/-! ### Runs of step -/

/-- A step in COMPUTE takes the schedule's next event, which keeps the phase or ends the command. -/
theorem step_compute_cons {e : Event} {rest : List Event} (hi : s.Inv) (hp : s.phase = .compute)
    (hs : s.sched = e :: rest) (h : step s = .next t) :
    t.sched = rest ∧ ((t.Inv ∧ t.phase = .compute ∧ e ≠ .finish ∧ e ≠ .reset) ∨ ComputeEnds e t) := by
  rw [step_cons hs] at h
  have hi' : ({ s with sched := rest } : State).Inv := hi.environment s.rxq s.hostReads rest s.status.wign
  exact (computeEvent_cases hi' hp h).imp_right (Or.imp_left fun hc => ⟨applyEvent_next_inv hi' h, hc⟩)

/-- With nothing scheduled a step in COMPUTE is the Finish (R226). -/
theorem step_compute_nil (hi : s.Inv) (hp : s.phase = .compute) (hs : s.sched = []) (h : step s = .next t) :
    t.sched = [] ∧ t.phase = .idle ∧ t.status.done = true := by
  rw [step_engine hs (engineEvent_compute hp)] at h
  obtain ⟨ht, ⟨-, hf, -⟩ | ⟨hidle, ⟨-, hdone⟩ | hr⟩⟩ := computeEvent_cases hi hp h
  · exact absurd rfl hf
  · exact ⟨ht.trans hs, hidle, hdone⟩
  · cases hr

/-- A run of step ends COMPUTE with an event of the schedule, or with the step after the last of them. -/
theorem stepRun_ends {n : Nat} {es : List Event} (hr : StepRun st) (hi : (st n).Inv) (hp : (st n).phase = .compute)
    (hs : (st n).sched = es) :
    ∃ m, n ≤ m ∧ m ≤ n + es.length ∧ ComputesUntil st n m ∧ (st (m + 1)).phase = .idle ∧
      ((st (m + 1)).status.done = true ∨ ∃ rest, (st m).sched = .reset :: rest) := by
  induction es generalizing n with
  | nil =>
    obtain ⟨-, hidle, hdone⟩ := step_compute_nil hi hp hs (hr n)
    exact ⟨n, Nat.le_refl n, Nat.le_refl n, computesUntil_self hp, hidle, .inl hdone⟩
  | cons e rest ih =>
    obtain ⟨hs', ⟨hi', hp', -⟩ | ⟨hidle, hend⟩⟩ := step_compute_cons hi hp hs (hr n)
    · obtain ⟨m, hm, hlen, hc, hend⟩ := ih hi' hp' hs'
      exact ⟨m, Nat.le_of_succ_le hm, by rw [List.length_cons]; omega, computesUntil_of_succ hp hc, hend⟩
    · refine ⟨n, Nat.le_refl n, Nat.le_add_right n _, computesUntil_self hp, hidle, ?_⟩
      exact hend.imp (fun hf => hf.2) fun he => ⟨rest, by rw [hs, he]⟩

end Runs

/-! ### Schedules of host accesses, arrivals and Ticks -/

/-- A host access, an arrival or a Tick: enabled in COMPUTE, and no end of it. -/
def EnvironmentEvent (e : Event) : Prop :=
  e = .tick ∨ (∃ b, e = .rxArrive b) ∨ (∃ a, e = .hostRead a) ∨ ∃ a v, e = .hostWrite a v

theorem EnvironmentEvent.enabled_compute {e : Event} (he : EnvironmentEvent e) (hp : s.phase = .compute) :
    enabled e s = true := by
  rcases he with rfl | ⟨b, rfl⟩ | ⟨a, rfl⟩ | ⟨a, v, rfl⟩
  · exact enabled_tick.2 (by simp [hp])
  · rfl
  · rfl
  · rfl

theorem EnvironmentEvent.not_end {e : Event} (he : EnvironmentEvent e) : ¬ ComputeEnds e t := by
  rintro ⟨-, ⟨hf, -⟩ | hr⟩
  · subst hf; simp [EnvironmentEvent] at he
  · subst hr; simp [EnvironmentEvent] at he

/-- Under such a schedule each event is a step, and the Finish is one step more. -/
theorem steps_compute {es : List Event} (hi : s.Inv) (hp : s.phase = .compute) (hs : s.sched = es)
    (hes : ∀ e ∈ es, EnvironmentEvent e) :
    ∃ t, steps (es.length + 1) s = .next t ∧ t.phase = .idle ∧ t.status.done = true ∧ t.sched = [] := by
  induction es generalizing s with
  | nil =>
    have he := engineEvent_compute hp
    obtain ⟨t, ht, -⟩ := applyEvent_inv hi (engineEvent_enabled he)
    have hstep : step s = .next t := (step_engine hs he).trans ht
    obtain ⟨hsched, hidle, hdone⟩ := step_compute_nil hi hp hs hstep
    exact ⟨t, steps_succ hstep, hidle, hdone, hsched⟩
  | cons e rest ih =>
    obtain ⟨he, hrest⟩ := List.forall_mem_cons.1 hes
    have hi' : ({ s with sched := rest } : State).Inv := hi.environment s.rxq s.hostReads rest s.status.wign
    obtain ⟨t, ht, -⟩ := applyEvent_inv hi' (he.enabled_compute hp)
    have hstep : step s = .next t := (step_cons hs).trans ht
    obtain ⟨hsched, ⟨hti, htp, -⟩ | hend⟩ := step_compute_cons hi hp hs hstep
    · rw [List.length_cons, steps_succ hstep]
      exact ih hti htp hsched hrest
    · exact absurd hend he.not_end

/-- Settles O60: fairness, or the end of the schedule, brings the Finish, and until then COMPUTE stays. -/
theorem finishHappensEventually : Obligations.FinishHappensEventually := by
  refine ⟨fun st ev n hr hfair hi hp => ?fair, fun st n hr hi hp => stepRun_ends hr hi hp rfl,
    fun s hi hp hes => steps_compute hi hp rfl hes⟩
  case fair =>
    obtain ⟨d, he⟩ := weaklyFair_ends hr hfair hi hp
    exact eventRun_ends hr hi hp he

end Sys2Proof.Machine
end

section
/-! PROOFS. The checksum (spec/41_checksum.md R141, R142): the checksum of a list is the negative of the sum of its
bytes, added up as bytes, so its laws are those of addition; and the moves of CKSUM. -/

namespace Sys2Proof.Machine

variable {s : State}

/-! ### The checksum in the ring of the bytes (R142) -/

@[simp] theorem cks_nil : cks [] = 0x00 := rfl

theorem cks_cons (b : Byte) (l : List Byte) : cks (b :: l) = cks l - b := by
  apply BitVec.eq_of_toNat_eq
  rw [BitVec.toNat_sub, cks_toNat, cks_toNat, sum8_cons]
  unfold neg8
  have := sum8_lt l
  omega

theorem cks_eq_neg_sum (l : List Byte) : cks l = -l.sum := by
  induction l with
  | nil => rfl
  | cons b l ih => rw [cks_cons, ih, List.sum_cons, neg_add_rev, sub_eq_add_neg]

theorem cks_singleton (b : Byte) : cks [b] = -b := by
  rw [cks_eq_neg_sum, List.sum_singleton]

theorem cks_append (l r : List Byte) : cks (l ++ r) = cks l + cks r := by
  simp only [cks_eq_neg_sum, List.sum_append, neg_add]

theorem cks_perm {l r : List Byte} (h : l.Perm r) : cks l = cks r := by
  rw [cks_eq_neg_sum, cks_eq_neg_sum, h.sum_eq]

theorem cks_append_zero (l : List Byte) : cks (l ++ [0x00]) = cks l := by
  rw [cks_append, cks_singleton, neg_zero, add_zero]

theorem cks_append_cks (l : List Byte) : cks (l ++ [cks l]) = 0x00 := by
  rw [cks_append, cks_singleton, add_neg_cancel]

theorem cks_append_toNat (l r : List Byte) : (cks (l ++ r)).toNat = neg8 ((sum8 l + sum8 r) % 256) := by
  rw [cks_toNat, sum8_append]

theorem neg8_eq_zero {x : Nat} (h : x < 256) : neg8 x = 0 ↔ x = 0 := by
  unfold neg8; omega

theorem cks_eq_zero (l : List Byte) : cks l = 0x00 ↔ sum8 l = 0 := by
  rw [← BitVec.toNat_inj, cks_toNat]
  exact neg8_eq_zero (sum8_lt l)

/-- The other bytes cancel: the checksum detects every change of one byte. -/
theorem eq_of_cks_replace_eq {l r : List Byte} {x y : Byte} (h : cks (l ++ x :: r) = cks (l ++ y :: r)) : x = y := by
  rw [cks_append, cks_append, cks_cons, cks_cons] at h
  exact sub_right_injective (add_left_cancel h)

theorem cks_increment_decrement (l m r : List Byte) (x y : Byte) :
    cks (l ++ (x + 1) :: m ++ (y - 1) :: r) = cks (l ++ x :: m ++ y :: r) := by
  simp only [cks_append, cks_cons]
  ring

/-- Settles O49: each law is one of addition in the ring of the bytes, or of the sum modulo 256. -/
theorem checksumLaws : Obligations.ChecksumLaws :=
  ⟨cks_nil, sum_add_cks, fun _ _ h => cks_perm h, rfl, rfl, cks_append_toNat,
    fun l => ⟨cks_append_zero l, cks_append_cks l⟩, cks_eq_zero, fun _ _ _ _ hne h => hne (eq_of_cks_replace_eq h),
    cks_increment_decrement⟩

/-! ### CKSUM (R141) -/

/-- R141 writes the negative of the sum without its last reduction: a byte's width supplies it. -/
theorem cks_eq_ofNat (l : List Byte) : cks l = BitVec.ofNat 8 (256 - (l.map BitVec.toNat).sum % 256) := by
  apply BitVec.eq_of_toNat_eq
  rw [cks_toNat, BitVec.toNat_ofNat]
  rfl

theorem exec_cksum_compute {p : List Byte} (hp : s.phase = .compute) (ho : s.op = 0x01) (he : s.perr = .none)
    (hl : payload s.pbuf s.plen.toNat = some p) : exec .cksum s = .next (complete .none { s with cksum := cks p }) := by
  rw [exec_compute (i := .cksum) hp ho, finishWith_none he, finishBody, cksumBody, hl]

/-- Settles O27: the shared moves give acceptance and the refusal; PBUF has the payload that the body adds up. -/
theorem cksumComputesTheChecksum : Obligations.CksumComputesTheChecksum := by
  refine ⟨fun s hp => exec_idle .cksum hp, fun s hp ho he => ?refused, fun s hp ho he hm hl => ?computed⟩
  case refused =>
    rw [exec_compute (i := .cksum) hp ho, finishWith_pending (by simp [he]), he]
    rfl
  case computed =>
    obtain ⟨p, hpay⟩ := payload_some hm hl
    obtain ⟨hlen, hbytes⟩ := payload_eq_some.1 hpay
    refine ⟨p, hlen, hbytes, ?_⟩
    rw [exec_cksum_compute hp ho he hpay, cks_eq_ofNat, complete, he]
    rfl

end Sys2Proof.Machine
end

section
/-! PROOFS. An ENCODE event by event (spec/42_encode.md R150-R158): the byte each TxAccept sends, what every other event leaves
alone, and so what an ENCODE has sent at any moment, however it is interleaved and wherever a Reset ends it. -/

namespace Sys2Proof.Machine

variable {s t : State}

/-! ### One event of ENC (R157) -/

/-- At a position before its end, a frame's rest begins with the byte there. -/
theorem frame_drop_eq_cons {p : List Byte} {k : Nat} (hk : k < p.length + 8) :
    ∃ b, (frame p)[k]? = some b ∧ (frame p).drop k = b :: (frame p).drop (k + 1) := by
  have hlt : k < (frame p).length := hk.trans_eq (frame_length p).symm
  exact ⟨(frame p)[k], List.getElem?_eq_getElem hlt, List.drop_eq_getElem_cons hlt⟩

/-- The last byte of a frame is the postamble (R92). -/
theorem frame_drop_last (p : List Byte) : (frame p).drop (p.length + 7) = [0x00] := by
  have hfront : frame p = ((frameHeader p).toList ++ p ++ [cks p]) ++ [0x00] := by simp [frame_eq]
  rw [hfront]
  exact List.drop_left' (by simp only [List.length_append, Vector.length_toList, List.length_singleton]; omega)

/-- Before the last byte of the frame, a TxAccept sends the next one and counts it. -/
theorem applyEvent_txAccept_more {p : List Byte} {b : Byte} {r : List Byte} (hp : s.phase = .enc)
    (hpay : payload s.pbuf s.plen.toNat = some p) (hlen : s.plen.toNat ≤ 282) (hpos : s.pos.toNat < s.plen.toNat + 7)
    (hr : (frame p).drop s.pos.toNat = b :: r) :
    applyEvent .txAccept s =
      .next { s with txlog := s.txlog ++ [b], txcnt := s.txcnt + 1, pos := s.pos + 1 } := by
  have hmore : ¬ (s.pos + 1).toNat = s.plen.toNat + 8 := by rw [toNat_add_one (by omega)]; omega
  exact (applyEvent_txAccept_frame hp hpay hr).trans (congrArg _ (if_neg hmore))

/-- At the last byte of the frame, a TxAccept sends it and completes, the DCS in CKSUM. -/
theorem applyEvent_txAccept_last {p : List Byte} {b : Byte} {r : List Byte} (hp : s.phase = .enc)
    (hpay : payload s.pbuf s.plen.toNat = some p) (hlen : s.plen.toNat ≤ 282) (hpos : s.pos.toNat = s.plen.toNat + 7)
    (hr : (frame p).drop s.pos.toNat = b :: r) :
    applyEvent .txAccept s =
      .next (complete .none
        { s with txlog := s.txlog ++ [b], txcnt := s.txcnt + 1, pos := s.pos + 1, cksum := cks p }) := by
  have hlast : (s.pos + 1).toNat = s.plen.toNat + 8 := by rw [toNat_add_one (by omega), hpos]
  exact (applyEvent_txAccept_frame hp hpay hr).trans (congrArg _ (if_pos hlast))

/-- Settles O29: acceptance and Finish are the shared moves, and a TxAccept sends byte POS, the last one completing. -/
theorem encodeEmitsTheNextFrameByte : Obligations.EncodeEmitsTheNextFrameByte := by
  refine ⟨fun s => enabled_txAccept, fun s hp => exec_idle .encode hp, fun s hp ho he => ?refused,
    fun s p hp hlen hpos hpay => ?byte⟩
  case refused =>
    have hpending : s.perr ≠ .none := by simp [he]
    rw [exec_compute (i := .encode) hp ho, finishWith_pending hpending, he]
    rfl
  case byte =>
    have hpl : p.length = s.plen.toNat := (payload_eq_some.1 hpay).1
    obtain ⟨b, hb, hdrop⟩ := frame_drop_eq_cons (p := p) (k := s.pos.toNat) (by omega)
    rw [← applyEvent_txAccept hp]
    exact ⟨b, hb, fun hmore => applyEvent_txAccept_more hp hpay hlen hmore hdrop,
      fun hlast => applyEvent_txAccept_last hp hpay hlen hlast hdrop⟩

/-! ### The accepted ENCODE (R120, R150) -/

/-- An ENCODE accepted from an idle engine: its frame is to be sent from byte 0 on (R120, R150). -/
def State.startsFrame (s : State) : State := { acceptBegin 0x02 s with txcnt := 0, phase := .enc, pos := 0 }

theorem applyEvents_encode (es : List Event) (hp : s.phase = .idle) (hlen : s.plen.toNat ≤ 282) :
    applyEvents (.hostWrite 0x000 0x02 :: es) s = applyEvents es s.startsFrame :=
  applyEvents_cons_next (applyEvent_encode_idle hp hlen)

/-! ### A Reset within the frame (R158) -/

/-- Settles O31: the first `k` bytes of the frame go out, and a Reset keeps TXLOG. -/
theorem resetCutsTheFrameShort : Obligations.ResetCutsTheFrameShort := by
  intro s p k hp hlen hpay hk
  have hpl : p.length = s.plen.toNat := (payload_eq_some.1 hpay).1
  obtain ⟨b, -, hdrop⟩ := frame_drop_eq_cons (p := p) (k := k) (by omega)
  have hsplit : frame p = (frame p).take k ++ b :: (frame p).drop (k + 1) := by rw [← hdrop, List.take_append_drop]
  have htake : ((frame p).take k).length = k := by rw [List.length_take, frame_length]; omega
  have hsend := applyEvents_txAccept (s := s.startsFrame) rfl hpay hlen hsplit
  rw [htake] at hsend
  have hcount : ((0 : Half) + BitVec.ofNat 16 k).toNat = k := by bv_omega
  exact ⟨_, _, (applyEvents_encode _ hp hlen).trans hsend, rfl, hcount, rfl, rfl, rfl, rfl, rfl⟩

/-! ### Every schedule (R154, R155) -/

/-- What the environment and the host can change while a command runs: `q` has arrived, the host's readings are `r`, and
WIGN is `w`. -/
def State.beside (s : State) (q : List Byte) (r : List (HostAddr × Byte)) (w : Bool) : State :=
  { s with rxq := s.rxq ++ q, hostReads := r, status := { s.status with wign := w } }

/-- `k` bytes of the frame of `p` have gone out from POS on (R157). -/
def State.sent (s : State) (p : List Byte) (k : Nat) : State :=
  { s with
    txlog := s.txlog ++ ((frame p).drop s.pos.toNat).take k, txcnt := s.txcnt + BitVec.ofNat 16 k
    pos := s.pos + BitVec.ofNat 16 k }

/-- Sending the byte at POS and then `k` more is sending `k + 1`. -/
theorem State.sent_succ {p : List Byte} {b : Byte} {k : Nat} (hpos : (s.pos + 1).toNat = s.pos.toNat + 1)
    (hr : (frame p).drop s.pos.toNat = b :: (frame p).drop (s.pos.toNat + 1)) :
    ({ s with txlog := s.txlog ++ [b], txcnt := s.txcnt + 1, pos := s.pos + 1 } : State).sent p k = s.sent p (k + 1) := by
  simp only [State.sent, hpos, hr, List.take_succ_cons, List.append_assoc, List.singleton_append, half_add_succ]

/-- What came beside the command comes together, whatever is sent between. -/
theorem State.beside_sent_beside (p : List Byte) (k : Nat) (q q' : List Byte) (r r' : List (HostAddr × Byte))
    (w w' : Bool) : ((s.beside q r w).sent p k).beside q' r' w' = (s.sent p k).beside (q ++ q') r' w' := by
  simp only [State.beside, State.sent, List.append_assoc]

/-- In ENC an event other than TxAccept and Reset moves nothing of the command. -/
theorem encEvent_beside {e : Event} (hp : s.phase = .enc) (hr : e ≠ .reset) (ht : e ≠ .txAccept)
    (h : applyEvent e s = .next t) : ∃ r w, t = s.beside (arrivedByte e).toList r w := by
  have hrun : s.phase ≠ .idle := by simp [hp]
  have hquiet (w : Bool) (hw : t = { s with status := { s.status with wign := w } }) :
      t = s.beside [] s.hostReads w := by rw [State.beside, List.append_nil, hw]
  rcases applyEvent_cases h with ⟨a, v, rfl, hw⟩ | ⟨a, rfl, rfl⟩ | ⟨b, rfl, rfl⟩ | ⟨-, b, q, -, ⟨hf, -⟩ | ⟨hf, -⟩⟩ |
    ⟨he, -, -⟩ | ⟨rfl, ⟨rfl, -⟩ | ⟨hf, -⟩⟩ | ⟨-, hf, -⟩ | ⟨he, -⟩
  · rcases hostWrite_busy hrun hw with rfl | rfl
    · exact ⟨_, _, hquiet _ rfl⟩
    · exact ⟨_, _, hquiet _ rfl⟩
  · refine ⟨(hostRead a s).hostReads, s.status.wign, ?_⟩
    rw [State.beside, arrivedByte, Option.toList_none, List.append_nil]
    rfl
  · exact ⟨s.hostReads, s.status.wign, rfl⟩
  · simp [hp] at hf
  · simp [hp] at hf
  · exact absurd he ht
  · exact ⟨_, _, hquiet _ rfl⟩
  · simp [hp] at hf
  · simp [hp] at hf
  · exact absurd he hr

/-- What has happened in ENC after any events without a Reset that leave a byte of the frame to send: the bytes of the
TxAccepts have gone out, and nothing else of the command has moved. -/
theorem applyEvents_enc {p : List Byte} {es : List Event} (hp : s.phase = .enc)
    (hpay : payload s.pbuf s.plen.toNat = some p) (hlen : s.plen.toNat ≤ 282) (hr : .reset ∉ es)
    (hcount : s.pos.toNat + es.count .txAccept ≤ s.plen.toNat + 7) (h : applyEvents es s = .next t) :
    ∃ r w, t = (s.sent p (es.count .txAccept)).beside (arrived es) r w := by
  induction es generalizing s with
  | nil => cases h; exact ⟨t.hostReads, t.status.wign, by simp [State.beside, State.sent, arrived]⟩
  | cons e es ih =>
    obtain ⟨hre, hres⟩ := not_or.1 (mt List.mem_cons.2 hr)
    obtain ⟨u, hu, hut⟩ := applyEvents_cons_split h
    by_cases he : e = .txAccept
    case pos =>
      subst he
      rw [List.count_cons_self] at hcount ⊢
      have hpl : p.length = s.plen.toNat := (payload_eq_some.1 hpay).1
      obtain ⟨b, -, hdrop⟩ := frame_drop_eq_cons (p := p) (k := s.pos.toNat) (by omega)
      have hsucc : (s.pos + 1).toNat = s.pos.toNat + 1 := toNat_add_one (by omega)
      cases (applyEvent_txAccept_more hp hpay hlen (by omega) hdrop).symm.trans hu
      rw [← State.sent_succ hsucc hdrop]
      exact ih hp hpay hlen hres (by simp only [hsucc]; omega) hut
    case neg =>
      rw [List.count_cons_of_ne he] at hcount ⊢
      obtain ⟨r, w, rfl⟩ := encEvent_beside hp (Ne.symm hre) he hu
      obtain ⟨r', w', ht⟩ := ih (s := s.beside _ r w) hp hpay hlen hres hcount hut
      exact ⟨r', w', by rw [ht, State.beside_sent_beside, arrived_cons]⟩

/-- Settles O32: acceptance starts the frame at POS = 0, what follows is known for every schedule, and with one byte left
the next TxAccept is the last. -/
theorem encodeSendsTheFrameUnderEverySchedule : Obligations.EncodeSendsTheFrameUnderEverySchedule := by
  intro s t p es hp hlen hpay hr hcount h
  have hpl : p.length = s.plen.toNat := (payload_eq_some.1 hpay).1
  have hfits : s.startsFrame.pos.toNat + es.count .txAccept ≤ s.plen.toNat + 7 := by
    simpa [State.startsFrame] using hcount
  rw [applyEvents_encode es hp hlen] at h
  obtain ⟨r, w, rfl⟩ := applyEvents_enc (s := s.startsFrame) rfl hpay hlen hr hfits h
  have hcnt : ((0 : Half) + BitVec.ofNat 16 (es.count .txAccept)).toNat = es.count .txAccept := by bv_omega
  refine ⟨by rw [frame_length, hpl], rfl, hcnt, rfl, rfl, rfl, rfl, rfl, rfl, rfl, rfl, fun hall => ?last⟩
  case last =>
    have hdrop : (frame p).drop (s.plen.toNat + 7) = [0x00] := hpl ▸ frame_drop_last p
    have htxcnt : (0 : Half) + BitVec.ofNat 16 (s.plen.toNat + 7) + 1 = s.plen + 8 := by bv_omega
    rw [hall] at hcnt ⊢
    have hlast := applyEvent_txAccept_last
      (s := (s.startsFrame.sent p (s.plen.toNat + 7)).beside (arrived es) r w) rfl hpay hlen hcnt
      ((congrArg (frame p).drop hcnt).trans hdrop)
    have hlog : s.txlog ++ (frame p).take (s.plen.toNat + 7) ++ [0x00] = s.txlog ++ frame p := by
      rw [List.append_assoc, ← hdrop, List.take_append_drop]
    rw [hlast, ← hlog, ← htxcnt]
    rfl

end Sys2Proof.Machine
end

section
/-! PROOFS. The round trip (spec/42_encode.md R159): the bytes an ENCODE sent arrive, and a DECODE reads them. -/

namespace Sys2Proof.Machine

variable {s : State}

/-- Bytes that arrive one after the other are queued in order (R28). -/
theorem applyEvents_arrivals (l : List Byte) :
    applyEvents (l.map .rxArrive) s = .next { s with rxq := s.rxq ++ l } := by
  induction l generalizing s with
  | nil => simp [applyEvents]
  | cons b l ih =>
    have harrive : applyEvent (.rxArrive b) s = .next { s with rxq := s.rxq ++ [b] } := rfl
    rw [List.map_cons, applyEvents_cons_next harrive, ih, List.append_cons s.rxq b l]

/-- After the ENCODE of `p` its frame stands at the end of TXLOG; PBUF, TIMEOUT and RXQ are as before (R154). -/
theorem encode_sends_frame {p : List Byte} (hp : s.phase = .idle) (hlen : s.plen.toNat ≤ 282)
    (hpay : payload s.pbuf s.plen.toNat = some p) :
    ∃ t, applyEvents (.hostWrite 0x000 0x02 :: List.replicate (p.length + 8) .txAccept) s = .next t ∧ t.phase = .idle ∧
      t.err = .none ∧ t.txlog = s.txlog ++ frame p ∧ t.pbuf = s.pbuf ∧ t.timeout = s.timeout ∧ t.rxq = s.rxq := by
  obtain ⟨-, -, -, hrun⟩ := encodeSendsTheWholeFrame s p hp hlen hpay
  rw [← (payload_eq_some.1 hpay).1] at hrun
  exact ⟨_, hrun, hp, rfl, rfl, rfl, rfl, rfl⟩

/-- Settles O42: the ENCODE leaves the frame in TXLOG, its bytes arrive, and a DECODE reads a frame as its payload. -/
theorem decodeOfEncodeIsThePayload : Obligations.DecodeOfEncodeIsThePayload := by
  intro s p hp hm hlen hpay hq ht
  have hpl : p.length ≤ 282 := (payload_eq_some.1 hpay).1.trans_le hlen
  obtain ⟨t, hsend, hidle, herr, hlog, hpbuf, htime, hrxq⟩ := encode_sends_frame hp hlen hpay
  have hqueue : t.rxq ++ frame p = frame p ++ [] := by rw [hrxq, hq, List.nil_append, List.append_nil]
  obtain ⟨u, hread, hphase, hnone, -, -, hhdr, hdcs, hpost, hplen, hpayload, -, hcount, hempty, -⟩ :=
    decodeReadsAFrame { t with rxq := t.rxq ++ frame p } p [] hidle (hpbuf ▸ hm) hpl (htime ▸ ht) hqueue
  refine ⟨t, u, hsend, herr, ?run, hphase, hnone, hplen, hpayload, hhdr, hdcs, hpost, hcount, hempty⟩
  case run =>
    rw [hlog, List.drop_left, applyEvents_append_next (applyEvents_arrivals (frame p))]
    exact hread

end Sys2Proof.Machine
end

section
/-! PROOFS. A DECODE from its acceptance to the end of its header (spec/43_decode.md R163-R170): the registers that acceptance
clears, the byte each pull captures, and the checks of the sixth byte. -/

namespace Sys2Proof.Machine

variable {s : State}

/-! ### Acceptance (R163, R164) -/

/-- Settles O33: acceptance clears the registers, and TIMEOUT decides whether the header phase begins or fails at once. -/
theorem decodeAcceptanceClearsAndEnters : Obligations.DecodeAcceptanceClearsAndEnters := by
  intro s hp d
  rw [exec_idle .decode hp]
  exact ⟨fun ht => congrArg _ (enterRx_pos .decHdr (timeout_pos ht)), fun ht => congrArg _ (enterRx_zero .decHdr ht)⟩

/-! ### The bytes of the header (R167) -/

/-- In an RX phase with a byte in RXQ, DECODE's move is the pull (R24). -/
theorem exec_decode_rxPull {b : Byte} {q : List Byte} (hp : s.phase = .decHdr ∨ s.phase = .decBody)
    (hq : s.rxq = b :: q) : exec .decode s = applyEvent .rxPull s :=
  (applyEvent_rxPull hp (by simp [hq])).symm

/-- Settles O34: before the sixth byte a pull only captures, at POS. -/
theorem headerBytesAreCaptured : Obligations.HeaderBytesAreCaptured := by
  intro s b q hp hpos hq
  refine ⟨captureHeader { s with rxq := q } b, ?pull, rfl, rfl, fun k hk => ?byte⟩
  case pull =>
    rw [exec_decode_rxPull (.inl hp) hq, applyEvent_captureHeader hp (by omega) hq, if_neg (by omega)]
  case byte => simp only [captureHeader, Vector.getElem_setIfInBounds, eq_comm]

/-! ### The header's checks (R168) -/

theorem preambleOk_iff (h : Vector Byte 6) : preambleOk h = true ↔ h[0] = 0x00 ∧ h[1] = 0x00 ∧ h[2] = 0xFF := by
  simp [preambleOk, and_assoc]

theorem lcsOk_iff (h : Vector Byte 6) : lcsOk h = true ↔ (h[3].toNat + h[4].toNat + h[5].toNat) % 256 = 0 := by
  simp [lcsOk]

theorem lengthField_toNat (hi lo : Byte) : (lengthField hi lo).toNat = hi.toNat * 256 + lo.toNat := by
  rw [lengthField, BitVec.toNat_ofNat]
  omega

/-- Error `e` is that of the first check which header `h` fails (R168). -/
def HeaderFails (h : Vector Byte 6) (e : ErrorCode) : Prop :=
  (e = .frameHeaderInvalid ∧ ¬ (h[0] = 0x00 ∧ h[1] = 0x00 ∧ h[2] = 0xFF)) ∨
  (e = .frameChecksumInvalid ∧ (h[0] = 0x00 ∧ h[1] = 0x00 ∧ h[2] = 0xFF) ∧
    (h[3].toNat + h[4].toNat + h[5].toNat) % 256 ≠ 0) ∨
  (e = .framePayloadTooLong ∧ (h[0] = 0x00 ∧ h[1] = 0x00 ∧ h[2] = 0xFF) ∧
    (h[3].toNat + h[4].toNat + h[5].toNat) % 256 = 0 ∧ 282 < h[3].toNat * 256 + h[4].toNat)

/-- Header `h` passes every check (R168). -/
def HeaderPasses (h : Vector Byte 6) : Prop :=
  (h[0] = 0x00 ∧ h[1] = 0x00 ∧ h[2] = 0xFF) ∧ (h[3].toNat + h[4].toNat + h[5].toNat) % 256 = 0 ∧
    h[3].toNat * 256 + h[4].toNat ≤ 282

theorem HeaderFails.ne_none {h : Vector Byte 6} {e : ErrorCode} (hf : HeaderFails h e) : e ≠ .none := by
  rcases hf with ⟨rfl, -⟩ | ⟨rfl, -⟩ | ⟨rfl, -⟩ <;> nofun

/-- FLEN as the end of the header writes it, whatever the checks say (R168). -/
def State.withLengthField (s : State) : State :=
  { s with cap := { s.cap with flen := lengthField s.cap.hdr[3] s.cap.hdr[4] } }

/-- A header that fails a check completes with that check's error (R168). -/
theorem headerDone_fails {e : ErrorCode} (hf : HeaderFails s.cap.hdr e) :
    headerDone s = complete e s.withLengthField := by
  simp only [HeaderFails, ← preambleOk_iff, ← lcsOk_iff, ne_eq, ← lengthField_toNat] at hf
  rcases headerDone_cases s with ⟨hpre, h⟩ | ⟨hpre, hlcs, h⟩ | ⟨hpre, hlcs, hlen, h⟩ | ⟨hpre, hlcs, hlen, -⟩
  · obtain rfl : e = .frameHeaderInvalid := by simpa [hpre] using hf
    exact h
  · obtain rfl : e = .frameChecksumInvalid := by simpa [hpre, hlcs] using hf
    exact h
  · obtain rfl : e = .framePayloadTooLong := by simpa [hpre, hlcs, hlen] using hf
    exact h
  · simp [hpre, hlcs, Nat.not_lt.2 hlen] at hf

/-- Entering an RX phase fails at once exactly with `TIMEOUT = 0` (R164). -/
theorem enterRx_eq_ite (ph : Phase) (s : State) :
    enterRx ph s =
      let s1 : State := { s with phase := ph, pos := 0, elapsed := 0 }
      if s.timeout = 0 then complete .transportTimeout s1 else s1 := by
  split
  case isTrue ht => exact enterRx_zero ph ht
  case isFalse ht => exact enterRx_pos ph (timeout_pos ht)

/-- A header that passes every check enters the body phase (R168). -/
theorem headerDone_passes (hpass : HeaderPasses s.cap.hdr) :
    headerDone s = enterRx .decBody { s.withLengthField with status := { s.status with hdrOk := true } } := by
  simp only [HeaderPasses, ← preambleOk_iff, ← lcsOk_iff, ← lengthField_toNat] at hpass
  obtain ⟨hpre, hlcs, hlen⟩ := hpass
  rcases headerDone_cases s with ⟨h, -⟩ | ⟨-, h, -⟩ | ⟨-, -, h, -⟩ | ⟨-, -, -, h⟩
  · cases hpre.symm.trans h
  · cases hlcs.symm.trans h
  · omega
  · exact h

/-- The pull of the sixth header byte captures it and ends the header (R167). -/
theorem exec_decode_sixth {b : Byte} {q : List Byte} (hp : s.phase = .decHdr) (hpos : s.pos.toNat = 5)
    (hq : s.rxq = b :: q) :
    exec .decode s =
      .next (headerDone
        { s with
          rxq := q, cap := { s.cap with hdr := s.cap.hdr.set 5 b }, pos := s.pos + 1, rxcnt := s.rxcnt + 1 }) := by
  rw [exec_decode_rxPull (.inl hp) hq, applyEvent_captureHeader hp (by omega) hq, if_pos hpos]
  simp only [captureHeader, hpos, setIfInBounds_eq_set (show 5 < 6 by decide)]

/-- Settles O35: the sixth byte ends the header, with the error of the first check it fails, or in the body phase. -/
theorem headerChecksRunInOrder : Obligations.HeaderChecksRunInOrder := by
  intro s b q hp hpos hq h flen s1 preamble lengthSum
  have hflen : flen.toNat = h[3].toNat * 256 + h[4].toNat := lengthField_toNat h[3] h[4]
  rw [exec_decode_sixth hp hpos hq]
  refine ⟨fun hpre => ?preamble, fun hpre hsum => ?checksum, fun hpre hsum hlen => ?length, fun hpre hsum hlen => ?passes⟩
  case preamble => exact congrArg _ (headerDone_fails (.inl ⟨rfl, hpre⟩))
  case checksum => exact congrArg _ (headerDone_fails (.inr (.inl ⟨rfl, hpre, hsum⟩)))
  case length => exact congrArg _ (headerDone_fails (.inr (.inr ⟨rfl, hpre, hsum, hflen ▸ hlen⟩)))
  case passes =>
    have hpass : HeaderPasses h := ⟨hpre, hsum, hflen ▸ hlen⟩
    exact congrArg _ ((headerDone_passes hpass).trans (enterRx_eq_ite .decBody _))

/-- Settles O36: after acceptance six pulls capture the header, and the check it fails completes the DECODE. -/
theorem failedHeaderTakesSixBytes : Obligations.FailedHeaderTakesSixBytes := by
  intro s h rest e hp ht hq hf
  have haccept : applyEvent (.hostWrite 0x000 0x03) s = .next _ :=
    (applyEvent_decode_idle hp).trans (congrArg _ (enterRx_pos .decHdr (timeout_pos ht)))
  have hpulls := (applyEvents_cons_next haccept).trans (applyEvents_header rfl rfl hq)
  have hrun := hpulls.trans (congrArg _ (headerDone_fails hf))
  exact ⟨_, hrun, rfl, rfl, rfl, decide_eq_true (HeaderFails.ne_none hf), rfl, rfl, rfl, rfl, rfl,
    lengthField_toNat h[3] h[4], rfl, rfl⟩

end Sys2Proof.Machine
end

section
/-! PROOFS. The body of a DECODE (spec/43_decode.md R171-R175): where each byte goes, and what the last one reports. -/

namespace Sys2Proof.Machine

variable {s : State}

/-- Settles O37: below FLEN a byte goes to PBUF, and at FLEN to RX_DCS. -/
theorem bodyBytesAreStored : Obligations.BodyBytesAreStored := by
  intro s b q hp hm hflen hpos hq
  rw [exec_decode_rxPull (.inr hp) hq]
  rcases Nat.lt_or_eq_of_le hpos with hlt | heq
  case inl =>
    exact ⟨_, applyEvent_pull_payload hp hm hflen hlt hq, rfl,
      fun _ => ⟨rfl, pbufRead_write hm (by omega) b⟩, fun h => absurd h (Nat.ne_of_lt hlt)⟩
  case inr =>
    exact ⟨_, applyEvent_pull_dcs hp hm hflen (BitVec.eq_of_toNat_eq heq) hq, rfl,
      fun h => absurd heq (Nat.ne_of_lt h), fun _ => ⟨rfl, rfl⟩⟩

/-! ### The DCS validator (R173) -/

/-- The DCS validator adds up the payload and RX_DCS modulo 256 (R173). -/
theorem dcsGood_eq_decide (p : List Byte) (d : Byte) :
    dcsGood p d = decide (((p.map BitVec.toNat).sum + d.toNat) % 256 = 0) := by
  rw [dcsGood, sum8, Nat.mod_add_mod]
  rfl

/-- It accepts exactly the payload's own checksum (R97, R173). -/
theorem dcsGood_iff (p : List Byte) (d : Byte) : dcsGood p d = true ↔ d = cks p := by
  have hsum := sum8_lt p
  have hd := d.isLt
  rw [← BitVec.toNat_inj, cks_toNat, neg8, dcsGood, beq_iff_eq]
  omega

/-! ### Completion (R174) -/

/-- Settles O38: the last pull stores the postamble and completes, an error only for a bad DCS under DCS_EN. -/
theorem bodyCompletionReportsTheChecks : Obligations.BodyCompletionReportsTheChecks := by
  intro s b q hp hm hflen hpos hq
  obtain ⟨p, hpay⟩ := payload_some hm hflen
  have hpos' : s.pos = s.cap.flen + 1 := BitVec.eq_of_toNat_eq (by rw [hpos, toNat_add_one (by omega)])
  refine ⟨p, hpay, ?_⟩
  rw [exec_decode_rxPull (.inr hp) hq, applyEvent_pull_post hp hpay hflen hpos' hq, ← dcsGood_eq_decide]
  exact ⟨fun hbad => congrArg _ (if_pos hbad), fun hok => congrArg _ (if_neg hok), dcsGood_iff p s.cap.rxDcs⟩

end Sys2Proof.Machine
end

section
/-! PROOFS. The time and the length of a DECODE (spec/43_decode.md R166, R176; spec/70_reset_and_hazards.md R219): what a Tick
does, what a timeout leaves, and how Ticks and pulls add up while a DECODE runs. -/

namespace Sys2Proof.Machine

variable {s t u : State}

/-! ### Ticks (R166) -/

theorem applyEvent_tick_elsewhere (hh : s.phase ≠ .decHdr) (hb : s.phase ≠ .decBody) : applyEvent .tick s = .next s := by
  have hr : s.inRx = false := by
    rw [← Bool.not_eq_true, inRx_eq_true]
    exact not_or.2 ⟨hh, hb⟩
  rw [applyEvent_enabled (by simp [enabled, hr]), effect, hr]
  rfl

/-- Settles O39: an RX phase with RXQ empty takes the Tick of R166, and every other phase ignores it. -/
theorem ticksCountInRxPhasesOnly : Obligations.TicksCountInRxPhasesOnly := by
  refine ⟨fun s hp => ?enabled, fun s hp hq => exec_decode_tick hp hq, fun s => applyEvent_tick_elsewhere⟩
  case enabled => rw [enabled_tick, and_iff_right hp, ne_eq, not_not]

/-- Below TIMEOUT, ELAPSED counts by one without wrapping (R30). -/
theorem elapsed_add_one (h : s.elapsed.toNat < s.timeout.toNat) : (s.elapsed + 1).toNat = s.elapsed.toNat + 1 :=
  BitVec.toNat_add_of_lt (Nat.lt_of_le_of_lt h s.timeout.isLt)

/-! ### A timeout of the body phase (R176) -/

/-- Settles O40: the Tick completes, and completion keeps what the invariant says of the body phase. -/
theorem bodyTimeoutKeepsWhatArrived : Obligations.BodyTimeoutKeepsWhatArrived := by
  intro s hi hp hq ht
  obtain ⟨-, -, hlen, -, -, hcnt, hlt, hhdr, hdcs, hpost⟩ := hi.decBody hp
  have hsucc := elapsed_add_one hlt
  refine ⟨rxTick s, (applyEvent_tick_rx (.inr hp) hq).trans (exec_decode_tick (.inr hp) hq), ?_⟩
  rcases rxTick_cases s with ⟨-, e⟩ | ⟨hmore, -⟩
  · rw [e]
    exact ⟨rfl, rfl, hlen, hhdr, hdcs, hpost, rfl, rfl, hcnt⟩
  · omega

/-! ### The measure of a running DECODE (R219) -/

/-- PHASE is one of the two RX phases. -/
def State.Decoding (s : State) : Prop :=
  s.phase = .decHdr ∨ s.phase = .decBody

theorem State.Inv.elapsed_lt (hi : s.Inv) (hd : s.Decoding) : s.elapsed.toNat < s.timeout.toNat := by
  rcases hd with hp | hp
  · obtain ⟨-, -, -, -, -, ht, -⟩ := hi.decHdr hp
    exact ht
  · obtain ⟨-, -, -, -, -, -, ht, -⟩ := hi.decBody hp
    exact ht

/-- The Ticks a running DECODE may have seen: the body phase has the header phase's TIMEOUT behind it (R164, R166). -/
def State.ticksSpent (s : State) : Nat :=
  if s.phase = .decBody then s.timeout.toNat + s.elapsed.toNat else s.elapsed.toNat

/-- The bounds of R219, as the invariant gives them. -/
theorem State.Inv.decoding_bounds (hi : s.Inv) (hd : s.Decoding) :
    s.ticksSpent < 2 * s.timeout.toNat ∧ s.rxcnt.toNat < 290 := by
  rcases hd with hp | hp
  · obtain ⟨-, -, -, hpos, hcnt, ht, -⟩ := hi.decHdr hp
    simp only [State.ticksSpent, hp, hcnt, reduceCtorEq, if_false]
    omega
  · obtain ⟨-, -, -, hflen, hpos, hcnt, ht, -⟩ := hi.decBody hp
    simp only [State.ticksSpent, hp, if_true]
    omega

/-- The events `es` lead from `s` to `t` with TIMEOUT kept, no more Ticks than were spent, and each pull in RXCNT. -/
structure Counted (es : List Event) (s t : State) : Prop where
  timeout : t.timeout = s.timeout
  ticks : s.ticksSpent + es.count .tick ≤ t.ticksSpent
  pulls : t.rxcnt.toNat = s.rxcnt.toNat + es.count .rxPull

theorem Counted.nil (s : State) : Counted [] s s := ⟨rfl, Nat.le_refl _, rfl⟩

theorem Counted.cons {e : Event} {es : List Event} (h : Counted [e] s u) (hs : Counted es u t) : Counted (e :: es) s t := by
  have hcount (x : Event) : (e :: es).count x = [e].count x + es.count x :=
    List.count_append (l₁ := [e])
  obtain ⟨ht, hticks, hpulls⟩ := h
  obtain ⟨ht', hticks', hpulls'⟩ := hs
  refine ⟨ht'.trans ht, ?_, ?_⟩
  · rw [hcount]; omega
  · rw [hcount]; omega

/-- An event that is neither a Tick nor a pull and leaves PHASE, TIMEOUT, ELAPSED and RXCNT counts nothing. -/
theorem counted_still {e : Event} (hticks : e ≠ .tick) (hpulls : e ≠ .rxPull) (hphase : t.phase = s.phase)
    (htimeout : t.timeout = s.timeout) (helapsed : t.elapsed = s.elapsed) (hcnt : t.rxcnt = s.rxcnt) :
    Counted [e] s t := by
  refine ⟨htimeout, ?_, ?_⟩
  · rw [List.count_singleton, if_neg (by simpa using hticks), State.ticksSpent, State.ticksSpent, hphase, htimeout, helapsed]
    exact Nat.le_refl _
  · rw [List.count_singleton, if_neg (by simpa using hpulls), hcnt]
    rfl

/-! ### One event of a DECODE that goes on -/

theorem rxTick_counted (hi : s.Inv) (hd : s.Decoding) (ht : (rxTick s).Decoding) : Counted [.tick] s (rxTick s) := by
  have hsucc := elapsed_add_one (hi.elapsed_lt hd)
  rcases rxTick_cases s with ⟨-, e⟩ | ⟨-, e⟩ <;> rw [e] at ht ⊢
  · simp [State.Decoding] at ht
  · refine ⟨rfl, ?_, rfl⟩
    simp only [State.ticksSpent, hsucc, List.count_singleton_self]
    split <;> omega

theorem pullHeader_counted {b : Byte} (hi : s.Inv) (hp : s.phase = .decHdr) (h : pullHeader b s = .next t)
    (ht : t.Decoding) : Counted [.rxPull] s t := by
  refine ⟨(pullHeader_sameOperands h).timeout, ?_, (pullHeader_pullsByte hi hp h).count⟩
  obtain ⟨c, rfl | ⟨st, er, e⟩ | e⟩ := pullHeader_next h
  · exact Nat.le_refl _
  · rw [e] at ht; simp [State.Decoding] at ht
  · have hbefore : s.ticksSpent = s.elapsed.toNat := by simp [State.ticksSpent, hp]
    have hafter : t.ticksSpent = s.timeout.toNat := by rw [e]; rfl
    rw [hbefore, hafter]
    exact Nat.le_of_lt (hi.elapsed_lt (.inl hp))

theorem pullBody_counted {b : Byte} (hi : s.Inv) (hp : s.phase = .decBody) (h : pullBody b s = .next t)
    (ht : t.Decoding) : Counted [.rxPull] s t := by
  obtain ⟨htimeout, -⟩ := pullBody_operands h
  refine ⟨htimeout, ?_, (pullBody_pullsByte hi hp h).count⟩
  obtain ⟨s1, hs, rfl | ⟨q, er, st, n, -, rfl, -⟩⟩ := pullBody_next h
  · rw [(storeBody_keeps hs).1]
    exact Nat.le_refl _
  · simp [State.Decoding] at ht

/-- Every event but Reset that leaves the DECODE running is counted. -/
theorem decodingEvent_counted {e : Event} (hi : s.Inv) (hd : s.Decoding) (hr : e ≠ .reset)
    (h : applyEvent e s = .next t) (ht : t.Decoding) : Counted [e] s t := by
  have hrun : s.phase ≠ .idle := by rcases hd with hp | hp <;> simp [hp]
  have helse : s.phase ≠ .enc ∧ s.phase ≠ .compute := by rcases hd with hp | hp <;> simp [hp]
  rcases applyEvent_cases h with ⟨a, v, rfl, hw⟩ | ⟨a, rfl, rfl⟩ | ⟨b, rfl, rfl⟩ | ⟨rfl, b, q, -, ⟨hp, hf⟩ | ⟨hp, hf⟩⟩ |
    ⟨-, hp, -⟩ | ⟨rfl, ⟨-, hh, hb⟩ | ⟨-, rfl⟩⟩ | ⟨-, hp, -⟩ | ⟨he, -⟩
  · rcases hostWrite_busy hrun hw with rfl | rfl
    · exact counted_still nofun nofun rfl rfl rfl rfl
    · exact counted_still nofun nofun rfl rfl rfl rfl
  · exact counted_still nofun nofun rfl rfl rfl rfl
  · exact counted_still nofun nofun rfl rfl rfl rfl
  · exact { pullHeader_counted (hi.dropRx q) hp hf ht with }
  · exact { pullBody_counted (hi.dropRx q) hp hf ht with }
  · exact absurd hp helse.1
  · exact absurd hd (not_or.2 ⟨hh, hb⟩)
  · exact rxTick_counted hi hd ht
  · exact absurd hp helse.2
  · exact absurd he hr

/-! ### A run of events -/

/-- A passive event of an idle engine leaves it idle. -/
theorem passiveEvent_idle {e : Event} (hp : s.phase = .idle) (he : passiveEvent e) (h : applyEvent e s = .next t) :
    t.phase = .idle := by
  have hwrite (a : HostAddr) (v : Byte) : e ≠ .hostWrite a v := by rintro rfl; simp [passiveEvent] at he
  have hreset : e ≠ .reset := by rintro rfl; simp [passiveEvent] at he
  rcases idleEvent_cases hp hreset (hwrite 0x000) h with ⟨a, v, rfl, -⟩ | ⟨ht, -⟩
  · exact absurd rfl (hwrite a v)
  · rw [ht]; exact hp

/-- Once the DECODE has ended, the engine stays idle. -/
theorem undisturbed_idle {es : List Event} (hp : s.phase = .idle) (hes : undisturbed es s)
    (h : applyEvents es s = .next t) : t.phase = .idle := by
  induction es generalizing s with
  | nil => cases h; exact hp
  | cons e es ih =>
    obtain ⟨-, hpassive, hrest⟩ := hes
    obtain ⟨u, hu, hut⟩ := applyEvents_cons_split h
    exact ih (passiveEvent_idle hp (hpassive hp) hu) (hrest u hu) hut

/-- A DECODE that still runs after `es` ran all the time, and each of its events was counted. -/
theorem undisturbed_counted {es : List Event} (hi : s.Inv) (hd : s.Decoding) (hes : undisturbed es s)
    (h : applyEvents es s = .next t) (ht : t.Decoding) : t.Inv ∧ Counted es s t := by
  induction es generalizing s with
  | nil => cases h; exact ⟨hi, .nil _⟩
  | cons e es ih =>
    obtain ⟨hr, hpassive, hrest⟩ := hes
    obtain ⟨u, hu, hut⟩ := applyEvents_cons_split h
    obtain ⟨hidle | hud, -⟩ := decodeEvent_moves hi (.inr hd) hr hpassive hu
    · simp [State.Decoding, undisturbed_idle hidle (hrest u hu) hut] at ht
    · obtain ⟨hti, hcount⟩ := ih (applyEvent_next_inv hi hu) hud (hrest u hu) hut
      exact ⟨hti, (decodingEvent_counted hi hd hr hu hud).cons hcount⟩

/-- Settles O44: the Ticks and pulls are within what the DECODE has spent, and the invariant bounds that. -/
theorem decodeDurationIsBounded : Obligations.DecodeDurationIsBounded := by
  intro s t es hi hp _ _ hes h ht
  obtain ⟨hti, htimeout, hticks, hpulls⟩ := undisturbed_counted hi (.inl hp) hes h ht
  have hbounds := hti.decoding_bounds ht
  rw [htimeout] at hbounds
  omega

end Sys2Proof.Machine
end

section
/-! PROOFS. The CCID header parser (spec/44_ccid.md R180-R185): what CCIDPARSE and CCIDCHK have in common, then each command with
its own verdict on the header it extracted. -/

namespace Sys2Proof.Machine

variable {s : State} {i : Instr} {verdict : CcidRegs → ErrorCode}

/-! ### The fields of a header (R100, R180, R182) -/

/-- CLEN holds the four length bytes exactly: together they are less than 2^32 (R100). -/
theorem ccidLength_toNat (b1 b2 b3 b4 : Byte) :
    (ccidLength b1 b2 b3 b4).toNat = b1.toNat + b2.toNat * 2 ^ 8 + b3.toNat * 2 ^ 16 + b4.toNat * 2 ^ 24 := by
  rw [ccidLength, BitVec.toNat_ofNat]
  exact Nat.mod_eq_of_lt (by omega)

/-- RESP_OK, bit 3 of CSTAT, is the test of the type and of the status byte (R33, R182). -/
theorem respOk_ccidFlags (c : CcidRegs) (plen : Half) :
    respOk (ccidFlags c plen) = decide (c.mtype = 0x83 ∧ c.msg7 = 0x02) := by
  simp only [respOk, ccidFlags_getLsbD]
  simp

/-- RESP_OK of a parse says that the header is a good escape response (R182, R185). -/
theorem respOk_ccidParsed (h : Vector Byte 10) (plen : Half) (cstat : Byte) :
    respOk (ccidParsed h plen cstat).cstat = decide (h[0] = 0x83 ∧ h[7] = 0x02) :=
  respOk_ccidFlags (ccidFields h cstat) plen

/-! ### The moves of a parse -/

theorem finishBody_ccidparse : finishBody .ccidparse = ccidExtract fun _ => .none := rfl

theorem finishBody_ccidchk :
    finishBody .ccidchk = ccidExtract fun c => if respOk c.cstat then .none else .ccidHeaderInvalid := rfl

/-- With a parser its commands wait for Finish after the range check on PLEN (R120, R122). -/
theorem exec_parse_idle (ha : acceptMove i = ccidAccept) (hp : s.phase = .idle) (hc : s.hasCcid = true) :
    exec i s = .next (toCompute (plenCheck s) (acceptBegin (opcode i) s)) := by
  rw [exec_idle i hp, ha, ccidAccept_parser (by exact hc)]
  rfl

theorem exec_pending (hp : s.phase = .compute) (ho : s.op = opcode i) (he : s.perr ≠ .none) :
    exec i s = .next (complete s.perr s) :=
  (exec_compute hp ho).trans (finishWith_pending he)

/-- Without a pending error a parser's command extracts the header and gives its verdict (R124, R180). -/
theorem exec_parse_compute (hf : finishBody i = ccidExtract verdict) (hp : s.phase = .compute) (ho : s.op = opcode i)
    (he : s.perr = .none) : exec i s = ccidExtract verdict s := by
  rw [exec_compute hp ho, finishWith_none he, hf]

theorem exec_parse_short (hf : finishBody i = ccidExtract verdict) (hp : s.phase = .compute) (ho : s.op = opcode i)
    (he : s.perr = .none) (hlen : s.plen.toNat < 10) :
    exec i s = .next (complete .ccidHeaderInvalid (ccidClear s)) :=
  (exec_parse_compute hf hp ho he).trans (ccidExtract_short hlen)

/-- A payload of ten bytes or more is parsed: the registers are those of PBUF[0..9], whatever the verdict on them (R180). -/
theorem exec_parse_header (hf : finishBody i = ccidExtract verdict) (hp : s.phase = .compute) (ho : s.op = opcode i)
    (he : s.perr = .none) (hm : s.pbuf.wf = true) (hlen : 10 ≤ s.plen.toNat) :
    ∃ h : Vector Byte 10, (∀ k (hk : k < 10), pbufRead s.pbuf k = some h[k]) ∧
      exec i s = .next (complete (verdict (ccidParsed h s.plen s.ccid.cstat))
        { s with ccid := ccidParsed h s.plen s.ccid.cstat }) := by
  obtain ⟨h, hheader, hbytes⟩ := ccidHeader_some hm
  exact ⟨h, hbytes, (exec_parse_compute hf hp ho he).trans (ccidExtract_header hlen hheader)⟩

/-! ### CCIDPARSE (R184) -/

/-- Settles O46: the moves of a parse; CCIDPARSE's verdict on every header is NONE. -/
theorem ccidparseExtractsTheHeader : Obligations.CcidparseExtractsTheHeader := by
  refine ⟨fun s hp hc => exec_parse_idle (i := .ccidparse) rfl hp hc, fun s hp ho he => exec_pending hp ho he,
    fun s hp ho he hlen => exec_parse_short finishBody_ccidparse hp ho he hlen, fun s hp ho he hm hlen => ?header⟩
  case header =>
    obtain ⟨h, hbytes, hexec⟩ := exec_parse_header finishBody_ccidparse hp ho he hm hlen
    exact ⟨h, _, hbytes, rfl, ccidLength_toNat _ _ _ _, rfl, rfl, rfl, rfl, rfl, rfl, hexec⟩

/-! ### CCIDCHK (R185) -/

/-- Settles O47: the moves of a parse; CCIDCHK's verdict is RESP_OK, which the type and the status byte decide. -/
theorem ccidchkRequiresAGoodResponse : Obligations.CcidchkRequiresAGoodResponse := by
  refine ⟨fun s hp hc => exec_parse_idle (i := .ccidchk) rfl hp hc, fun s hp ho he => exec_pending hp ho he,
    fun s hp ho he hlen => exec_parse_short finishBody_ccidchk hp ho he hlen, fun s hp ho he hm hlen => ?header⟩
  case header =>
    obtain ⟨h, hbytes, hexec⟩ := exec_parse_header finishBody_ccidchk hp ho he hm hlen
    simp only [respOk_ccidParsed, decide_eq_true_eq] at hexec
    exact ⟨h, _, hbytes, rfl, ccidLength_toNat _ _ _ _, rfl, rfl, rfl, rfl, rfl, rfl, hexec⟩

end Sys2Proof.Machine
end

section
/-! PROOFS. What a Reset leaves (spec/70_reset_and_hazards.md R210): PBUF as its draw left it, byte by byte, and the registers
of the state after power-on. -/

namespace Sys2Proof.Machine

variable {s : State}

/-- A drawn PBUF holds at each of its indexes the free value of that draw (R31; log 5). -/
theorem pbufRead_drawn (n : Nat) {k : Nat} (hk : k < 282) :
    pbufRead (Memory.drawn n) k = some (Config.pbufAtReset n k) := by
  have hindex : (List.range 282).find? (fun i => Config.pbufBase + i == Config.pbufBase + k) = some k := by
    rw [List.find?_range_eq_some]
    refine ⟨beq_self_eq_true _, List.mem_range.2 hk, fun j hj => ?_⟩
    simpa using hj.ne
  have hcell : (Memory.drawn n).find? (fun c => c.1 == Config.pbufBase + k) =
      some (Config.pbufBase + k, Config.pbufAtReset n k) := by
    rw [Memory.drawn, List.find?_map]
    exact congrArg _ hindex
  rw [pbufRead, Memory.read, hcell]

/-- STATUS reads 0x00 when no command runs and none of its bits is set (R18). -/
theorem hostReadByte_status_clear (hp : s.phase = .idle) (hs : s.status = State.reset.status) :
    hostReadByte s 0x001 = 0x00 := by
  change statusByte s = 0x00
  rw [statusByte, State.busy, hp, hs]
  rfl

/-- Settles O24: Reset is enabled in every state, its registers are those after power-on, and both draw PBUF. -/
theorem resetSetsEveryRegister : Obligations.ResetSetsEveryRegister := by
  refine fun s => ⟨resetBlock s, rfl, fun u hu => ?registers,
    fun k hk => ⟨pbufRead_drawn s.draws hk, pbufRead_drawn 0 hk⟩, rfl, rfl, rfl, rfl⟩
  case registers =>
    have hidle : u.phase = .idle := by rcases hu with rfl | rfl <;> rfl
    have hstatus : u.status = State.reset.status := by rcases hu with rfl | rfl <;> rfl
    refine ⟨hstatus, hostReadByte_status_clear hidle hstatus, ?_⟩
    rcases hu with rfl | rfl <;> exact ⟨rfl, rfl, rfl, rfl, rfl, rfl, rfl, rfl, rfl, rfl, rfl, rfl, rfl, rfl⟩

end Sys2Proof.Machine
end
